-- ==== Sys2Proof/Word.lean ====
section
/-! DEFINITION. The word types of the engine: a byte, the 4-bit sequence value, byte sequences
(spec/00_scope.md R10, R12). -/

namespace Sys2Proof

/-- A byte, bit 7 the most significant (R10). -/
abbrev Byte := BitVec 8

/-- A sequence value 0..15 (R150). -/
abbrev Nibble := BitVec 4

/-- A byte sequence, index 0 first on the wire (R12). -/
abbrev Bytes := List Byte

end Sys2Proof
end

