-- ==== Sys2Proof/Config.lean ====
section
/-! DEFINITION. What an instantiation of the engine fixes: the vocabularies of the catalog, the
parameters of spec/00_scope.md R9 as one record of plain data, and the OPEN values as constants
without a body. The defaults stand in Sys2Proof/Machine/Defaults.lean. -/

namespace Sys2Proof

/-- Symbolic names of orders: the three the document names (30_encoding.md R110), and a name only a
catalog beyond the document holds (46_catalog_helpers.md R297). -/
inductive OrderName where
  | resume
  | queueCommandBlocks
  | writeFirmwareConfiguration
  | catalogued (id : Nat)
deriving DecidableEq, Repr

/-- The parameter shapes of 30_encoding.md R90, as a catalog entry names them (R296). -/
inductive ParamShape where
  | noParams
  | byte
  | byteU32
  | general
deriving DecidableEq, Repr

/-- A catalog entry of an order (R296). -/
structure OrderEntry where
  name : OrderName
  shape : ParamShape
  minReplyParams : Nat
deriving DecidableEq, Repr

/-- Symbolic names of replies (R111), and names only a catalog beyond the document holds. -/
inductive ReplyName where
  | ok
  | genericApplicationError
  | stopped
  | catalogued (id : Nat)
deriving DecidableEq, Repr

/-- Which sub-decoder a reply's payload has (R296). -/
inductive ReplySub where
  | noSub
  | errReason
  | stopped
deriving DecidableEq, Repr

/-- A catalog entry of a reply (R296). -/
structure ReplyEntry where
  name : ReplyName
  sub : ReplySub
deriving DecidableEq, Repr

/-- The ten sub-reasons of GENERIC_APPLICATION_ERROR, in the document's order (R112). -/
inductive SubReason where
  | unknownOrder
  | badParameterFormat
  | badParameterValue
  | invalidDeviceType
  | invalidDeviceNumber
  | incorrectMode
  | busy
  | failed
  | firmwareError
  | cannotActivateDevice
deriving DecidableEq, Repr

/-- The three recovery values of a STOPPED reply (R113). -/
inductive Recovery where
  | cleared
  | persists
  | unrecoverable
deriving DecidableEq, Repr

/-- The ten causes of a STOPPED reply (R113). -/
inductive StopCause where
  | reset
  | endStopHit
  | movementError
  | temperatureError
  | deviceFault
  | electricalFault
  | firmwareFault
  | userRequested
  | hostTimeout
  | other
deriving DecidableEq, Repr

/-- The Transport's answer to a send or an open: `ok` or `error` (00_scope.md R15). -/
inductive IoAnswer where
  | ok
  | error
deriving DecidableEq, Repr, Inhabited

/-- The parameters of 00_scope.md R9 that are not fixed by the source. State carries one such record
and no operation writes it (10_state.md R31), so a claim over every state is a claim over every choice of
the parameters (log 13). -/
structure Params where
  /-- `CRCTAB` (40_crc8.md R132). -/
  crcTab : Vector Byte 256
  /-- `T_LONG`, ticks (43_frame_rx.md R181). -/
  tLong : Nat
  /-- `T_SHORT`, ticks (R182). -/
  tShort : Nat
  /-- `DEBUG_SKIP_LIMIT` (60_exceptions.md R332). -/
  debugSkipLimit : Option Nat
  /-- `BT_WRAPPER` (30_encoding.md R96). -/
  btWrapper : Byte
  /-- `BT_DELAY` (R96). -/
  btDelay : Byte
  /-- `BT_BLM` (R96). -/
  btBlm : Byte
  /-- `BT_TOOLHEAD` (R96). -/
  btToolhead : Byte
  /-- `ORDER_QUEUE_COMMAND_BLOCKS` (R110). -/
  orderQueueCommandBlocks : Byte
  /-- `ORDER_WRITE_FIRMWARE_CONFIGURATION` (R110). -/
  orderWriteFirmwareConfiguration : Byte
  /-- `REPLY_STOPPED` (R111). -/
  replyStopped : Byte
  /-- `minReplyParams` of ORDER_RESUME (R297). -/
  minReplyResume : Nat
  /-- `minReplyParams` of the queue order (R297). -/
  minReplyQueueCommandBlocks : Nat
  /-- `minReplyParams` of the firmware-configuration order (R297). -/
  minReplyWriteFirmwareConfiguration : Nat
  /-- `ORDER_CATALOG` beyond the entries the document gives (R290, R297). -/
  moreOrders : List (Byte × OrderEntry)
  /-- `REPLY_CATALOG` beyond the entries the document gives (R290, R297). -/
  moreReplies : List (Byte × ReplyEntry)
  /-- The nine decided sub-reason codes, in list order and without bad-parameter-value (R112). -/
  otherSubReasons : Vector Byte 9
  /-- `STOP_RECOVERY_CLEARED`, `_PERSISTS`, `_UNRECOVERABLE` (R113). -/
  stopRecovery : Vector Byte 3
  /-- `STOP_CAUSE_*`, in list order (R113). -/
  stopCause : Vector Byte 10
deriving DecidableEq, Repr

/-! The OPEN parameters (00_scope.md R9): no body, so nothing can be proved of their values (log 13). -/

opaque Config.tLong : Nat
opaque Config.tShort : Nat
opaque Config.orderQueueCommandBlocks : Byte
opaque Config.orderWriteFirmwareConfiguration : Byte
opaque Config.replyStopped : Byte
opaque Config.minReplyResume : Nat
opaque Config.minReplyQueueCommandBlocks : Nat
opaque Config.minReplyWriteFirmwareConfiguration : Nat
opaque Config.moreOrders : List (Byte × OrderEntry)
opaque Config.moreReplies : List (Byte × ReplyEntry)
opaque Config.stopRecovery : Vector Byte 3
opaque Config.stopCause : Vector Byte 10

/-! Free values: the Transport's answers that no schedule gives (00_scope.md R7, log 7). The argument is the
number of free answers drawn before. -/

opaque Config.freeSendAnswer : Nat → IoAnswer
opaque Config.freeOpenAnswer : Nat → IoAnswer

end Sys2Proof
end

