-- ==== Sys2Proof/Syntax.lean ====
section
/-! DEFINITION. The syntax: the BLM record, the instructions (one constructor per row of
spec/opcode_table.json), and the commands the HOST issues. -/

namespace Sys2Proof

/-- One per-axis member of a BLM record: axis, step count, direction tag (44_motion_decode.md R220). -/
structure AxisStep where
  axis : Nat
  count : Nat
  direction : Bool
deriving DecidableEq, Repr

/-- A BLM record without its two width flags (R220). The numbers are natural numbers, so that a record whose
values do not fit can be written down and refused (45_motion_encode.md R264, R265). -/
structure BlmBody where
  sel : Nat
  dir : Nat
  primary : Nat
  homing : Bool
  nominal : Nat
  endSpeed : Nat
  accel : Nat
  decel : Nat
  steps : List AxisStep
deriving DecidableEq, Repr

/-- A BLM record: the two width flags and the rest (R220, R264). -/
structure BlmRecord where
  wideMask : Bool
  wideSteps : Bool
  body : BlmBody
deriving DecidableEq, Repr

/-- The instructions: the 37 operations of 30_encoding.md R120, then the 31 data-format rows of the table
(R81 to R113), each of which stands for one word of its format handed to the unit that decodes it
(log 4). -/
inductive Instr where
  -- system
  | sessionOpen (descriptor : Bytes)
  | sessionClose
  | regRead (n : Nat)
  -- CRC
  | crcTab (i : Byte)
  | crcStep (acc b : Byte)
  | crcRange (buf : Bytes) (offset length : Nat)
  -- SEQ
  | seqInit
  | seqCurrent
  | seqAdvance
  -- TXF
  | txEncode (code : Byte) (params : Bytes)
  | txOrder0 (code : Byte)
  | txOrder1 (code b : Byte)
  | txOrder5 (code b : Byte) (v : BitVec 32)
  | txSend
  -- RXS
  | rxAssemble
  | rxValidate (f : Bytes)
  | rxReceive
  | xchg
  -- MBC, decode
  | mbScan (a : Bytes)
  | mbDec (b : Bytes)
  | mbDecWrapper (b : Bytes)
  | mbDecDelay (b : Bytes)
  | mbDecBlm (b : Bytes)
  | mbDecToolhead (b : Bytes)
  | mbDecUnknown (b : Bytes)
  -- MBC, encode
  | mbEncWrapper (order : Byte) (params : Bytes)
  | mbEncDelay (ticks : Nat)
  | mbEncBlm (r : BlmRecord)
  | mbEncToolhead (index : Byte)
  | mbEncRaw (typ : Byte) (body : Bytes)
  | mbPack (blocks : List Bytes)
  -- CAT
  | catOrder (code : Byte)
  | catReply (code : Byte)
  | errReason (v : Byte)
  | stoppedDec (params : Bytes)
  | beUint (buf : Bytes) (off cnt : Nat)
  | text (buf : Bytes) (off cnt : Nat)
  -- frames (R81, R82, R92)
  | req (sq : Nibble) (code : Byte) (params : Bytes)
  | rsp (reserved : BitVec 3) (sq : Nibble) (code : Byte) (params : Bytes)
  | dbg (reserved : BitVec 3) (sq : Nibble) (code : Byte) (params : Bytes)
  -- control bytes (R87, R88)
  | ctrlReq (sq : Nibble)
  | ctrlRsp (debug : Bool) (reserved : BitVec 3) (sq : Nibble)
  -- motion blocks (R94, R97 to R106)
  | blockHeader (blockLength blockType : Byte)
  | wrap (order : Byte) (params : Bytes)
  | delay (ticks : BitVec 16)
  | toolhead (index : Byte)
  | blmNN (body : BlmBody)
  | blmNW (body : BlmBody)
  | blmWN (body : BlmBody)
  | blmWW (body : BlmBody)
  | unknown (typ : Byte) (body : Bytes)
  -- order and reply codes (R110, R111)
  | orderResume
  | orderQueueCommandBlocks
  | orderWriteFirmwareConfiguration
  | replyOk
  | replyGenericApplicationError
  | replyStopped
  -- sub-reasons (R112)
  | subUnknownOrder
  | subBadParameterFormat
  | subBadParameterValue
  | subInvalidDeviceType
  | subInvalidDeviceNumber
  | subIncorrectMode
  | subBusy
  | subFailed
  | subFirmwareError
  | subCannotActivateDevice
  -- the STOPPED payload (R113)
  | stoppedPayload (recovery cause : Byte) (text : Bytes)
deriving DecidableEq, Repr

/-- The operand wires beside the selector (R120: operands travel beside it). One bundle serves every operation;
an operation reads the wires it has operands for and no other (log 3). -/
structure Operands where
  byte0 : Byte
  byte1 : Byte
  word : BitVec 32
  nat0 : Nat
  nat1 : Nat
  bytes : Bytes
  blocks : List Bytes
  record : BlmRecord
deriving DecidableEq, Repr

/-- The formats of spec/opcode_table.json other than OPSEL; a control byte says which direction it is of
(R87, R88), a bare header is told apart from a whole block (R94). -/
inductive Format where
  | frame
  | controlRequest
  | controlResponse
  | blockHeader
  | block
  | orderCode
  | replyCode
  | subReason
  | replyPayload
deriving DecidableEq, Repr

/-- What the HOST puts on the command port: an operation, or one word of a data format (log 3, log 5). -/
inductive Command where
  | op (opsel : Byte) (args : Operands)
  | word (format : Format) (bytes : Bytes)
deriving DecidableEq, Repr

end Sys2Proof
end

