-- ==== Sys2Proof/Machine/Flags.lean ====
section
/-! DEFINITION. Flags and bit fields: the control byte, the width flags of a BLM block, the packing byte, the
helpers' mismatch flag (spec/10_state.md R35). -/

namespace Sys2Proof.Machine

/-- The control byte of a request: the sequence value, bits 7..4 zero (30_encoding.md R87). -/
def requestControl (sq : Nibble) : Byte := sq.setWidth 8

/-- The control byte of a response, `d rrr ssss` (R88). -/
def responseControl (debug : Bool) (reserved : BitVec 3) (sq : Nibble) : Byte :=
  BitVec.ofBool debug ++ reserved ++ sq

/-- Bit 7 of a control byte: the debug-frame flag (R88). -/
def debugFlag (c : Byte) : Bool := c.getLsbD 7

/-- Bits 6..4 of a control byte, ignored on receive (R107). -/
def controlReserved (c : Byte) : BitVec 3 := c.extractLsb' 4 3

/-- Bits 3..0 of a control byte: the sequence number (R88). -/
def seqNibble (c : Byte) : Nibble := c.extractLsb' 0 4

/-- Bit 7 of a mask's lead byte: a width flag (R101, R102). -/
def leadFlag (lead : Byte) : Bool := lead.getLsbD 7

/-- Bits 6..0 of a mask's lead byte (R101, R102). -/
def leadValue (lead : Byte) : Nat := lead.toNat % 128

/-- Bits 3..0 of the packing byte: the primary axis (R103). -/
def packPrimary (b : Byte) : Nat := b.toNat % 16

/-- Bit 4 of the packing byte: the homing flag (R103). -/
def packHoming (b : Byte) : Bool := b.getLsbD 4

/-- Field width chosen by a width flag: `1 + flag` (R104). -/
def fieldWidth (wide : Bool) : Nat := if wide then 2 else 1

/-- The positions of the set bits of a mask, ascending over 0..15 (44_motion_decode.md R236). -/
def selectedAxes (sel : Nat) : List Nat := (List.range 16).filter (fun k => sel.testBit k)

/-- The helpers' mismatch flag: fewer bytes read than asked for (46_catalog_helpers.md R305). -/
def mismatchFlag (read asked : Nat) : Bool := read != asked

end Sys2Proof.Machine
end

