-- ==== Sys2Proof/Machine/Operands.lean ====
section
/-! DEFINITION. Operand forms: byte access, slices, big-endian numbers, the clamping of the value helpers
(spec/00_scope.md R12, R13; 46_catalog_helpers.md R305). -/

namespace Sys2Proof.Machine

/-- `s[i]` (R12); used only where `i < len(s)` has been checked. -/
def byteAt (s : Bytes) (i : Nat) : Byte := s.getD i 0

/-- `s[i..j)` (R12). -/
def slice (s : Bytes) (i j : Nat) : Bytes := (s.drop i).take (j - i)

/-- The big-endian number of a byte sequence, 0 for the empty one: `beN(s, 0, len(s))` (R13). -/
def beNat (s : Bytes) : Nat := s.foldl (fun acc b => acc * 256 + b.toNat) 0

/-- `bytes_be(v, n)` (R13). -/
def bytesBe (n v : Nat) : Bytes :=
  match n with
  | 0 => []
  | k + 1 => bytesBe k (v / 256) ++ [BitVec.ofNat 8 v]

/-- The number of bytes the helpers read: `min(cnt, avail)` with `avail = max(0, n - off)` (R305). -/
def clampCount (n off cnt : Nat) : Nat := min cnt (n - off)

/-- A field of `w` bytes at the front of what is left of a block, or nothing when the block is too short for it
(44_motion_decode.md R238, `need(w)`). -/
def takeField (w : Nat) (rest : Bytes) : Option (Bytes × Bytes) :=
  if rest.length < w then none else some (rest.take w, rest.drop w)

end Sys2Proof.Machine
end

