-- ==== Sys2Proof/Machine/Values.lean ====
section
/-! DEFINITION. What operations return: results, rejection reasons, refusals, outcomes
(spec/00_scope.md R8). -/

namespace Sys2Proof.Machine

/-- Why bytes do not fit a block format (44_motion_decode.md R220). -/
inductive MalformedWhy where
  | headerTruncated
  | lengthTooSmall
  | overrun
  | lengthMismatch
  | fieldOverrun
deriving DecidableEq, Repr

/-- A decoded block (R220). -/
inductive Block where
  | wrapper (order : Byte) (params : Bytes)
  | delay (ticks micros : Nat)
  | toolhead (index : Byte)
  | blm (r : BlmRecord)
  | unknown (typ : Byte) (raw : Bytes)
  | malformed (why : MalformedWhy) (raw : Bytes)
deriving DecidableEq, Repr

/-- How a scan ended (R221). -/
inductive ScanStatus where
  | complete
  | stopped
deriving DecidableEq, Repr

/-- The kinds a block-type byte selects (30_encoding.md R96). -/
inductive BlockKind where
  | wrapper
  | delay
  | blm
  | toolhead
  | unknown
deriving DecidableEq, Repr

/-- A lookup's result: a known member or the explicit marker with the raw code (46_catalog_helpers.md R293). -/
inductive Lookup (α : Type) where
  | known (a : α)
  | unrecognized (code : Byte)
deriving DecidableEq, Repr

/-- A decoded STOPPED payload; a missing byte is `none`, the spec's `Absent` (R295). -/
structure StoppedReply where
  recovery : Option (Lookup Recovery)
  cause : Option (Lookup StopCause)
  text : Bytes
  mismatch : Bool
deriving DecidableEq, Repr

/-- The values an operation ends `Ok` with (30_encoding.md R120, column result). -/
inductive Value where
  | unit
  | nat (n : Nat)
  | byte (b : Byte)
  | bytes (s : Bytes)
  | reply (code : Byte) (params : Bytes)
  | debug
  | block (b : Block)
  | blocks (bs : List Block) (status : ScanStatus)
  | order (r : Lookup OrderEntry)
  | replyEntry (r : Lookup ReplyEntry)
  | reason (r : Lookup SubReason)
  | stopped (r : StoppedReply)
  | uint (v : Nat) (mismatch : Bool)
  | text (s : Bytes) (mismatch : Bool)
  | control (debug : Bool) (sq : Nibble)
  | header (blockLength : Nat) (kind : BlockKind)
deriving DecidableEq, Repr

/-- The rejection reasons of 60_exceptions.md R320. -/
inductive RejectReason where
  | tooShort
  | badSync
  | badCrc
  | badLength
  | badSeq
  | debugLimit
deriving DecidableEq, Repr

/-- The refusals of 60_exceptions.md R329. -/
inductive RefusedWhy where
  | noSuchOperation
  | noSuchRegister
  | alreadyOpen
  | noSession
  | busy
  | nothingEncoded
  | txTooLong
  | crcRange
  | blockOperand
  | blockTooLong
  | fieldRange
  | illFormedRecord
  | areaTooLong
deriving DecidableEq, Repr

/-- The four outcomes of an operation (00_scope.md R8). A refusal is an outcome of its own, never a value
(log 1). -/
inductive OpOutcome where
  | ok (v : Value)
  | noFrame (r : RejectReason)
  | transportError
  | refused (why : RefusedWhy)
deriving DecidableEq, Repr

/-- What validation says of a candidate frame (43_frame_rx.md R189). -/
inductive Verdict where
  | reply (code : Byte) (params : Bytes)
  | debug
  | reject (r : RejectReason)
deriving DecidableEq, Repr

end Sys2Proof.Machine
end

