-- ==== Sys2Proof/Machine/Catalogs.lean ====
section
/-! DEFINITION. The catalog maps, the sub-reason and STOPPED code tables, and their lookups
(spec/46_catalog_helpers.md R290 to R297). -/

namespace Sys2Proof.Machine

/-- `ORDER_CATALOG`: the entries the document gives, then whatever extends them (R290, R297). -/
def orderCatalog (p : Params) : List (Byte × OrderEntry) :=
  [(orderResumeCode, ⟨.resume, .byte, p.minReplyResume⟩),
   (p.orderQueueCommandBlocks, ⟨.queueCommandBlocks, .general, p.minReplyQueueCommandBlocks⟩),
   (p.orderWriteFirmwareConfiguration,
     ⟨.writeFirmwareConfiguration, .general, p.minReplyWriteFirmwareConfiguration⟩)] ++ p.moreOrders

/-- `REPLY_CATALOG` (R290, R297). -/
def replyCatalog (p : Params) : List (Byte × ReplyEntry) :=
  [(replyOkCode, ⟨.ok, .noSub⟩),
   (replyGenericApplicationErrorCode, ⟨.genericApplicationError, .errReason⟩),
   (p.replyStopped, ⟨.stopped, .stopped⟩)] ++ p.moreReplies

/-- The code of a sub-reason (30_encoding.md R112): 3 is the source's, the other nine are parameters. -/
def subReasonCode (p : Params) : SubReason → Byte
  | .unknownOrder => p.otherSubReasons[0]
  | .badParameterFormat => p.otherSubReasons[1]
  | .badParameterValue => subBadParameterValueCode
  | .invalidDeviceType => p.otherSubReasons[2]
  | .invalidDeviceNumber => p.otherSubReasons[3]
  | .incorrectMode => p.otherSubReasons[4]
  | .busy => p.otherSubReasons[5]
  | .failed => p.otherSubReasons[6]
  | .firmwareError => p.otherSubReasons[7]
  | .cannotActivateDevice => p.otherSubReasons[8]

/-- The ten sub-reasons in the document's order (R112). -/
def allSubReasons : List SubReason :=
  [.unknownOrder, .badParameterFormat, .badParameterValue, .invalidDeviceType, .invalidDeviceNumber,
   .incorrectMode, .busy, .failed, .firmwareError, .cannotActivateDevice]

/-- The sub-reason codes as a map. -/
def subReasonTable (p : Params) : List (Byte × SubReason) :=
  allSubReasons.map (fun r => (subReasonCode p r, r))

/-- `STOP_RECOVERY` (R113). -/
def recoveryTable (p : Params) : List (Byte × Recovery) :=
  [(p.stopRecovery[0], .cleared), (p.stopRecovery[1], .persists), (p.stopRecovery[2], .unrecoverable)]

/-- `STOP_CAUSE` (R113). -/
def causeTable (p : Params) : List (Byte × StopCause) :=
  [(p.stopCause[0], .reset), (p.stopCause[1], .endStopHit), (p.stopCause[2], .movementError),
   (p.stopCause[3], .temperatureError), (p.stopCause[4], .deviceFault), (p.stopCause[5], .electricalFault),
   (p.stopCause[6], .firmwareFault), (p.stopCause[7], .userRequested), (p.stopCause[8], .hostTimeout),
   (p.stopCause[9], .other)]

/-- The member with code `v`, or the marker with the raw byte (R293). Where two members share a code, the first
listed answers (log 20). -/
def lookupCode (table : List (Byte × α)) (v : Byte) : Lookup α :=
  match table.lookup v with
  | some a => .known a
  | none => .unrecognized v

/-- The decoded STOPPED payload (R295): what is there is decoded, a missing byte is absent and flags the
mismatch. -/
def decodeStopped (p : Params) : Bytes → StoppedReply
  | [] => ⟨none, none, [], true⟩
  | [r] => ⟨some (lookupCode (recoveryTable p) r), none, [], true⟩
  | r :: c :: text =>
    ⟨some (lookupCode (recoveryTable p) r), some (lookupCode (causeTable p) c), text, false⟩

end Sys2Proof.Machine
end

