-- ==== Sys2Proof/Machine/Crc.lean ====
section
/-! DEFINITION. The CRC-8 function over any table, and the generator of a table (spec/40_crc8.md). -/

namespace Sys2Proof.Machine

/-- `T[i]` (R134). -/
def crcEntry (tab : Vector Byte 256) (i : Byte) : Byte := tab[i.toNat]'i.isLt

/-- One fold, `T[(acc ^ b) & 0xFF]` (R135). -/
def crcFold (tab : Vector Byte 256) (acc b : Byte) : Byte := crcEntry tab (acc ^^^ b)

/-- `crc8(s)`: the fold over all of `s` from the seed (R136). -/
def crc8 (tab : Vector Byte 256) (s : Bytes) : Byte := s.foldl (crcFold tab) crcSeed

/-- One shift of the table generator (R133). -/
def crcShift (poly c : Byte) : Byte :=
  if c.getLsbD 7 then (c <<< 1) ^^^ poly else c <<< 1

/-- The entry the generator of R133 makes for index `i`. -/
def crcGenerate (poly i : Byte) : Byte :=
  (List.range 8).foldl (fun c _ => crcShift poly c) i

end Sys2Proof.Machine
end

