-- ==== Sys2Proof/Machine/Frames.lean ====
section
/-! DEFINITION. Frames: building one from its fields, and the six ordered checks of a response frame
(spec/30_encoding.md R80 to R89; 43_frame_rx.md R188 to R196). -/

namespace Sys2Proof.Machine

/-- The bytes the CRC of a frame covers: length, control, code, parameters (R86). -/
def frameBody (control code : Byte) (params : Bytes) : Bytes :=
  [BitVec.ofNat 8 (params.length + 2), control, code] ++ params

/-- A whole frame: sync, body, CRC (R80 to R86). -/
def buildFrame (tab : Vector Byte 256) (sync control code : Byte) (params : Bytes) : Bytes :=
  sync :: (frameBody control code params ++ [crc8 tab (frameBody control code params)])

/-- The request frame of R81 with sequence value `sq`. -/
def requestFrame (tab : Vector Byte 256) (sq : Nibble) (code : Byte) (params : Bytes) : Bytes :=
  buildFrame tab reqSync (requestControl sq) code params

/-- The response frame of R82. -/
def responseFrame (tab : Vector Byte 256) (debug : Bool) (reserved : BitVec 3) (sq : Nibble) (code : Byte)
    (params : Bytes) : Bytes :=
  buildFrame tab rspSync (responseControl debug reserved sq) code params

/-- The six checks in the document's order; the first that fails decides (R188, R189). -/
def validateFrame (tab : Vector Byte 256) (sq : Nibble) (f : Bytes) : Verdict :=
  if f.length < minFrame then .reject .tooShort
  else if byteAt f 0 ≠ rspSync then .reject .badSync
  else if byteAt f (f.length - 1) ≠ crc8 tab (slice f 1 (f.length - 1)) then .reject .badCrc
  else if byteAt f 1 = 0 ∨ byteAt f 1 = 1 ∨ (byteAt f 1).toNat ≠ f.length - 3 then .reject .badLength
  else if debugFlag (byteAt f 2) then .debug
  else if seqNibble (byteAt f 2) ≠ sq then .reject .badSeq
  else .reply (byteAt f 3) (slice f 4 (f.length - 1))

end Sys2Proof.Machine
end

