-- ==== Sys2Proof/Machine/Blocks.lean ====
section
/-! DEFINITION. The motion-block codec as pure functions of bytes and the four block-type parameters
(spec/44_motion_decode.md, 45_motion_encode.md; R244: it has no state). -/

namespace Sys2Proof.Machine

/-- The operand check of the decode operations: exactly one whole block (R224). -/
def isWholeBlock (b : Bytes) : Bool := 2 ≤ b.length && (byteAt b 0).toNat == b.length

/-- What the block-type byte selects, in the order of R224's pseudocode. -/
def blockKind (p : Params) (t : Byte) : BlockKind :=
  if t = p.btWrapper then .wrapper
  else if t = p.btDelay then .delay
  else if t = p.btBlm then .blm
  else if t = p.btToolhead then .toolhead
  else .unknown

/-! ## Decoding one block -/

/-- A CommandWrapper's body (R226, R227). -/
def decodeWrapper (b : Bytes) : Block :=
  if b.length < 3 then .malformed .lengthMismatch b else .wrapper (byteAt b 2) (slice b 3 b.length)

/-- A Delay (R228). -/
def decodeDelay (b : Bytes) : Block :=
  if b.length ≠ 4 then .malformed .lengthMismatch b
  else .delay (beNat (slice b 2 4)) (beNat (slice b 2 4) * delayScale)

/-- A SetActiveToolhead (R229). -/
def decodeToolhead (b : Bytes) : Block :=
  if b.length ≠ 3 then .malformed .lengthMismatch b else .toolhead (byteAt b 2)

/-- The opaque fallback (R240). -/
def decodeUnknown (b : Bytes) : Block := .unknown (byteAt b 1) b

/-- A mask field's value: the lead byte's bits 6..0, then the second byte where the mask is wide (R231, R232). -/
def maskValue (field : Bytes) : Nat :=
  match field with
  | [] => 0
  | lead :: more => more.foldl (fun acc b => acc * 256 + b.toNat) (leadValue lead)

/-- One step-count field per selected axis, ascending, each tagged with its direction bit (R236). -/
def decodeSteps (width dir : Nat) : List Nat → Bytes → Option (List AxisStep × Bytes)
  | [], rest => some ([], rest)
  | k :: ks, rest =>
    match takeField width rest with
    | none => none
    | some (field, rest) =>
      match decodeSteps width dir ks rest with
      | none => none
      | some (steps, rest) => some (⟨k, beNat field, dir.testBit k⟩ :: steps, rest)

/-- The fields of a BLM body from its first mask byte on, and the bytes left over; `none` where a field would pass
the end of the block (R230 to R236, R238). The two flags are read once: `wideMask` from the selection mask's lead
byte, `wideSteps` from the direction mask's, whose own width is `wideMask`'s (R241). -/
def decodeBlmFields (body : Bytes) : Option (BlmRecord × Bytes) := do
  let wideMask := leadFlag (byteAt body 0)
  let (selField, rest) ← takeField (fieldWidth wideMask) body
  let wideSteps := leadFlag (byteAt rest 0)
  let (dirField, rest) ← takeField (fieldWidth wideMask) rest
  let (pack, rest) ← takeField 1 rest
  let (speeds, rest) ← takeField 2 rest
  let (accel, rest) ← takeField (fieldWidth wideSteps) rest
  let (decel, rest) ← takeField (fieldWidth wideSteps) rest
  let (steps, rest) ←
    decodeSteps (fieldWidth wideSteps) (maskValue dirField) (selectedAxes (maskValue selField)) rest
  some
    (⟨wideMask, wideSteps,
      { sel := maskValue selField
        dir := maskValue dirField
        primary := packPrimary (byteAt pack 0)
        homing := packHoming (byteAt pack 0)
        nominal := (byteAt speeds 0).toNat
        endSpeed := (byteAt speeds 1).toNat
        accel := beNat accel
        decel := beNat decel
        steps := steps }⟩, rest)

/-- A BasicLinearMove (R239): too few bytes is FieldOverrun (R238), bytes left over is LengthMismatch (R237). -/
def decodeBlm (b : Bytes) : Block :=
  match decodeBlmFields (b.drop 2) with
  | none => .malformed .fieldOverrun b
  | some (r, rest) => if rest = [] then .blm r else .malformed .lengthMismatch b

/-- One whole block by its type byte (R224). -/
def decodeBlock (p : Params) (b : Bytes) : Block :=
  match blockKind p (byteAt b 1) with
  | .wrapper => decodeWrapper b
  | .delay => decodeDelay b
  | .blm => decodeBlm b
  | .toolhead => decodeToolhead b
  | .unknown => decodeUnknown b

/-! ## Scanning -/

/-- The scan loop over what is left of the area; every round that goes on uses at least two bytes, so as many rounds
as there are bytes are enough (R221, R223). -/
def scanBlocks (p : Params) : Nat → Bytes → List Block × ScanStatus
  | _, [] => ([], .complete)
  | 0, _ :: _ => ([], .stopped)
  | _ + 1, [x] => ([.malformed .headerTruncated [x]], .stopped)
  | rounds + 1, bl :: y :: more =>
    let rest := bl :: y :: more
    if bl.toNat < 2 then ([.malformed .lengthTooSmall rest], .stopped)
    else if rest.length < bl.toNat then ([.malformed .overrun rest], .stopped)
    else
      let tail := scanBlocks p rounds (rest.drop bl.toNat)
      (decodeBlock p (rest.take bl.toNat) :: tail.1, tail.2)

/-- `MB.SCAN a` (R221). -/
def scanArea (p : Params) (a : Bytes) : List Block × ScanStatus := scanBlocks p a.length a

/-! ## Encoding -/

/-- A CommandWrapper block (R261). -/
def encodeWrapper (p : Params) (order : Byte) (params : Bytes) : Except RefusedWhy Bytes :=
  if 252 < params.length then .error .blockTooLong
  else .ok ([BitVec.ofNat 8 (3 + params.length), p.btWrapper, order] ++ params)

/-- A Delay block (R262). -/
def encodeDelay (p : Params) (ticks : Nat) : Except RefusedWhy Bytes :=
  if 65535 < ticks then .error .fieldRange else .ok ([0x04, p.btDelay] ++ bytesBe 2 ticks)

/-- A SetActiveToolhead block (R263). -/
def encodeToolhead (p : Params) (index : Byte) : Bytes := [0x03, p.btToolhead, index]

/-- A block of any type from raw body bytes (R266). -/
def encodeRaw (typ : Byte) (body : Bytes) : Except RefusedWhy Bytes :=
  if 253 < body.length then .error .blockTooLong
  else .ok ([BitVec.ofNat 8 (body.length + 2), typ] ++ body)

/-- The well-formedness of a BLM record, condition by condition (R264). -/
def blmWellFormed (r : BlmRecord) : Bool :=
  let maskBound := if r.wideMask then 32768 else 128
  let stepBound := if r.wideSteps then 65536 else 256
  r.body.sel < maskBound && r.body.dir < maskBound &&
  r.body.accel < stepBound && r.body.decel < stepBound && r.body.steps.all (fun t => t.count < stepBound) &&
  r.body.primary < 16 && r.body.nominal < 256 && r.body.endSpeed < 256 &&
  r.body.steps.map AxisStep.axis == selectedAxes r.body.sel &&
  r.body.steps.all (fun t => t.direction == r.body.dir.testBit t.axis)

/-- A mask field: the flag in bit 7 of the lead byte over the mask's value (R101, R102, R265). -/
def encodeMask (wide flag : Bool) (v : Nat) : Bytes :=
  let lead := if flag then 128 else 0
  if wide then [BitVec.ofNat 8 (lead + v / 256), BitVec.ofNat 8 v] else [BitVec.ofNat 8 (lead + v)]

/-- The body of a BLM block (R265). -/
def blmBodyBytes (r : BlmRecord) : Bytes :=
  let s := fieldWidth r.wideSteps
  encodeMask r.wideMask r.wideMask r.body.sel ++
  encodeMask r.wideMask r.wideSteps r.body.dir ++
  [BitVec.ofNat 8 ((if r.body.homing then 16 else 0) + r.body.primary), BitVec.ofNat 8 r.body.nominal,
    BitVec.ofNat 8 r.body.endSpeed] ++
  bytesBe s r.body.accel ++ bytesBe s r.body.decel ++
  r.body.steps.flatMap (fun t => bytesBe s t.count)

/-- A BasicLinearMove block (R265). -/
def encodeBlm (p : Params) (r : BlmRecord) : Except RefusedWhy Bytes :=
  if blmWellFormed r then
    .ok ([BitVec.ofNat 8 ((blmBodyBytes r).length + 2), p.btBlm] ++ blmBodyBytes r)
  else .error .illFormedRecord

/-- `MB.PACK blocks` (R267). -/
def packBlocks (blocks : List Bytes) : Except RefusedWhy Bytes :=
  if !blocks.all isWholeBlock then .error .blockOperand
  else if maxParams < blocks.flatten.length then .error .areaTooLong
  else .ok blocks.flatten

end Sys2Proof.Machine
end

