-- ==== Sys2Proof/WellFormed.lean ====
section
/-! DEFINITION. Well-formed parameters and well-formed instructions: what the formats of spec/30_encoding.md can
carry. An operation is well formed whatever its operands, since its own rule says what each operand value does. -/

namespace Sys2Proof

open Sys2Proof.Machine

/-- The relations the spec puts on the parameters: block-type codes pairwise different (R96), catalog codes each with
one entry (46 R290), sub-reason and STOPPED codes pairwise different (R112, R113), `T_LONG > T_SHORT > 0`
(43 R180). -/
def Params.wellFormed (p : Params) : Bool :=
  decide [p.btWrapper, p.btDelay, p.btBlm, p.btToolhead].Nodup &&
  decide ([orderResumeCode, p.orderQueueCommandBlocks, p.orderWriteFirmwareConfiguration] ++
    p.moreOrders.map Prod.fst).Nodup &&
  decide ([replyOkCode, replyGenericApplicationErrorCode, p.replyStopped] ++ p.moreReplies.map Prod.fst).Nodup &&
  decide (subBadParameterValueCode :: p.otherSubReasons.toList).Nodup &&
  decide p.stopRecovery.toList.Nodup && decide p.stopCause.toList.Nodup &&
  decide (0 < p.tShort) && decide (p.tShort < p.tLong)

/-- An instruction its format can carry. -/
def Instr.wellFormed (p : Params) : Instr → Bool
  -- a frame carries at most 253 parameter bytes (R85)
  | .req _ _ params => params.length ≤ maxParams
  | .rsp _ _ _ params => params.length ≤ maxParams
  | .dbg _ _ _ params => params.length ≤ maxParams
  -- a wrapper carries at most 252 (R97)
  | .wrap _ params => params.length ≤ 252
  -- a BLM record fits the widths of its row (R105, 45 R264)
  | .blmNN body => blmWellFormed ⟨false, false, body⟩
  | .blmNW body => blmWellFormed ⟨false, true, body⟩
  | .blmWN body => blmWellFormed ⟨true, false, body⟩
  | .blmWW body => blmWellFormed ⟨true, true, body⟩
  -- an unknown block has a type that is none of the four and at most 253 body bytes (R106, R94)
  | .unknown typ body => blockKind p typ == .unknown && body.length ≤ 253
  -- a STOPPED payload is the parameter area of one frame (R113, R85)
  | .stoppedPayload _ _ reason => reason.length + 2 ≤ maxParams
  | .sessionOpen _ | .sessionClose | .regRead _ | .crcTab _ | .crcStep _ _ | .crcRange _ _ _ => true
  | .seqInit | .seqCurrent | .seqAdvance => true
  | .txEncode _ _ | .txOrder0 _ | .txOrder1 _ _ | .txOrder5 _ _ _ | .txSend => true
  | .rxAssemble | .rxValidate _ | .rxReceive | .xchg => true
  | .mbScan _ | .mbDec _ | .mbDecWrapper _ | .mbDecDelay _ | .mbDecBlm _ | .mbDecToolhead _ | .mbDecUnknown _ => true
  | .mbEncWrapper _ _ | .mbEncDelay _ | .mbEncBlm _ | .mbEncToolhead _ | .mbEncRaw _ _ | .mbPack _ => true
  | .catOrder _ | .catReply _ | .errReason _ | .stoppedDec _ | .beUint _ _ _ | .text _ _ _ => true
  | .ctrlReq _ | .ctrlRsp _ _ _ | .blockHeader _ _ | .delay _ | .toolhead _ => true
  | .orderResume | .orderQueueCommandBlocks | .orderWriteFirmwareConfiguration => true
  | .replyOk | .replyGenericApplicationError | .replyStopped => true
  | .subUnknownOrder | .subBadParameterFormat | .subBadParameterValue | .subInvalidDeviceType => true
  | .subInvalidDeviceNumber | .subIncorrectMode | .subBusy | .subFailed | .subFirmwareError => true
  | .subCannotActivateDevice => true

end Sys2Proof
end

