-- ==== Sys2Proof/Decode.lean ====
section
/-! DEFINITION. The decoder, total on any command and rejecting by name, the encoder after it, and the layout of a
word of spec/opcode_table.json on the command port. The selector byte alone selects the operation, its operands
travel beside it (spec/30_encoding.md R120); the data formats are those of R81 to R113. -/

namespace Sys2Proof

open Sys2Proof.Machine

/-- Why a command is no instruction: a selector that R120 does not list, or bytes that are no word of the format they
are handed over as. -/
inductive DecodeError where
  | noSuchOperation (opsel : Byte)
  | notAWord (format : Format) (bytes : Bytes)
deriving DecidableEq, Repr

/-- The operand wires at zero. -/
def Operands.zero : Operands where
  byte0 := 0
  byte1 := 0
  word := 0
  nat0 := 0
  nat1 := 0
  bytes := []
  blocks := []
  record := ⟨false, false, ⟨0, 0, 0, false, 0, 0, 0, 0, []⟩⟩

/-- The operation a selector selects, with its operands from the wires (R120). -/
def decodeOp (opsel : Byte) (a : Operands) : Except DecodeError Instr :=
  match opsel.toNat with
  | 0x01 => .ok (.sessionOpen a.bytes)
  | 0x02 => .ok .sessionClose
  | 0x03 => .ok (.regRead a.nat0)
  | 0x10 => .ok (.crcTab a.byte0)
  | 0x11 => .ok (.crcStep a.byte0 a.byte1)
  | 0x12 => .ok (.crcRange a.bytes a.nat0 a.nat1)
  | 0x20 => .ok .seqInit
  | 0x21 => .ok .seqCurrent
  | 0x22 => .ok .seqAdvance
  | 0x30 => .ok (.txEncode a.byte0 a.bytes)
  | 0x31 => .ok (.txOrder0 a.byte0)
  | 0x32 => .ok (.txOrder1 a.byte0 a.byte1)
  | 0x33 => .ok (.txOrder5 a.byte0 a.byte1 a.word)
  | 0x34 => .ok .txSend
  | 0x40 => .ok .rxAssemble
  | 0x41 => .ok (.rxValidate a.bytes)
  | 0x42 => .ok .rxReceive
  | 0x43 => .ok .xchg
  | 0x50 => .ok (.mbScan a.bytes)
  | 0x51 => .ok (.mbDec a.bytes)
  | 0x52 => .ok (.mbDecWrapper a.bytes)
  | 0x53 => .ok (.mbDecDelay a.bytes)
  | 0x54 => .ok (.mbDecBlm a.bytes)
  | 0x55 => .ok (.mbDecToolhead a.bytes)
  | 0x56 => .ok (.mbDecUnknown a.bytes)
  | 0x60 => .ok (.mbEncWrapper a.byte0 a.bytes)
  | 0x61 => .ok (.mbEncDelay a.nat0)
  | 0x62 => .ok (.mbEncBlm a.record)
  | 0x63 => .ok (.mbEncToolhead a.byte0)
  | 0x64 => .ok (.mbEncRaw a.byte0 a.bytes)
  | 0x65 => .ok (.mbPack a.blocks)
  | 0x70 => .ok (.catOrder a.byte0)
  | 0x71 => .ok (.catReply a.byte0)
  | 0x72 => .ok (.errReason a.byte0)
  | 0x73 => .ok (.stoppedDec a.bytes)
  | 0x74 => .ok (.beUint a.bytes a.nat0 a.nat1)
  | 0x75 => .ok (.text a.bytes a.nat0 a.nat1)
  | _ => .error (.noSuchOperation opsel)

/-- A frame: at least five bytes, the length byte `n - 3`, the CRC right, the sync byte telling the direction and bit 7
of the control byte a debug frame (R80 to R92). -/
def decodeFrame (p : Params) (f : Bytes) : Option Instr :=
  if f.length < minFrame ∨ (byteAt f 1).toNat ≠ f.length - 3 ∨
      byteAt f (f.length - 1) ≠ crc8 p.crcTab (slice f 1 (f.length - 1)) then none
  else
    let c := byteAt f 2
    let code := byteAt f 3
    let params := slice f 4 (f.length - 1)
    if byteAt f 0 = reqSync then
      if c = requestControl (seqNibble c) then some (.req (seqNibble c) code params) else none
    else if byteAt f 0 = rspSync then
      if debugFlag c then some (.dbg (controlReserved c) (seqNibble c) code params)
      else some (.rsp (controlReserved c) (seqNibble c) code params)
    else none

/-- A block, told by its type byte and, for a BLM, by its two width flags (R94 to R106). -/
def decodeBlockWord (p : Params) (b : Bytes) : Option Instr :=
  if isWholeBlock b then
    match decodeBlock p b with
    | .wrapper order params => some (.wrap order params)
    | .delay ticks _ => some (.delay (BitVec.ofNat 16 ticks))
    | .toolhead index => some (.toolhead index)
    | .blm ⟨false, false, body⟩ => some (.blmNN body)
    | .blm ⟨false, true, body⟩ => some (.blmNW body)
    | .blm ⟨true, false, body⟩ => some (.blmWN body)
    | .blm ⟨true, true, body⟩ => some (.blmWW body)
    | .unknown typ raw => some (.unknown typ (raw.drop 2))
    | .malformed _ _ => none
  else none

/-- The instruction that stands for a sub-reason's row (R112). -/
def subReasonInstr : SubReason → Instr
  | .unknownOrder => .subUnknownOrder
  | .badParameterFormat => .subBadParameterFormat
  | .badParameterValue => .subBadParameterValue
  | .invalidDeviceType => .subInvalidDeviceType
  | .invalidDeviceNumber => .subInvalidDeviceNumber
  | .incorrectMode => .subIncorrectMode
  | .busy => .subBusy
  | .failed => .subFailed
  | .firmwareError => .subFirmwareError
  | .cannotActivateDevice => .subCannotActivateDevice

/-- A word of one of the data formats. -/
def decodeWord (p : Params) (format : Format) (w : Bytes) : Option Instr :=
  match format, w with
  | .frame, w => decodeFrame p w
  | .controlRequest, [c] => if c = requestControl (seqNibble c) then some (.ctrlReq (seqNibble c)) else none
  | .controlResponse, [c] => some (.ctrlRsp (debugFlag c) (controlReserved c) (seqNibble c))
  | .blockHeader, [l, t] => some (.blockHeader l t)
  | .block, w => decodeBlockWord p w
  | .orderCode, [c] =>
    if c = orderResumeCode then some .orderResume
    else if c = p.orderQueueCommandBlocks then some .orderQueueCommandBlocks
    else if c = p.orderWriteFirmwareConfiguration then some .orderWriteFirmwareConfiguration
    else none
  | .replyCode, [c] =>
    if c = replyOkCode then some .replyOk
    else if c = replyGenericApplicationErrorCode then some .replyGenericApplicationError
    else if c = p.replyStopped then some .replyStopped
    else none
  | .subReason, [c] => ((subReasonTable p).lookup c).map subReasonInstr
  | .replyPayload, r :: c :: text => some (.stoppedPayload r c text)
  | _, _ => none

/-- The decoder. -/
def decode (p : Params) : Command → Except DecodeError Instr
  | .op opsel args => decodeOp opsel args
  | .word format w =>
    match decodeWord p format w with
    | some i => .ok i
    | none => .error (.notAWord format w)

/-- The word of a block encoder, empty where the encoder refuses (an instruction that is not well formed). -/
def blockWord (r : Except RefusedWhy Bytes) : Command :=
  match r with
  | .ok b => .word .block b
  | .error _ => .word .block []

/-- The encoder: an operation's selector with its operands on the wires and every other wire zero (R120), a data
format's word from its layout (R81 to R113). -/
def encode (p : Params) : Instr → Command
  | .sessionOpen d => .op 0x01 { Operands.zero with bytes := d }
  | .sessionClose => .op 0x02 Operands.zero
  | .regRead n => .op 0x03 { Operands.zero with nat0 := n }
  | .crcTab i => .op 0x10 { Operands.zero with byte0 := i }
  | .crcStep acc b => .op 0x11 { Operands.zero with byte0 := acc, byte1 := b }
  | .crcRange buf offset length => .op 0x12 { Operands.zero with bytes := buf, nat0 := offset, nat1 := length }
  | .seqInit => .op 0x20 Operands.zero
  | .seqCurrent => .op 0x21 Operands.zero
  | .seqAdvance => .op 0x22 Operands.zero
  | .txEncode code params => .op 0x30 { Operands.zero with byte0 := code, bytes := params }
  | .txOrder0 code => .op 0x31 { Operands.zero with byte0 := code }
  | .txOrder1 code b => .op 0x32 { Operands.zero with byte0 := code, byte1 := b }
  | .txOrder5 code b v => .op 0x33 { Operands.zero with byte0 := code, byte1 := b, word := v }
  | .txSend => .op 0x34 Operands.zero
  | .rxAssemble => .op 0x40 Operands.zero
  | .rxValidate f => .op 0x41 { Operands.zero with bytes := f }
  | .rxReceive => .op 0x42 Operands.zero
  | .xchg => .op 0x43 Operands.zero
  | .mbScan a => .op 0x50 { Operands.zero with bytes := a }
  | .mbDec b => .op 0x51 { Operands.zero with bytes := b }
  | .mbDecWrapper b => .op 0x52 { Operands.zero with bytes := b }
  | .mbDecDelay b => .op 0x53 { Operands.zero with bytes := b }
  | .mbDecBlm b => .op 0x54 { Operands.zero with bytes := b }
  | .mbDecToolhead b => .op 0x55 { Operands.zero with bytes := b }
  | .mbDecUnknown b => .op 0x56 { Operands.zero with bytes := b }
  | .mbEncWrapper order params => .op 0x60 { Operands.zero with byte0 := order, bytes := params }
  | .mbEncDelay ticks => .op 0x61 { Operands.zero with nat0 := ticks }
  | .mbEncBlm r => .op 0x62 { Operands.zero with record := r }
  | .mbEncToolhead index => .op 0x63 { Operands.zero with byte0 := index }
  | .mbEncRaw typ body => .op 0x64 { Operands.zero with byte0 := typ, bytes := body }
  | .mbPack blocks => .op 0x65 { Operands.zero with blocks := blocks }
  | .catOrder code => .op 0x70 { Operands.zero with byte0 := code }
  | .catReply code => .op 0x71 { Operands.zero with byte0 := code }
  | .errReason v => .op 0x72 { Operands.zero with byte0 := v }
  | .stoppedDec params => .op 0x73 { Operands.zero with bytes := params }
  | .beUint buf off cnt => .op 0x74 { Operands.zero with bytes := buf, nat0 := off, nat1 := cnt }
  | .text buf off cnt => .op 0x75 { Operands.zero with bytes := buf, nat0 := off, nat1 := cnt }
  | .req sq code params => .word .frame (requestFrame p.crcTab sq code params)
  | .rsp reserved sq code params => .word .frame (responseFrame p.crcTab false reserved sq code params)
  | .dbg reserved sq code params => .word .frame (responseFrame p.crcTab true reserved sq code params)
  | .ctrlReq sq => .word .controlRequest [requestControl sq]
  | .ctrlRsp debug reserved sq => .word .controlResponse [responseControl debug reserved sq]
  | .blockHeader l t => .word .blockHeader [l, t]
  | .wrap order params => blockWord (encodeWrapper p order params)
  | .delay ticks => blockWord (encodeDelay p ticks.toNat)
  | .toolhead index => .word .block (encodeToolhead p index)
  | .blmNN body => blockWord (encodeBlm p ⟨false, false, body⟩)
  | .blmNW body => blockWord (encodeBlm p ⟨false, true, body⟩)
  | .blmWN body => blockWord (encodeBlm p ⟨true, false, body⟩)
  | .blmWW body => blockWord (encodeBlm p ⟨true, true, body⟩)
  | .unknown typ body => blockWord (encodeRaw typ body)
  | .orderResume => .word .orderCode [orderResumeCode]
  | .orderQueueCommandBlocks => .word .orderCode [p.orderQueueCommandBlocks]
  | .orderWriteFirmwareConfiguration => .word .orderCode [p.orderWriteFirmwareConfiguration]
  | .replyOk => .word .replyCode [replyOkCode]
  | .replyGenericApplicationError => .word .replyCode [replyGenericApplicationErrorCode]
  | .replyStopped => .word .replyCode [p.replyStopped]
  | .subUnknownOrder => .word .subReason [subReasonCode p .unknownOrder]
  | .subBadParameterFormat => .word .subReason [subReasonCode p .badParameterFormat]
  | .subBadParameterValue => .word .subReason [subReasonCode p .badParameterValue]
  | .subInvalidDeviceType => .word .subReason [subReasonCode p .invalidDeviceType]
  | .subInvalidDeviceNumber => .word .subReason [subReasonCode p .invalidDeviceNumber]
  | .subIncorrectMode => .word .subReason [subReasonCode p .incorrectMode]
  | .subBusy => .word .subReason [subReasonCode p .busy]
  | .subFailed => .word .subReason [subReasonCode p .failed]
  | .subFirmwareError => .word .subReason [subReasonCode p .firmwareError]
  | .subCannotActivateDevice => .word .subReason [subReasonCode p .cannotActivateDevice]
  | .stoppedPayload r c text => .word .replyPayload (r :: c :: text)

/-- Where a word of spec/opcode_table.json goes on the command port (log 5). The table's OPSEL rows are eight bits: a listed
selector is an operation with every operand wire zero. Another eight-bit word is the data word that has it, where a
format fixes one under the default parameters; else it stays a selector, which the decoder refuses. A wider row is a block, which the
table numbers as one big-endian number, first byte uppermost. -/
def tableCommand (nbits w : Nat) : Command :=
  if 8 < nbits then .word .block (bytesBe (nbits / 8) w)
  else
    let b := BitVec.ofNat 8 w
    match decodeOp b Operands.zero with
    | .ok _ => .op b Operands.zero
    | .error _ =>
      if b = orderResumeCode then .word .orderCode [b]
      else if ((subReasonTable defaultParams).lookup b).isSome then .word .subReason [b]
      else if b = requestControl (seqNibble b) then .word .controlRequest [b]
      else .op b Operands.zero

/-- The instruction the decoder reads from a row's word. -/
def decodeTableWord (nbits w : Nat) : Option Instr :=
  (decode defaultParams (tableCommand nbits w)).toOption

end Sys2Proof
end

