-- ==== Sys2Proof/Machine/State.lean ====
section
/-! DEFINITION. The state of the engine as plain data, the ways a step can stop, and the state after reset
(spec/10_state.md). -/

namespace Sys2Proof.Machine

/-- A byte space: index and byte of every index that holds a value, indices strictly rising (log 11). -/
abbrev Memory := List Host.Cell

/-- `SESSION` (10_state.md R22). -/
inductive Session where
  | closed
  | opened
  | failed
deriving DecidableEq, Repr

/-- `RXSTAT`: the codes of 60_exceptions.md R320. -/
inductive RxStat where
  | none
  | accepted
  | debug
  | rejected (r : RejectReason)
deriving DecidableEq, Repr

/-- An answer to `TrRead` (00_scope.md R15). -/
inductive ReadAnswer where
  | byte (b : Byte)
  | timeout
  | error
deriving DecidableEq, Repr

/-- A call made to the Transport (20_memory.md R58): the timeout a read passes, the descriptor an open passes. -/
inductive TrCall where
  | openLine (descriptor : Bytes)
  | sendBytes
  | readByte (ticks : Nat)
  | closeLine
deriving DecidableEq, Repr

/-- The TRANSPORT oracle as plain data: what it will answer, what it was given (00_scope.md R7, 10_state.md R34;
log 6, log 7, log 8, log 9). -/
structure Line where
  /-- LINE-IN: the answers of the next `TrRead` calls, oldest first. -/
  lineIn : List ReadAnswer
  /-- What repeats for ever once `lineIn` is used up; empty: the line is silent. -/
  lineInCycle : List ReadAnswer
  /-- The answers of the next `TrSend` calls. -/
  sendAnswers : List IoAnswer
  /-- The answers of the next `TrOpen` calls. -/
  openAnswers : List IoAnswer
  /-- LINE-OUT: every byte `TrSend` was given, oldest first. -/
  lineOut : Bytes
  /-- The calls made, newest first. -/
  calls : List TrCall
  /-- How many free answers have been drawn. -/
  drawn : Nat
deriving DecidableEq, Repr

/-- The state: the nine pieces of 10_state.md R20, the parameters (never written), the Transport, and the HOST's
side of the command port (log 2, log 13). -/
structure State where
  params : Params
  seq : Nibble
  rxBuf : Memory
  rxPos : Nat
  rxStat : RxStat
  dbgCnt : Nat
  txBuf : Memory
  txLen : Nat
  session : Session
  busy : Bool
  line : Line
  program : List Command
  outcome : Option OpOutcome
deriving DecidableEq, Repr

/-- The ways a step stops with a fault. -/
inductive Fault where
  /-- A read of `TXBUF[index]`, which holds no value (10_state.md R38, 93 U12). Raised by the read of the encoded
  frame in TX.SEND and XCHG, in states no run reaches; safe. -/
  | txBufNoValue (index : Nat)
  /-- A read of `TXBUF` at an index the space does not have (20_memory.md R53). Raised as `txBufNoValue` is; safe. -/
  | txBufOutside (index : Nat)
  /-- A receive that an endless flood of debug frames keeps from ending (60_exceptions.md R333, 93 U7). Raised by
  RX.RECEIVE and XCHG; safe (log 10). -/
  | stuck
deriving DecidableEq, Repr

/-- The ways an instruction can have no meaning in the model. -/
inductive Refusal where
  /-- An instruction of the table that has no meaning yet. Raised by `exec` alone; safe. No arm raises it. -/
  | notModelled (mnemonic : String)
deriving DecidableEq, Repr

/-- What a step answers. -/
abbrev StepResult := Host.Outcome State Fault Refusal

/-- The Transport at reset: nothing on either stream, nothing scheduled (95 section 7; log 16). -/
def Line.silent : Line where
  lineIn := []
  lineInCycle := []
  sendAnswers := []
  openAnswers := []
  lineOut := []
  calls := []
  drawn := 0

/-- The state after reset (10_state.md R37, 70_reset_and_hazards.md R360); the HOST's side is the model's (log 16). -/
def State.reset : State where
  params := defaultParams
  seq := 0
  rxBuf := []
  rxPos := 0
  rxStat := .none
  dbgCnt := 0
  txBuf := []
  txLen := 0
  session := .closed
  busy := false
  line := Line.silent
  program := []
  outcome := none

end Sys2Proof.Machine
end

