-- ==== Sys2Proof/Machine/Ops.lean ====
section
/-! DEFINITION. The shared operations over the byte spaces, the registers and the Transport, and the ways an operation
ends (spec/00_scope.md R14 to R16). -/

namespace Sys2Proof.Machine

/-! ## Byte spaces -/

/-- What an index that the memory does not list reads as: no value (10_state.md R38; log 11). -/
def Memory.unlisted : Option Byte := none

/-- The value at an index. -/
def Memory.read : Memory → Nat → Option Byte
  | [], _ => Memory.unlisted
  | (k, v) :: rest, a => if k = a then some v else Memory.read rest a

/-- One byte stored, the indices kept strictly rising. -/
def Memory.write : Memory → Nat → Byte → Memory
  | [], a, b => [(a, b)]
  | (k, v) :: rest, a, b =>
    if a < k then (a, b) :: (k, v) :: rest
    else if a = k then (a, b) :: rest
    else (k, v) :: Memory.write rest a b

/-- `MemWrite(SPACE, a, n, s)` (R14). -/
def Memory.writeBytes (m : Memory) (a : Nat) : Bytes → Memory
  | [] => m
  | b :: bs => Memory.writeBytes (m.write a b) (a + 1) bs

/-- The canonical form: indices strictly rising. No entry can equal what an unlisted index reads as, which is no
value. -/
def Memory.wf : Memory → Bool
  | [] => true
  | [_] => true
  | (a, _) :: (b, w) :: rest => a < b && Memory.wf ((b, w) :: rest)

/-- The bytes that hold a value, in index order. -/
def Memory.bytes (m : Memory) : Bytes := m.map Prod.snd

/-- One byte of `TXBUF`; an index outside the space and an index without a value fault (20_memory.md R53,
10_state.md R38). -/
def readTxByte (s : State) (a : Nat) : Except Fault Byte :=
  if txBufCap ≤ a then .error (.txBufOutside a)
  else
    match s.txBuf.read a with
    | none => .error (.txBufNoValue a)
    | some b => .ok b

/-- `MemRead(TXBUF, a, n)` (R14). -/
def readTxBytes (s : State) (a : Nat) : Nat → Except Fault Bytes
  | 0 => .ok []
  | n + 1 =>
    match readTxByte s a with
    | .error e => .error e
    | .ok b =>
      match readTxBytes s (a + 1) n with
      | .error e => .error e
      | .ok bs => .ok (b :: bs)

/-! ## Registers -/

/-- The number `SESSION` reads as (10_state.md R36). -/
def Session.code : Session → Nat
  | .closed => 0
  | .opened => 1
  | .failed => 2

/-- The code of a rejection (60_exceptions.md R320). -/
def RejectReason.code : RejectReason → Byte
  | .tooShort => 0x11
  | .badSync => 0x12
  | .badCrc => 0x13
  | .badLength => 0x14
  | .badSeq => 0x15
  | .debugLimit => 0x16

/-- The code `RXSTAT` reads as (R320). -/
def RxStat.code : RxStat → Byte
  | .none => 0x00
  | .accepted => 0x01
  | .debug => 0x02
  | .rejected r => r.code

/-- The register port (10_state.md R36): register `n`, zero-extended, absent beyond 6. -/
def readRegister (s : State) (n : Nat) : Option Nat :=
  match n with
  | 0 => some s.seq.toNat
  | 1 => some s.rxStat.code.toNat
  | 2 => some s.rxPos
  | 3 => some s.dbgCnt
  | 4 => some s.txLen
  | 5 => some s.session.code
  | 6 => some s.busy.toNat
  | _ => none

/-- A received byte stored at `RXBUF[RXPOS]`, and `RXPOS` stepped (43_frame_rx.md R183). -/
def storeRx (s : State) (b : Byte) : State :=
  { s with rxBuf := s.rxBuf.write s.rxPos b, rxPos := s.rxPos + 1 }

/-- The start of an assembly: `RXPOS <- 0`, so that no byte of `RXBUF` holds a value (R183, 10_state.md R38). -/
def clearRx (s : State) : State := { s with rxBuf := [], rxPos := 0 }

/-- A frame stored at `TXBUF[0..)` and its length in `TXLEN`; what lay beyond holds no value
(42_frame_tx.md R161, 10_state.md R38). -/
def storeTx (s : State) (f : Bytes) : State :=
  { s with txBuf := Memory.writeBytes [] 0 f, txLen := f.length }

/-- Every register at its reset value and `SESSION` open (47_session.md R312). -/
def openSession (s : State) : State :=
  { s with
    seq := 0, busy := false, rxPos := 0, rxBuf := [], rxStat := .none, dbgCnt := 0, txLen := 0, txBuf := [],
    session := .opened }

/-! ## The Transport (00_scope.md R15, 20_memory.md R58) -/

/-- `TrRead(t)`: the next scheduled answer, then the repeating ones, then silence (log 6). -/
def trRead (ticks : Nat) (s : State) : ReadAnswer × State :=
  let l := { s.line with calls := .readByte ticks :: s.line.calls }
  match l.lineIn with
  | a :: more => (a, { s with line := { l with lineIn := more } })
  | [] =>
    match l.lineInCycle with
    | a :: more => (a, { s with line := { l with lineIn := more } })
    | [] => (.timeout, { s with line := l })

/-- `TrSend(f)`: LINE-OUT gains the bytes; the answer is the next scheduled one or a free value (log 7, log 8). -/
def trSend (f : Bytes) (s : State) : IoAnswer × State :=
  let l := { s.line with lineOut := s.line.lineOut ++ f, calls := .sendBytes :: s.line.calls }
  match l.sendAnswers with
  | a :: more => (a, { s with line := { l with sendAnswers := more } })
  | [] => (Config.freeSendAnswer l.drawn, { s with line := { l with drawn := l.drawn + 1 } })

/-- `TrOpen(descriptor)`, the descriptor passed on as it is (47_session.md R312; log 7). -/
def trOpen (descriptor : Bytes) (s : State) : IoAnswer × State :=
  let l := { s.line with calls := .openLine descriptor :: s.line.calls }
  match l.openAnswers with
  | a :: more => (a, { s with line := { l with openAnswers := more } })
  | [] => (Config.freeOpenAnswer l.drawn, { s with line := { l with drawn := l.drawn + 1 } })

/-- `TrClose()`, which has no answer. -/
def trClose (s : State) : State :=
  { s with line := { s.line with calls := .closeLine :: s.line.calls } }

/-! ## The command port (47_session.md R316; log 2) -/

/-- The command at the port has been taken; `rest` is what the HOST issues after it. -/
def takeCommand (s : State) (rest : List Command) : State := { s with program := rest }

/-- A command put at the front of what the HOST issues. -/
def issueCommand (s : State) (c : Command) : State := { s with program := c :: s.program }

/-! ## How an operation ends (00_scope.md R8, R16) -/

/-- The operation has ended with an outcome, which the HOST receives (47_session.md R316). -/
def finish (s : State) (o : OpOutcome) : State := { s with outcome := some o }

/-- The operation ends with an outcome. -/
def done (s : State) (o : OpOutcome) : StepResult := .next (finish s o)

/-- The operation ends `Ok`. -/
def succeed (s : State) (v : Value) : StepResult := done s (.ok v)

/-- The operation ends `Refused(why)`: nothing else changes (47_session.md R317; log 1). -/
def refuse (s : State) (why : RefusedWhy) : StepResult := done s (.refused why)

/-- The operation ends with what an encoder answers. -/
def finishBytes (s : State) (r : Except RefusedWhy Bytes) : StepResult :=
  match r with
  | .ok b => succeed s (.bytes b)
  | .error why => refuse s why

/-! The document's error taxonomy takes the place of exceptions: nothing is saved, no mode changes, control goes
nowhere, and there is no return (60_exceptions.md R324, R326). -/

/-- What a transport failure does: the session has failed and nothing is outstanding (R327; log 19). -/
def failTransport (s : State) : State := { s with session := .failed, busy := false }

/-- What a rejection does to `RXSTAT` (R324). -/
def rejectWith (s : State) (r : RejectReason) : State := { s with rxStat := .rejected r }

/-- The exchange is over: fully read, rejected or timed out (10_state.md R23). -/
def endExchange (s : State) : State := { s with busy := false }

end Sys2Proof.Machine
end

