-- ==== Sys2Proof/Machine/CrcUnit.lean ====
section
/-! DEFINITION. The operations of the CRC-8 engine (spec/40_crc8.md). -/

namespace Sys2Proof.Machine

/-- `CRC8.TAB` (R134). -/
def execCrcTab (i : Byte) (s : State) : StepResult := succeed s (.byte (crcEntry s.params.crcTab i))

/-- `CRC8.STEP` (R135). -/
def execCrcStep (acc b : Byte) (s : State) : StepResult := succeed s (.byte (crcFold s.params.crcTab acc b))

/-- `CRC8.RANGE` (R136). -/
def execCrcRange (buf : Bytes) (offset length : Nat) (s : State) : StepResult :=
  if buf.length < offset + length then refuse s .crcRange
  else succeed s (.byte (crc8 s.params.crcTab (slice buf offset (offset + length))))

end Sys2Proof.Machine
end

