-- ==== Sys2Proof/Machine/CatUnit.lean ====
section
/-! DEFINITION. The catalog decoders and the value helpers (spec/46_catalog_helpers.md). -/

namespace Sys2Proof.Machine

/-- An order-code lookup (R291). -/
def catalogOrder (code : Byte) (s : State) : StepResult :=
  succeed s (.order (lookupCode (orderCatalog s.params) code))

/-- A reply-code lookup (R292). -/
def catalogReply (code : Byte) (s : State) : StepResult :=
  succeed s (.replyEntry (lookupCode (replyCatalog s.params) code))

/-- A sub-reason lookup (R294). -/
def reasonOf (v : Byte) (s : State) : StepResult :=
  succeed s (.reason (lookupCode (subReasonTable s.params) v))

/-- `CAT.ORDER` (R291). -/
def execCatOrder (code : Byte) (s : State) : StepResult := catalogOrder code s

/-- `CAT.REPLY` (R292). -/
def execCatReply (code : Byte) (s : State) : StepResult := catalogReply code s

/-- `ERR.REASON` (R294). -/
def execErrReason (v : Byte) (s : State) : StepResult := reasonOf v s

/-- `STOPPED.DEC` (R295). -/
def execStoppedDec (params : Bytes) (s : State) : StepResult :=
  succeed s (.stopped (decodeStopped s.params params))

/-- `BE.UINT` (R305): the clamped bytes as a big-endian natural number (log 17). -/
def execBeUint (buf : Bytes) (off cnt : Nat) (s : State) : StepResult :=
  let k := clampCount buf.length off cnt
  succeed s (.uint (beNat (slice buf off (off + k))) (mismatchFlag k cnt))

/-- `TEXT` (R306): the clamped bytes. -/
def execText (buf : Bytes) (off cnt : Nat) (s : State) : StepResult :=
  let k := clampCount buf.length off cnt
  succeed s (.text (slice buf off (off + k)) (mismatchFlag k cnt))

end Sys2Proof.Machine
end

