-- ==== Sys2Proof/Machine/MotionUnit.lean ====
section
/-! DEFINITION. The operations of the motion-block codec (spec/44_motion_decode.md, 45_motion_encode.md). None reads or
writes a register, a buffer or the Transport (R244); the decoded or encoded bytes go to the HOST. -/

namespace Sys2Proof.Machine

/-- `MB.SCAN` (44 R221). -/
def execMbScan (a : Bytes) (s : State) : StepResult :=
  succeed s (.blocks (scanArea s.params a).1 (scanArea s.params a).2)

/-- A decode operation on one whole block (44 R224: the five per-type operations make the same operand check). -/
def decodeOne (dec : Bytes → Block) (b : Bytes) (s : State) : StepResult :=
  if isWholeBlock b then succeed s (.block (dec b)) else refuse s .blockOperand

/-- `MB.DEC` (44 R224). -/
def execMbDec (b : Bytes) (s : State) : StepResult := decodeOne (decodeBlock s.params) b s

/-- `MB.DEC.WRAPPER` (44 R226). -/
def execMbDecWrapper (b : Bytes) (s : State) : StepResult := decodeOne decodeWrapper b s

/-- `MB.DEC.DELAY` (44 R228). -/
def execMbDecDelay (b : Bytes) (s : State) : StepResult := decodeOne decodeDelay b s

/-- `MB.DEC.BLM` (44 R239). -/
def execMbDecBlm (b : Bytes) (s : State) : StepResult := decodeOne decodeBlm b s

/-- `MB.DEC.TOOLHEAD` (44 R229). -/
def execMbDecToolhead (b : Bytes) (s : State) : StepResult := decodeOne decodeToolhead b s

/-- `MB.DEC.UNKNOWN` (44 R240). -/
def execMbDecUnknown (b : Bytes) (s : State) : StepResult := decodeOne decodeUnknown b s

/-- `MB.ENC.WRAPPER` (45 R261). -/
def execMbEncWrapper (order : Byte) (params : Bytes) (s : State) : StepResult :=
  finishBytes s (encodeWrapper s.params order params)

/-- `MB.ENC.DELAY` (45 R262). -/
def execMbEncDelay (ticks : Nat) (s : State) : StepResult := finishBytes s (encodeDelay s.params ticks)

/-- `MB.ENC.BLM` (45 R265). -/
def execMbEncBlm (r : BlmRecord) (s : State) : StepResult := finishBytes s (encodeBlm s.params r)

/-- `MB.ENC.TOOLHEAD` (45 R263). -/
def execMbEncToolhead (index : Byte) (s : State) : StepResult := succeed s (.bytes (encodeToolhead s.params index))

/-- `MB.ENC.RAW` (45 R266). -/
def execMbEncRaw (typ : Byte) (body : Bytes) (s : State) : StepResult := finishBytes s (encodeRaw typ body)

/-- `MB.PACK` (45 R267). -/
def execMbPack (blocks : List Bytes) (s : State) : StepResult := finishBytes s (packBlocks blocks)

end Sys2Proof.Machine
end

