-- ==== Sys2Proof/Machine/TxUnit.lean ====
section
/-! DEFINITION. The request-frame encoder (spec/42_frame_tx.md). -/

namespace Sys2Proof.Machine

/-- The encode procedure the four encode operations share (R161, R163). -/
def encodeRequest (code : Byte) (params : Bytes) (s : State) : StepResult :=
  if maxParams < params.length then refuse s .txTooLong
  else
    let f := requestFrame s.params.crcTab s.seq code params
    succeed (storeTx s f) (.bytes f)

/-- `TX.ENCODE` (R161). -/
def execTxEncode (code : Byte) (params : Bytes) (s : State) : StepResult := encodeRequest code params s

/-- `TX.ORDER0` (R164). -/
def execTxOrder0 (code : Byte) (s : State) : StepResult := encodeRequest code [] s

/-- `TX.ORDER1` (R165). -/
def execTxOrder1 (code b : Byte) (s : State) : StepResult := encodeRequest code [b] s

/-- `TX.ORDER5` (R166). -/
def execTxOrder5 (code b : Byte) (v : BitVec 32) (s : State) : StepResult :=
  encodeRequest code (b :: bytesBe 4 v.toNat) s

/-- The send procedure (R167): the three refusals in order, then the encoded frame to the Transport. On `Ok` the request
is outstanding and the operation goes on as `next` says. -/
def sendRequest (s : State) (next : State → StepResult) : StepResult :=
  if s.session ≠ .opened then refuse s .noSession
  else if s.busy then refuse s .busy
  else if s.txLen = 0 then refuse s .nothingEncoded
  else
    match readTxBytes s 0 s.txLen with
    | .error e => .fault e
    | .ok f =>
      match trSend f s with
      | (.error, s) => done (failTransport s) .transportError
      | (.ok, s) => next { s with busy := true }

/-- `TX.SEND` (R167). -/
def execTxSend (s : State) : StepResult := sendRequest s (fun s => succeed s .unit)

end Sys2Proof.Machine
end

