-- ==== Sys2Proof/Machine/RxUnit.lean ====
section
/-! DEFINITION. The frame synchronizer and validator (spec/43_frame_rx.md). -/

namespace Sys2Proof.Machine

/-- How an assembly ended. -/
inductive AssembleEnd where
  /-- A candidate frame, complete, truncated or absent, in `RXBUF[0..RXPOS)`. -/
  | candidate
  /-- The first byte was not the sync byte (R184). -/
  | badSync
  /-- The Transport answered `Error` (R183). -/
  | failed
deriving DecidableEq, Repr

/-- The bytes after the length byte: `wanted` more, each with the short timeout (R183, R185, R186). -/
def assembleBody : Nat → State → AssembleEnd × State
  | 0, s => (.candidate, s)
  | wanted + 1, s =>
    match trRead s.params.tShort s with
    | (.error, s) => (.failed, failTransport s)
    | (.timeout, s) => (.candidate, s)
    | (.byte b, s) => assembleBody wanted (storeRx s b)

/-- The length byte, then the `L + 1` bytes that make the candidate `L + 3` bytes long (R183, R185). -/
def assembleLength (s : State) : AssembleEnd × State :=
  match trRead s.params.tShort s with
  | (.error, s) => (.failed, failTransport s)
  | (.timeout, s) => (.candidate, s)
  | (.byte l, s) => assembleBody (l.toNat + 1) (storeRx s l)

/-- Byte-stream assembly (R183): the first byte with the long timeout, and only 0x42 goes on (R184). -/
def assemble (s : State) : AssembleEnd × State :=
  match trRead s.params.tLong (clearRx s) with
  | (.error, s) => (.failed, failTransport s)
  | (.timeout, s) => (.candidate, s)
  | (.byte b, s) =>
    if b = rspSync then assembleLength (storeRx s b) else (.badSync, rejectWith (storeRx s b) .badSync)

/-- The candidate frame an assembly left: `RXBUF[0..RXPOS)`. -/
def candidate (s : State) : Bytes := s.rxBuf.bytes

/-- `RX.ASSEMBLE` (R183). -/
def execRxAssemble (s : State) : StepResult :=
  if s.session ≠ .opened then refuse s .noSession
  else
    match assemble s with
    | (.candidate, s) => succeed s (.bytes (candidate s))
    | (.badSync, s) => done s (.noFrame .badSync)
    | (.failed, s) => done s .transportError

/-- What validation records in `RXSTAT` (R189). -/
def Verdict.rxStat : Verdict → RxStat
  | .reply _ _ => .accepted
  | .debug => .debug
  | .reject r => .rejected r

/-- What validation answers (R189). -/
def Verdict.outcome : Verdict → OpOutcome
  | .reply code params => .ok (.reply code params)
  | .debug => .ok .debug
  | .reject r => .noFrame r

/-- The decode contract on one candidate, `SEQ` as it stands (R189, R195). -/
def validate (s : State) (f : Bytes) : Verdict := validateFrame s.params.crcTab s.seq f

/-- The decode contract as an operation: `RXSTAT` is written, nothing else (R189). -/
def validateOp (f : Bytes) (s : State) : StepResult :=
  done { s with rxStat := (validate s f).rxStat } (validate s f).outcome

/-- `RX.VALIDATE` (R189). -/
def execRxValidate (f : Bytes) (s : State) : StepResult := validateOp f s

/-- Whether `DEBUG_SKIP_LIMIT` has been passed (R197, 60_exceptions.md R332). -/
def debugLimitPassed (s : State) : Bool :=
  match s.params.debugSkipLimit with
  | none => false
  | some k => k < s.dbgCnt

/-- The receive loop (R197), bounded by `rounds`; a loop that has not ended by then is stuck (60_exceptions.md
R333; log 10). The DEBUG that validation records of a frame that is skipped is not kept: it is never what a receive
leaves in `RXSTAT` (R320), which a transport failure leaves at its value before the operation (R327; log 12). -/
def receiveLoop : Nat → State → StepResult
  | 0, _ => .fault .stuck
  | rounds + 1, s =>
    match assemble s with
    | (.failed, s) => done s .transportError
    | (.badSync, s) => done (endExchange s) (.noFrame .badSync)
    | (.candidate, s) =>
      let v := validate s (candidate s)
      match v with
      | .reply _ _ => done (endExchange { s with rxStat := v.rxStat }) v.outcome
      | .reject r => done (endExchange (rejectWith s r)) v.outcome
      | .debug =>
        let s := { s with dbgCnt := s.dbgCnt + 1 }
        if debugLimitPassed s then done (endExchange (rejectWith s .debugLimit)) (.noFrame .debugLimit)
        else receiveLoop rounds s

/-- Rounds after which a receive that has not ended never ends: each skipped frame uses up at least five answers, so
the scheduled answers last fewer rounds than there are answers; after that the line repeats itself within as many
rounds as the cycle has answers, and only a bound on `DBGCNT` can still end the loop (log 10). -/
def receiveRounds (s : State) : Nat :=
  s.line.lineIn.length + s.line.lineInCycle.length + s.params.debugSkipLimit.getD 0 + 3

/-- The receive procedure (R197). -/
def receive (s : State) : StepResult :=
  if s.session ≠ .opened then refuse s .noSession
  else receiveLoop (receiveRounds s) { s with dbgCnt := 0 }

/-- `RX.RECEIVE` (R197). -/
def execRxReceive (s : State) : StepResult := receive s

/-- `XCHG` (R198): the send, then, if it ended `Ok`, the receive. -/
def execXchg (s : State) : StepResult := sendRequest s receive

end Sys2Proof.Machine
end

