-- ==== Sys2Proof/Machine/FormatUnit.lean ====
section
/-! DEFINITION. The data-format rows of spec/opcode_table.json: each word handed to the unit whose rule decodes it
(log 4). A frame goes through the six checks of RX.VALIDATE, a block through MB.DEC, a code through its lookup; a
control byte and a block header are taken apart into their fields. -/

namespace Sys2Proof.Machine

/-! ## Frames (30_encoding.md R81, R82, R92) -/

/-- REQ: a request frame handed to the validator is a bad sync like any other (R91, 43 R191). -/
def execReq (sq : Nibble) (code : Byte) (params : Bytes) (s : State) : StepResult :=
  validateOp (requestFrame s.params.crcTab sq code params) s

/-- RSP: an ordinary response, accepted when its sequence nibble is `SEQ` (43 R195, R196). -/
def execRsp (reserved : BitVec 3) (sq : Nibble) (code : Byte) (params : Bytes) (s : State) : StepResult :=
  validateOp (responseFrame s.params.crcTab false reserved sq code params) s

/-- DBG: a debug frame, whatever its sequence nibble (43 R194, R201). -/
def execDbg (reserved : BitVec 3) (sq : Nibble) (code : Byte) (params : Bytes) (s : State) : StepResult :=
  validateOp (responseFrame s.params.crcTab true reserved sq code params) s

/-! ## Control bytes (R87, R88) -/

/-- CTRL.REQ: the sequence number, the debug flag being response only (R87). -/
def execCtrlReq (sq : Nibble) (s : State) : StepResult :=
  succeed s (.control (debugFlag (requestControl sq)) (seqNibble (requestControl sq)))

/-- CTRL.RSP: the debug flag and the sequence number; the reserved bits are ignored (R88, R107). -/
def execCtrlRsp (debug : Bool) (reserved : BitVec 3) (sq : Nibble) (s : State) : StepResult :=
  succeed s (.control (debugFlag (responseControl debug reserved sq)) (seqNibble (responseControl debug reserved sq)))

/-! ## Motion blocks (R94 to R106) -/

/-- BLOCK.HEADER: the length and what the type byte selects; a length of 0 or 1 does not cover its own header
(R94, 44 R223). -/
def execBlockHeader (blockLength blockType : Byte) (s : State) : StepResult :=
  if blockLength.toNat < 2 then succeed s (.block (.malformed .lengthTooSmall [blockLength, blockType]))
  else succeed s (.header blockLength.toNat (blockKind s.params blockType))

/-- The word an encoder makes, handed to MB.DEC. -/
def decodeEncoded (r : Except RefusedWhy Bytes) (s : State) : StepResult :=
  match r with
  | .ok b => decodeOne (decodeBlock s.params) b s
  | .error why => refuse s why

/-- WRAP (R97). -/
def execWrap (order : Byte) (params : Bytes) (s : State) : StepResult :=
  decodeEncoded (encodeWrapper s.params order params) s

/-- DELAY (R98). -/
def execDelay (ticks : BitVec 16) (s : State) : StepResult := decodeEncoded (encodeDelay s.params ticks.toNat) s

/-- TOOLHEAD (R99). -/
def execToolhead (index : Byte) (s : State) : StepResult := decodeEncoded (.ok (encodeToolhead s.params index)) s

/-- BLM.NN: narrow masks, narrow steps (R105). -/
def execBlmNN (body : BlmBody) (s : State) : StepResult := decodeEncoded (encodeBlm s.params ⟨false, false, body⟩) s

/-- BLM.NW: narrow masks, wide steps (R105). -/
def execBlmNW (body : BlmBody) (s : State) : StepResult := decodeEncoded (encodeBlm s.params ⟨false, true, body⟩) s

/-- BLM.WN: wide masks, narrow steps (R105). -/
def execBlmWN (body : BlmBody) (s : State) : StepResult := decodeEncoded (encodeBlm s.params ⟨true, false, body⟩) s

/-- BLM.WW: wide masks, wide steps (R105). -/
def execBlmWW (body : BlmBody) (s : State) : StepResult := decodeEncoded (encodeBlm s.params ⟨true, true, body⟩) s

/-- UNKNOWN (R106). -/
def execUnknown (typ : Byte) (body : Bytes) (s : State) : StepResult := decodeEncoded (encodeRaw typ body) s

/-! ## Codes (R110 to R112), each looked up as its operation looks it up -/

/-- ORDER_RESUME (R110, 46 R291). -/
def execOrderResume (s : State) : StepResult := catalogOrder orderResumeCode s

/-- ORDER_QUEUE_COMMAND_BLOCKS (R110, 46 R291). -/
def execOrderQueueCommandBlocks (s : State) : StepResult := catalogOrder s.params.orderQueueCommandBlocks s

/-- ORDER_WRITE_FIRMWARE_CONFIGURATION (R110, 46 R291). -/
def execOrderWriteFirmwareConfiguration (s : State) : StepResult :=
  catalogOrder s.params.orderWriteFirmwareConfiguration s

/-- REPLY_OK (R111, 46 R292). -/
def execReplyOk (s : State) : StepResult := catalogReply replyOkCode s

/-- REPLY_GENERIC_APPLICATION_ERROR (R111, 46 R292). -/
def execReplyGenericApplicationError (s : State) : StepResult := catalogReply replyGenericApplicationErrorCode s

/-- REPLY_STOPPED (R111, 46 R292). -/
def execReplyStopped (s : State) : StepResult := catalogReply s.params.replyStopped s

/-- SUBREASON.unknown-order (R112, 46 R294). -/
def execSubUnknownOrder (s : State) : StepResult := reasonOf (subReasonCode s.params .unknownOrder) s

/-- SUBREASON.bad-parameter-format (R112, 46 R294). -/
def execSubBadParameterFormat (s : State) : StepResult := reasonOf (subReasonCode s.params .badParameterFormat) s

/-- SUBREASON.bad-parameter-value (R112, 46 R294). -/
def execSubBadParameterValue (s : State) : StepResult := reasonOf (subReasonCode s.params .badParameterValue) s

/-- SUBREASON.invalid-device-type (R112, 46 R294). -/
def execSubInvalidDeviceType (s : State) : StepResult := reasonOf (subReasonCode s.params .invalidDeviceType) s

/-- SUBREASON.invalid-device-number (R112, 46 R294). -/
def execSubInvalidDeviceNumber (s : State) : StepResult := reasonOf (subReasonCode s.params .invalidDeviceNumber) s

/-- SUBREASON.incorrect-mode (R112, 46 R294). -/
def execSubIncorrectMode (s : State) : StepResult := reasonOf (subReasonCode s.params .incorrectMode) s

/-- SUBREASON.busy (R112, 46 R294). -/
def execSubBusy (s : State) : StepResult := reasonOf (subReasonCode s.params .busy) s

/-- SUBREASON.failed (R112, 46 R294). -/
def execSubFailed (s : State) : StepResult := reasonOf (subReasonCode s.params .failed) s

/-- SUBREASON.firmware-error (R112, 46 R294). -/
def execSubFirmwareError (s : State) : StepResult := reasonOf (subReasonCode s.params .firmwareError) s

/-- SUBREASON.cannot-activate-device (R112, 46 R294). -/
def execSubCannotActivateDevice (s : State) : StepResult := reasonOf (subReasonCode s.params .cannotActivateDevice) s

/-! ## The STOPPED payload (R113) -/

/-- STOPPED.PAYLOAD (R113, 46 R295). -/
def execStoppedPayload (recovery cause : Byte) (text : Bytes) (s : State) : StepResult :=
  succeed s (.stopped (decodeStopped s.params (recovery :: cause :: text)))

end Sys2Proof.Machine
end

