-- ==== Sys2Proof/Machine/SeqUnit.lean ====
section
/-! DEFINITION. The sequence counter (spec/41_sequence_counter.md). -/

namespace Sys2Proof.Machine

/-- `SEQ.INIT` (R151). -/
def execSeqInit (s : State) : StepResult := succeed { s with seq := 0 } .unit

/-- `SEQ.CURRENT` (R152). -/
def execSeqCurrent (s : State) : StepResult := succeed s (.nat s.seq.toNat)

/-- `SEQ.ADVANCE`: a 4-bit increment with the carry dropped (R153). -/
def execSeqAdvance (s : State) : StepResult := succeed { s with seq := s.seq + 1 } .unit

end Sys2Proof.Machine
end

