-- ==== Sys2Proof/Machine/SessionUnit.lean ====
section
/-! DEFINITION. The session and register-port operations (spec/47_session.md). -/

namespace Sys2Proof.Machine

/-- `SESSION.OPEN` (R312). -/
def execSessionOpen (descriptor : Bytes) (s : State) : StepResult :=
  if s.session = .opened then refuse s .alreadyOpen
  else
    match trOpen descriptor s with
    | (.error, s) => done (failTransport s) .transportError
    | (.ok, s) => succeed (openSession s) .unit

/-- `SESSION.CLOSE` (R313), which never fails. An open session is closed; a session that has failed stays so and the Transport is
not called, since only `SESSION.OPEN` or reset leaves `FAILED` (10_state.md R22, R312, 92_eei_decisions.md D34) and nothing else
calls the Transport there (20_memory.md R59; log 21). -/
def execSessionClose (s : State) : StepResult :=
  let s := if s.session = .opened then { trClose s with session := .closed } else s
  succeed (endExchange s) .unit

/-- `REG.READ` (R314). -/
def execRegRead (n : Nat) (s : State) : StepResult :=
  match readRegister s n with
  | some v => succeed s (.nat v)
  | none => refuse s .noSuchRegister

end Sys2Proof.Machine
end

