-- ==== Sys2Proof/Machine/Dispatch.lean ====
section
/-! DEFINITION. The dispatch: one arm per instruction, one direct call of its meaning. -/

namespace Sys2Proof.Machine

def exec (i : Instr) (s : State) : Host.Outcome State Fault Refusal :=
  match i with
  | .sessionOpen descriptor => Sys2Proof.Machine.execSessionOpen descriptor s
  | .sessionClose => Sys2Proof.Machine.execSessionClose s
  | .regRead n => Sys2Proof.Machine.execRegRead n s
  | .crcTab x => Sys2Proof.Machine.execCrcTab x s
  | .crcStep acc b => Sys2Proof.Machine.execCrcStep acc b s
  | .crcRange buf offset length => Sys2Proof.Machine.execCrcRange buf offset length s
  | .seqInit => Sys2Proof.Machine.execSeqInit s
  | .seqCurrent => Sys2Proof.Machine.execSeqCurrent s
  | .seqAdvance => Sys2Proof.Machine.execSeqAdvance s
  | .txEncode code params => Sys2Proof.Machine.execTxEncode code params s
  | .txOrder0 code => Sys2Proof.Machine.execTxOrder0 code s
  | .txOrder1 code b => Sys2Proof.Machine.execTxOrder1 code b s
  | .txOrder5 code b v => Sys2Proof.Machine.execTxOrder5 code b v s
  | .txSend => Sys2Proof.Machine.execTxSend s
  | .rxAssemble => Sys2Proof.Machine.execRxAssemble s
  | .rxValidate f => Sys2Proof.Machine.execRxValidate f s
  | .rxReceive => Sys2Proof.Machine.execRxReceive s
  | .xchg => Sys2Proof.Machine.execXchg s
  | .mbScan a => Sys2Proof.Machine.execMbScan a s
  | .mbDec b => Sys2Proof.Machine.execMbDec b s
  | .mbDecWrapper b => Sys2Proof.Machine.execMbDecWrapper b s
  | .mbDecDelay b => Sys2Proof.Machine.execMbDecDelay b s
  | .mbDecBlm b => Sys2Proof.Machine.execMbDecBlm b s
  | .mbDecToolhead b => Sys2Proof.Machine.execMbDecToolhead b s
  | .mbDecUnknown b => Sys2Proof.Machine.execMbDecUnknown b s
  | .mbEncWrapper order params => Sys2Proof.Machine.execMbEncWrapper order params s
  | .mbEncDelay ticks => Sys2Proof.Machine.execMbEncDelay ticks s
  | .mbEncBlm r => Sys2Proof.Machine.execMbEncBlm r s
  | .mbEncToolhead index => Sys2Proof.Machine.execMbEncToolhead index s
  | .mbEncRaw typ body => Sys2Proof.Machine.execMbEncRaw typ body s
  | .mbPack blocks => Sys2Proof.Machine.execMbPack blocks s
  | .catOrder code => Sys2Proof.Machine.execCatOrder code s
  | .catReply code => Sys2Proof.Machine.execCatReply code s
  | .errReason v => Sys2Proof.Machine.execErrReason v s
  | .stoppedDec params => Sys2Proof.Machine.execStoppedDec params s
  | .beUint buf off cnt => Sys2Proof.Machine.execBeUint buf off cnt s
  | .text buf off cnt => Sys2Proof.Machine.execText buf off cnt s
  | .req sq code params => Sys2Proof.Machine.execReq sq code params s
  | .rsp reserved sq code params => Sys2Proof.Machine.execRsp reserved sq code params s
  | .dbg reserved sq code params => Sys2Proof.Machine.execDbg reserved sq code params s
  | .ctrlReq sq => Sys2Proof.Machine.execCtrlReq sq s
  | .ctrlRsp debug reserved sq => Sys2Proof.Machine.execCtrlRsp debug reserved sq s
  | .blockHeader blockLength blockType => Sys2Proof.Machine.execBlockHeader blockLength blockType s
  | .wrap order params => Sys2Proof.Machine.execWrap order params s
  | .delay ticks => Sys2Proof.Machine.execDelay ticks s
  | .toolhead index => Sys2Proof.Machine.execToolhead index s
  | .blmNN body => Sys2Proof.Machine.execBlmNN body s
  | .blmNW body => Sys2Proof.Machine.execBlmNW body s
  | .blmWN body => Sys2Proof.Machine.execBlmWN body s
  | .blmWW body => Sys2Proof.Machine.execBlmWW body s
  | .unknown typ body => Sys2Proof.Machine.execUnknown typ body s
  | .orderResume => Sys2Proof.Machine.execOrderResume s
  | .orderQueueCommandBlocks => Sys2Proof.Machine.execOrderQueueCommandBlocks s
  | .orderWriteFirmwareConfiguration => Sys2Proof.Machine.execOrderWriteFirmwareConfiguration s
  | .replyOk => Sys2Proof.Machine.execReplyOk s
  | .replyGenericApplicationError => Sys2Proof.Machine.execReplyGenericApplicationError s
  | .replyStopped => Sys2Proof.Machine.execReplyStopped s
  | .subUnknownOrder => Sys2Proof.Machine.execSubUnknownOrder s
  | .subBadParameterFormat => Sys2Proof.Machine.execSubBadParameterFormat s
  | .subBadParameterValue => Sys2Proof.Machine.execSubBadParameterValue s
  | .subInvalidDeviceType => Sys2Proof.Machine.execSubInvalidDeviceType s
  | .subInvalidDeviceNumber => Sys2Proof.Machine.execSubInvalidDeviceNumber s
  | .subIncorrectMode => Sys2Proof.Machine.execSubIncorrectMode s
  | .subBusy => Sys2Proof.Machine.execSubBusy s
  | .subFailed => Sys2Proof.Machine.execSubFailed s
  | .subFirmwareError => Sys2Proof.Machine.execSubFirmwareError s
  | .subCannotActivateDevice => Sys2Proof.Machine.execSubCannotActivateDevice s
  | .stoppedPayload recovery cause reason => Sys2Proof.Machine.execStoppedPayload recovery cause reason s

end Sys2Proof.Machine
end

