-- ==== Sys2Proof/Machine/Step.lean ====
section
/-! DEFINITION. One step: the HOST's next command is taken from the port, decoded and run
(spec/47_session.md R316). -/

namespace Sys2Proof.Machine

/-- One step. With no command issued the engine does nothing (log 2). A command that decodes to no instruction ends
`Refused(NoSuchOperation)` (30_encoding.md R120; log 5). -/
def step (s : State) : Host.Outcome State Fault Refusal :=
  match s.program with
  | [] => .next s
  | c :: rest =>
    match decode s.params c with
    | .ok i => exec i (takeCommand s rest)
    | .error _ => refuse (takeCommand s rest) .noSuchOperation

/-- The state with a word of spec/opcode_table.json as the next command the HOST issues (log 2, log 5). -/
def State.withFetchWord (s : State) (nbits w : Nat) : State :=
  issueCommand s (tableCommand nbits w)

end Sys2Proof.Machine
end

