-- ==== Sys2Proof/Safety.lean ====
section
/-! DEFINITION. What a well-kept state and a safe step are, in the terms the statements use. -/

namespace Sys2Proof.Machine

/-- The indices of a byte space that hold a value are exactly `0 .. n-1` (10_state.md R24, R38). -/
def Memory.covers (m : Memory) (n : Nat) : Prop := m.map Prod.fst = List.range n

/-- A request frame with some sequence value, code and parameter block that fits a frame (30_encoding.md R81, R85). -/
def IsRequestFrame (tab : Vector Byte 256) (f : Bytes) : Prop :=
  ∃ (sq : Nibble) (code : Byte) (params : Bytes), params.length ≤ maxParams ∧ f = requestFrame tab sq code params

/-- What holds after reset and after every step, whatever the HOST and the Transport do. -/
structure State.Inv (s : State) : Prop where
  /-- `RXBUF[0..RXPOS)` holds values and nothing else does (10_state.md R24). -/
  rxCovers : s.rxBuf.covers s.rxPos
  /-- `RXPOS` stays within the largest frame (R25). -/
  rxBound : s.rxPos ≤ maxFrame
  /-- `TXBUF[0..TXLEN)` holds values and nothing else does (R27, R28). -/
  txCovers : s.txBuf.covers s.txLen
  /-- `TXBUF` is empty or holds one encoded request frame (R27, R28). -/
  txFrame : s.txLen = 0 ∨ IsRequestFrame s.params.crcTab s.txBuf.bytes
  /-- A request is outstanding only in an open session (R23). -/
  busyOpen : s.busy = true → s.session = .opened
  /-- A bound on skipped debug frames is passed by at most one (60_exceptions.md R332). -/
  dbgBound : ∀ k, s.params.debugSkipLimit = some k → s.dbgCnt ≤ k + 1

/-- A step that neither faults nor finds an instruction without a meaning. -/
def SafeStep (s : State) : Prop := ∃ t, step s = .next t

/-! ## The terms of the statements -/

/-- A byte space holds exactly the bytes `f`, from index 0 on, and nothing else. -/
def Memory.Holds (m : Memory) (f : Bytes) : Prop := ∀ i, m.read i = f[i]?

/-- The selector `opsel` selects the operation `f` makes of the operand wires, whatever the parameters
(30_encoding.md R120). -/
def Selects (opsel : Byte) (f : Operands → Instr) : Prop := ∀ p a, decode p (.op opsel a) = .ok (f a)

/-- The selectors R120 lists. -/
def listedSelectors : List Byte :=
  [0x01, 0x02, 0x03, 0x10, 0x11, 0x12, 0x20, 0x21, 0x22, 0x30, 0x31, 0x32, 0x33, 0x34, 0x40, 0x41, 0x42, 0x43] ++
  [0x50, 0x51, 0x52, 0x53, 0x54, 0x55, 0x56, 0x60, 0x61, 0x62, 0x63, 0x64, 0x65, 0x70, 0x71, 0x72, 0x73, 0x74, 0x75]

/-- What the Transport answers to reads that get exactly these bytes. -/
def answers (bs : Bytes) : List ReadAnswer := bs.map ReadAnswer.byte

/-- A debug frame, of any sequence value and content (R88, R92). -/
def IsDebugFrame (tab : Vector Byte 256) (f : Bytes) : Prop :=
  ∃ (reserved : BitVec 3) (sq : Nibble) (code : Byte) (params : Bytes),
    params.length ≤ maxParams ∧ f = responseFrame tab true reserved sq code params

/-- What the Transport answers to the `n`-th read from now (log 6). -/
def Line.answer (l : Line) (n : Nat) : ReadAnswer :=
  match l.lineIn[n]? with
  | some a => a
  | none =>
    if l.lineInCycle = [] then .timeout
    else l.lineInCycle.getD ((n - l.lineIn.length) % l.lineInCycle.length) .timeout

/-- The next reads are answered with `as`. -/
def Line.Starts (l : Line) (as : List ReadAnswer) : Prop := ∀ k a, as[k]? = some a → l.answer k = a

/-- The first `n` answers of `l` are gone and the others remain in `l'` (60_exceptions.md R324). -/
def Line.Gone (l l' : Line) (n : Nat) : Prop := ∀ k, l'.answer k = l.answer (n + k)

/-- The line starts with these debug frames, one after another. -/
def DebugRun (tab : Vector Byte 256) (l : Line) (frames : List Bytes) : Prop :=
  (∀ d ∈ frames, IsDebugFrame tab d) ∧ l.Starts (answers frames.flatten)

/-- What follows some number of debug frames is not another one: a non-debug frame, a rejected frame, a timeout or an error
(60_exceptions.md R333). -/
def DebugRunEnds (tab : Vector Byte 256) (l : Line) : Prop :=
  ∃ frames, DebugRun tab l frames ∧ ∀ d, ¬ DebugRun tab l (frames ++ [d])

/-- What an assembly has collected before it is complete: nothing, the sync byte, or the sync byte, a length byte `L` and
fewer than `L + 1` bytes more (43_frame_rx.md R183, R186). -/
def IsCutShort : Bytes → Prop
  | [] => True
  | [sync] => sync = 0x42
  | sync :: l :: rest => sync = 0x42 ∧ rest.length < l.toNat + 1

/-- What the byte `v` stands for where each of `codes` stands for the member of `members` in its place: that member, or the
marker with the raw byte (46_catalog_helpers.md R293, R295). -/
def Names (codes : List Byte) (members : List α) (v : Byte) (x : Lookup α) : Prop :=
  (∃ m, (v, m) ∈ codes.zip members ∧ x = .known m) ∨ (v ∉ codes ∧ x = .unrecognized v)

/-- The sub-reasons in the document's order (30_encoding.md R112). -/
def subReasonList : List SubReason :=
  [.unknownOrder, .badParameterFormat, .badParameterValue, .invalidDeviceType, .invalidDeviceNumber, .incorrectMode, .busy,
   .failed, .firmwareError, .cannotActivateDevice]

/-- The recovery values of a STOPPED reply, in order (R113). -/
def recoveryList : List Recovery := [.cleared, .persists, .unrecoverable]

/-- The causes of a STOPPED reply, in order (R113). -/
def causeList : List StopCause :=
  [.reset, .endStopHit, .movementError, .temperatureError, .deviceFault, .electricalFault, .firmwareFault, .userRequested,
   .hostTimeout, .other]

/-- The ten sub-reason codes in that order: 3 is the source's, the other nine are parameters (R112). -/
def subReasonCodes (p : Params) : List Byte :=
  p.otherSubReasons.toList.take 2 ++ 0x03 :: p.otherSubReasons.toList.drop 2

/-- The candidate `c` that a receive rejects for `r` (43_frame_rx.md R184, R189, R197): one byte that is not the sync byte, the
debug frame that passes the bound, or bytes that validation rejects for `r`. -/
def RejectedAs (tab : Vector Byte 256) (sq : Nibble) (c : Bytes) : RejectReason → Prop
  | .badSync => ∃ b, b ≠ 0x42 ∧ c = [b]
  | .debugLimit => IsDebugFrame tab c
  | r => validateFrame tab sq c = .reject r

/-- What `l'` keeps of `l` where nothing has been sent or opened: LINE-OUT, both schedules and the free answers drawn. -/
def Line.SendsStay (l l' : Line) : Prop :=
  l'.lineOut = l.lineOut ∧ l'.sendAnswers = l.sendAnswers ∧ l'.openAnswers = l.openAnswers ∧ l'.drawn = l.drawn

/-- The bytes `pre` and then the candidate `c` have been taken from `l`, and `l'` is what remains: no other answer is gone, but, where
the candidate is cut short, the answer `cut` that came in place of its next byte (43_frame_rx.md R183, R186). -/
def Line.TookCandidate (l l' : Line) (pre c : Bytes) (cut : ReadAnswer) : Prop :=
  l.Starts (answers (pre ++ c)) ∧
    ((¬ IsCutShort c ∧ l.Gone l' (pre ++ c).length) ∨
     (IsCutShort c ∧ l.answer (pre ++ c).length = cut ∧ l.Gone l' ((pre ++ c).length + 1)))

/-- From `s` to `t`, these debug frames and then the candidate `c` have been taken from the line, and `RXBUF[0..RXPOS)` is left
holding the candidate (43_frame_rx.md R183, R197, 60_exceptions.md R324, R327). -/
def Collected (s t : State) (frames : List Bytes) (c : Bytes) (cut : ReadAnswer) : Prop :=
  DebugRun s.params.crcTab s.line frames ∧ s.line.TookCandidate t.line frames.flatten c cut ∧ t.rxBuf.Holds c ∧
    t.rxPos = c.length

/-- TX.SEND in `s` ends `Ok`, and of what it leaves on the line's sending side `t` keeps all (43_frame_rx.md R198). -/
def SentOnce (s t : State) : Prop :=
  ∃ u, exec .txSend s = .next u ∧ u.outcome = some (.ok .unit) ∧ u.line.SendsStay t.line

/-- A call that reads a byte with one of the two timeouts (43_frame_rx.md R181, R182). -/
def IsRead (p : Params) (c : TrCall) : Prop := c = .readByte p.tLong ∨ c = .readByte p.tShort

/-- One whole block: a header whose length byte counts all of it (44_motion_decode.md R224). -/
def IsBlock (b : Bytes) : Prop := ∃ bl t body, b = bl :: t :: body ∧ bl.toNat = body.length + 2

/-- The operation ends with this outcome and changes nothing else. -/
def EndsOnly (i : Instr) (s : State) (o : OpOutcome) : Prop := exec i s = .next { s with outcome := some o }

/-- A scan of `a` gives these blocks and this status, and changes nothing (R221). -/
def ScansTo (s : State) (a : Bytes) (bs : List Block) (st : ScanStatus) : Prop :=
  EndsOnly (.mbScan a) s (.ok (.blocks bs st))

/-- The well-formedness of a BLM record, its conditions in order (45_motion_encode.md R264). -/
def blmFits (r : BlmRecord) : Prop :=
  (r.body.sel < (if r.wideMask then 32768 else 128) ∧ r.body.dir < (if r.wideMask then 32768 else 128)) ∧
  (r.body.accel < (if r.wideSteps then 65536 else 256) ∧ r.body.decel < (if r.wideSteps then 65536 else 256) ∧
    ∀ t ∈ r.body.steps, t.count < (if r.wideSteps then 65536 else 256)) ∧
  (r.body.primary < 16 ∧ r.body.nominal < 256 ∧ r.body.endSpeed < 256) ∧
  r.body.steps.map AxisStep.axis = (List.range 16).filter (fun k => r.body.sel.testBit k) ∧
  ∀ t ∈ r.body.steps, t.direction = r.body.dir.testBit t.axis

/-- A mask field, flag bit uppermost (30_encoding.md R101, R102). -/
def maskLayout (wide flag : Bool) (v : Nat) : Bytes :=
  if wide then [(BitVec.ofBool flag ++ BitVec.ofNat 7 (v / 256) : BitVec 8), BitVec.ofNat 8 v]
  else [(BitVec.ofBool flag ++ BitVec.ofNat 7 v : BitVec 8)]

/-- A step-count field, one byte or two, the more significant first (R104). -/
def stepLayout (wide : Bool) (v : Nat) : Bytes :=
  if wide then [BitVec.ofNat 8 (v / 256), BitVec.ofNat 8 v] else [BitVec.ofNat 8 v]

/-- The body of a BLM block as R100 lays its fields out, the packing byte's reserved bits being `reserved`
(R103). -/
def blmLayout (r : BlmRecord) (reserved : BitVec 3) : Bytes :=
  maskLayout r.wideMask r.wideMask r.body.sel ++ maskLayout r.wideMask r.wideSteps r.body.dir ++
  [(reserved ++ BitVec.ofBool r.body.homing ++ BitVec.ofNat 4 r.body.primary : BitVec 8),
    BitVec.ofNat 8 r.body.nominal, BitVec.ofNat 8 r.body.endSpeed] ++
  stepLayout r.wideSteps r.body.accel ++ stepLayout r.wideSteps r.body.decel ++
  r.body.steps.flatMap (fun t => stepLayout r.wideSteps t.count)

/-- `blockLength` as the flags and the number of selected axes determine it (R104). -/
def blmBlockLength (r : BlmRecord) : Nat :=
  5 + 2 * (if r.wideMask then 2 else 1) + 2 * (if r.wideSteps then 2 else 1) +
    (if r.wideSteps then 2 else 1) * ((List.range 16).filter (fun k => r.body.sel.testBit k)).length

/-- The four block-type codes are pairwise different (R96). -/
def blockTypesDiffer (p : Params) : Prop := [p.btWrapper, p.btDelay, p.btBlm, p.btToolhead].Nodup

/-- The operations of the motion-block codec (44, 45). -/
def isMotionOp : Instr → Bool
  | .mbScan _ | .mbDec _ | .mbDecWrapper _ | .mbDecDelay _ | .mbDecBlm _ | .mbDecToolhead _ | .mbDecUnknown _ => true
  | .mbEncWrapper _ _ | .mbEncDelay _ | .mbEncBlm _ | .mbEncToolhead _ | .mbEncRaw _ _ | .mbPack _ => true
  | _ => false

/-- Which operations a refusal is for (60_exceptions.md R322, column `Refused`; R329). -/
def refusedBy (i : Instr) : RefusedWhy → Prop
  | .noSuchOperation => False
  | .noSuchRegister => ∃ n, i = .regRead n
  | .alreadyOpen => ∃ d, i = .sessionOpen d
  | .noSession => i = .txSend ∨ i = .rxAssemble ∨ i = .rxReceive ∨ i = .xchg
  | .busy => i = .txSend ∨ i = .xchg
  | .nothingEncoded => i = .txSend ∨ i = .xchg
  | .txTooLong => ∃ code params, i = .txEncode code params
  | .crcRange => ∃ buf offset length, i = .crcRange buf offset length
  | .blockOperand => (∃ b, i = .mbDec b ∨ i = .mbDecWrapper b ∨ i = .mbDecDelay b ∨ i = .mbDecBlm b ∨
      i = .mbDecToolhead b ∨ i = .mbDecUnknown b) ∨ ∃ blocks, i = .mbPack blocks
  | .blockTooLong => ∃ x bytes, i = .mbEncWrapper x bytes ∨ i = .mbEncRaw x bytes
  | .fieldRange => ∃ ticks, i = .mbEncDelay ticks
  | .illFormedRecord => ∃ r, i = .mbEncBlm r
  | .areaTooLong => ∃ blocks, i = .mbPack blocks

/-- How each operation of R120 may end (R322); the data-format rows are no operations and have no row there. -/
def mayEnd (i : Instr) : OpOutcome → Prop
  | .ok _ => True
  | .noFrame r => i = .rxReceive ∨ i = .xchg ∨ (i = .rxAssemble ∧ r = .badSync) ∨
      ((∃ f, i = .rxValidate f) ∧ r ≠ .debugLimit)
  | .transportError => (∃ d, i = .sessionOpen d) ∨ i = .txSend ∨ i = .rxAssemble ∨ i = .rxReceive ∨ i = .xchg
  | .refused why => refusedBy i why

/-- The operations that call the Transport (10_state.md R22, 70_reset_and_hazards.md R381). -/
def usesTransport : Instr → Bool
  | .sessionOpen _ | .sessionClose | .txSend | .rxAssemble | .rxReceive | .xchg => true
  | _ => false

end Sys2Proof.Machine
end

