-- ==== Sys2Proof/Certificates/Slice0/Obligations.lean ====
section
/-! DEFINITION. The statements, as propositions: the proofs are written elsewhere. A statement of the form `exec i s = .next t`
with `t` written as an update of `s` says at once that the instruction completes, what it changes, and that every other
register, both byte spaces, the line and the parameters stay as they are. -/

section

open Sys2Proof Sys2Proof.Machine

/-! ## Decoding and encoding -/

/-- The HOST's next command, when it decodes, is taken from the port and executed (47_session.md R316). That what the HOST issues
is a list in the state is the model's choice (log 2). -/
def Obligations.StepRunsDecodedCommand : Prop :=
  ∀ (s : State) (c : Command) (rest : List Command) (i : Instr),
    s.program = c :: rest → decode s.params c = .ok i → step s = exec i { s with program := rest }

/-- The operation table of 30_encoding.md R120, row by row. -/
def Obligations.SelectorTable : Prop :=
  Selects 0x01 (fun a => .sessionOpen a.bytes) ∧
  Selects 0x02 (fun _ => .sessionClose) ∧
  Selects 0x03 (fun a => .regRead a.nat0) ∧
  Selects 0x10 (fun a => .crcTab a.byte0) ∧
  Selects 0x11 (fun a => .crcStep a.byte0 a.byte1) ∧
  Selects 0x12 (fun a => .crcRange a.bytes a.nat0 a.nat1) ∧
  Selects 0x20 (fun _ => .seqInit) ∧
  Selects 0x21 (fun _ => .seqCurrent) ∧
  Selects 0x22 (fun _ => .seqAdvance) ∧
  Selects 0x30 (fun a => .txEncode a.byte0 a.bytes) ∧
  Selects 0x31 (fun a => .txOrder0 a.byte0) ∧
  Selects 0x32 (fun a => .txOrder1 a.byte0 a.byte1) ∧
  Selects 0x33 (fun a => .txOrder5 a.byte0 a.byte1 a.word) ∧
  Selects 0x34 (fun _ => .txSend) ∧
  Selects 0x40 (fun _ => .rxAssemble) ∧
  Selects 0x41 (fun a => .rxValidate a.bytes) ∧
  Selects 0x42 (fun _ => .rxReceive) ∧
  Selects 0x43 (fun _ => .xchg) ∧
  Selects 0x50 (fun a => .mbScan a.bytes) ∧
  Selects 0x51 (fun a => .mbDec a.bytes) ∧
  Selects 0x52 (fun a => .mbDecWrapper a.bytes) ∧
  Selects 0x53 (fun a => .mbDecDelay a.bytes) ∧
  Selects 0x54 (fun a => .mbDecBlm a.bytes) ∧
  Selects 0x55 (fun a => .mbDecToolhead a.bytes) ∧
  Selects 0x56 (fun a => .mbDecUnknown a.bytes) ∧
  Selects 0x60 (fun a => .mbEncWrapper a.byte0 a.bytes) ∧
  Selects 0x61 (fun a => .mbEncDelay a.nat0) ∧
  Selects 0x62 (fun a => .mbEncBlm a.record) ∧
  Selects 0x63 (fun a => .mbEncToolhead a.byte0) ∧
  Selects 0x64 (fun a => .mbEncRaw a.byte0 a.bytes) ∧
  Selects 0x65 (fun a => .mbPack a.blocks) ∧
  Selects 0x70 (fun a => .catOrder a.byte0) ∧
  Selects 0x71 (fun a => .catReply a.byte0) ∧
  Selects 0x72 (fun a => .errReason a.byte0) ∧
  Selects 0x73 (fun a => .stoppedDec a.bytes) ∧
  Selects 0x74 (fun a => .beUint a.bytes a.nat0 a.nat1) ∧
  Selects 0x75 (fun a => .text a.bytes a.nat0 a.nat1)

/-- A selector that R120 does not list is refused and changes nothing but the command port. -/
def Obligations.UnlistedSelectorRefused : Prop :=
  ∀ (s : State) (opsel : Byte) (a : Operands) (rest : List Command),
    s.program = .op opsel a :: rest → opsel ∉ listedSelectors →
      step s = .next { s with program := rest, outcome := some (.refused .noSuchOperation) }

/-- Words written out from the formats of 30_encoding.md, with the default table, block types and sub-reason codes (log 14,
log 15), decode to what they stand for. -/
def Obligations.KnownWordsDecode : Prop :=
  decode defaultParams (.word .frame [0x23, 0x03, 0x00, 0x00, 0x01, 0x1A]) = .ok (.req 0 0x00 [0x01]) ∧
  decode defaultParams (.word .frame [0x42, 0x02, 0x70, 0x10, 0x3B]) = .ok (.rsp 7 0 0x10 []) ∧
  decode defaultParams (.word .frame [0x42, 0x03, 0x85, 0x50, 0x41, 0xB0]) = .ok (.dbg 0 5 0x50 [0x41]) ∧
  decode defaultParams (.word .block [0x04, 0x02, 0x01, 0xF4]) = .ok (.delay 500) ∧
  decode defaultParams (.word .block [0x0D, 0x03, 0x04, 0x84, 0x02, 0x10, 0x10, 0x00, 0x00, 0xFF, 0xFF, 0x01, 0x2C]) =
    .ok (.blmNW ⟨4, 4, 2, false, 16, 16, 0, 65535, [⟨2, 300, true⟩]⟩) ∧
  decode defaultParams (.word .subReason [0x01]) = .ok .subUnknownOrder ∧
  decode defaultParams (.word .subReason [0x03]) = .ok .subBadParameterValue ∧
  decode defaultParams (.word .subReason [0x0A]) = .ok .subCannotActivateDevice

/-- Decoding the encoding of any well-formed instruction gives that instruction back. -/
def Obligations.DecodeOfEncode : Prop :=
  ∀ (p : Params) (i : Instr), p.wellFormed = true → i.wellFormed p = true → decode p (encode p i) = .ok i

/-- Outside the block format, a word that decodes is the encoding of what it decodes to, so every such word has one
meaning and every bit of it is read. -/
def Obligations.DecodedWordReencodes : Prop :=
  ∀ (p : Params) (format : Format) (w : Bytes) (i : Instr),
    format ≠ .block → decode p (.word format w) = .ok i → encode p i = .word format w

/-! ## Reset, the invariant, what can stop -/

/-- The values of 10_state.md R37 after reset. -/
def Obligations.ResetValues : Prop :=
  State.reset.seq = 0 ∧ State.reset.rxPos = 0 ∧ State.reset.rxStat = .none ∧ State.reset.dbgCnt = 0 ∧
  State.reset.txLen = 0 ∧ State.reset.session = .closed ∧ State.reset.busy = false ∧
  ∀ i, State.reset.rxBuf.read i = none ∧ State.reset.txBuf.read i = none

/-- The invariant holds at reset. -/
def Obligations.InvariantAtReset : Prop := State.reset.Inv

/-- Every step keeps the invariant, from every state that has it. -/
def Obligations.InvariantKeptByStep : Prop :=
  ∀ s t : State, s.Inv → step s = .next t → t.Inv

/-- From a state with the invariant, the one way to stop is a receive with no bound on skipped debug frames (60_exceptions.md
R333) on a line that repeats itself for ever. That such a line must be one that repeats itself is the model's choice of what a line
can be (log 6: it ends in silence or repeats), and that the receive is then the fault `stuck` is its reading of R333 (log 10): an
endless flood that never repeats would hang the spec's engine too and cannot be written down here. -/
def Obligations.OnlyDebugFloodStops : Prop :=
  ∀ s : State, s.Inv →
    (∃ t, step s = .next t) ∨
    (step s = .fault .stuck ∧ s.session = .opened ∧ s.params.debugSkipLimit = none ∧ s.line.lineInCycle ≠ [] ∧
      ∃ c rest, s.program = c :: rest ∧ (decode s.params c = .ok .rxReceive ∨ decode s.params c = .ok .xchg))

/-- No step writes a parameter, the CRC table among them (10_state.md R31). -/
def Obligations.ParametersNeverWritten : Prop :=
  ∀ s t : State, step s = .next t → t.params = s.params

/-! ## The session and the register port -/

/-- SESSION.OPEN (47_session.md R312). The Transport's answer is the next scheduled one, or, where none is scheduled, the free
value that nothing constrains (log 7). The premise holds in every state that has the invariant. -/
def Obligations.SessionOpenEffect : Prop :=
  Selects 0x01 (fun a => .sessionOpen a.bytes) ∧
  ∀ (d : Bytes) (s : State), (s.busy = true → s.session = .opened) →
    let line := { s.line with
      openAnswers := s.line.openAnswers.tail
      drawn := if s.line.openAnswers = [] then s.line.drawn + 1 else s.line.drawn
      calls := .openLine d :: s.line.calls }
    exec (.sessionOpen d) s = .next (
      if s.session = .opened then { s with outcome := some (.refused .alreadyOpen) }
      else if s.line.openAnswers.headD (Config.freeOpenAnswer s.line.drawn) = .error then
        { s with session := .failed, line := line, outcome := some .transportError }
      else
        { s with
          seq := 0
          busy := false
          rxPos := 0
          rxBuf := []
          rxStat := .none
          dbgCnt := 0
          txLen := 0
          txBuf := []
          session := .opened
          line := line
          outcome := some (.ok .unit) })

/-- SESSION.CLOSE (47_session.md R313): it never fails, closes an open session and does nothing in a closed one. A failed session
stays failed and the Transport is not called there, as 10_state.md R22, R312, 20_memory.md R59 and D34 say, against R313's own
words for `FAILED`; following D34 is the model's reading (log 21). -/
def Obligations.SessionCloseEffect : Prop :=
  Selects 0x02 (fun _ => .sessionClose) ∧
  ∀ s : State, exec .sessionClose s = .next
    { s with
      session := if s.session = .failed then .failed else .closed
      busy := false
      line := if s.session = .opened then { s.line with calls := .closeLine :: s.line.calls } else s.line
      outcome := some (.ok .unit) }

/-- REG.READ (47_session.md R314), `RXSTAT` with its nine codes (60_exceptions.md R320). -/
def Obligations.RegisterPort : Prop :=
  Selects 0x03 (fun a => .regRead a.nat0) ∧
  ∀ s : State,
    EndsOnly (.regRead 0) s (.ok (.nat s.seq.toNat)) ∧
    (∀ (st : RxStat) (code : Nat),
      (st, code) ∈ [(.none, 0x00), (.accepted, 0x01), (.debug, 0x02), (.rejected .tooShort, 0x11), (.rejected .badSync, 0x12),
        (.rejected .badCrc, 0x13), (.rejected .badLength, 0x14), (.rejected .badSeq, 0x15), (.rejected .debugLimit, 0x16)] →
      s.rxStat = st → EndsOnly (.regRead 1) s (.ok (.nat code))) ∧
    EndsOnly (.regRead 2) s (.ok (.nat s.rxPos)) ∧
    EndsOnly (.regRead 3) s (.ok (.nat s.dbgCnt)) ∧
    EndsOnly (.regRead 4) s (.ok (.nat s.txLen)) ∧
    EndsOnly (.regRead 5) s
      (.ok (.nat (if s.session = .closed then 0 else if s.session = .opened then 1 else 2))) ∧
    EndsOnly (.regRead 6) s (.ok (.nat (if s.busy then 1 else 0))) ∧
    ∀ n, 6 < n → EndsOnly (.regRead n) s (.refused .noSuchRegister)

/-- The session life cycle (47_session.md R315): the events that may move `SESSION`, and to what; the four operations that
need an open session are refused without one, and every operation that does not use the Transport works alike in every
`SESSION` value (the register port shows it). That SESSION.CLOSE leaves FAILED as it is is what 10_state.md R22, R312 and D34
say, against the last row of R315; following D34 is the model's reading (log 21). -/
def Obligations.SessionLifeCycle : Prop :=
  State.reset.session = .closed ∧
  (∀ (i : Instr) (s t : State), exec i s = .next t →
    t.session = s.session ∨
    (∃ d, i = .sessionOpen d ∧ s.session ≠ .opened ∧
      ((t.session = .opened ∧ t.outcome = some (.ok .unit)) ∨
       (t.session = .failed ∧ t.outcome = some .transportError))) ∨
    (i = .sessionClose ∧ s.session = .opened ∧ t.session = .closed) ∨
    ((i = .txSend ∨ i = .rxAssemble ∨ i = .rxReceive ∨ i = .xchg) ∧ s.session = .opened ∧ t.session = .failed ∧
      t.outcome = some .transportError)) ∧
  (∀ (i : Instr) (s : State), (i = .txSend ∨ i = .rxAssemble ∨ i = .rxReceive ∨ i = .xchg) → s.session ≠ .opened →
    EndsOnly i s (.refused .noSession)) ∧
  ∀ (i : Instr) (s : State) (x : Session), usesTransport i = false → (∀ n, i ≠ .regRead n) →
    ∃ t, exec i s = .next t ∧ exec i { s with session := x } = .next { t with session := x }

/-! ## How operations end -/

/-- A refused operation changes nothing (47_session.md R317), as an instruction and as a step. -/
def Obligations.RefusedChangesNothing : Prop :=
  (∀ (i : Instr) (s t : State) (why : RefusedWhy),
    exec i s = .next t → t.outcome = some (.refused why) → t = { s with outcome := some (.refused why) }) ∧
  ∀ (s t : State) (c : Command) (rest : List Command) (why : RefusedWhy),
    s.program = c :: rest → step s = .next t → t.outcome = some (.refused why) →
      t = { s with program := rest, outcome := some (.refused why) }

/-- Which operation can end how (60_exceptions.md R322), the last row of the table for selectors that are not listed. -/
def Obligations.OutcomeTable : Prop :=
  (∀ (opsel : Byte) (a : Operands) (i : Instr) (s t : State) (o : OpOutcome),
    decodeOp opsel a = .ok i → exec i s = .next t → t.outcome = some o → mayEnd i o) ∧
  ∀ (opsel : Byte) (a : Operands) (s : State) (rest : List Command),
    s.program = .op opsel a :: rest → decodeOp opsel a = .error (.noSuchOperation opsel) →
      step s = .next { s with program := rest, outcome := some (.refused .noSuchOperation) }

/-- Transport failure, whatever operation meets it (60_exceptions.md R327, R326): the session has failed, nothing is outstanding,
`SEQ` and the transmit buffer stay, and `RXSTAT` keeps its value from before the operation, also where a receive has skipped
debug frames (the model's reading, log 12). A failed open or send leaves the receive buffer, `DBGCNT` and the line's answers
as they were. A failed read leaves `RXBUF[0..RXPOS)` holding what its assembly had collected, and, of a receive or an
exchange, `DBGCNT` the number of debug frames skipped before; the answers that brought them and the error are gone and no
others, and nothing has been sent but the one request of an exchange. -/
def Obligations.TransportErrorEffect : Prop :=
  ∀ (i : Instr) (s t : State), exec i s = .next t → t.outcome = some .transportError →
    (t.session = .failed ∧ t.busy = false ∧ t.seq = s.seq ∧ t.txBuf = s.txBuf ∧ t.txLen = s.txLen ∧ t.rxStat = s.rxStat) ∧
    ((∃ d, i = .sessionOpen d) ∨ i = .txSend →
      t.rxBuf = s.rxBuf ∧ t.rxPos = s.rxPos ∧ t.dbgCnt = s.dbgCnt ∧ s.line.Gone t.line 0) ∧
    (i = .rxAssemble →
      (∃ c, Collected s t [] c .error ∧ IsCutShort c) ∧ t.dbgCnt = s.dbgCnt ∧ s.line.SendsStay t.line) ∧
    (i = .rxReceive →
      (∃ frames c, Collected s t frames c .error ∧ IsCutShort c ∧ t.dbgCnt = frames.length) ∧ s.line.SendsStay t.line) ∧
    (i = .xchg → exec .txSend s = .next t ∨
      ((∃ frames c, Collected s t frames c .error ∧ IsCutShort c ∧ t.dbgCnt = frames.length) ∧ SentOnce s t))

/-- What a rejection does (60_exceptions.md R324), whatever instruction ends with it: it is recorded, `SEQ`, `SESSION` and the
transmit buffer stay, and a receive or an exchange is over. Of a receive or an exchange, `RXBUF[0..RXPOS)` holds the rejected
candidate, `DBGCNT` the number of debug frames before it (and the one that passed the bound), and the answers that brought
them are gone from LINE-IN and no others but, where the candidate was cut short, the timeout that cut it. A receive has sent
nothing, LINE-OUT and the answers to sends are as before; an exchange has sent its one request and nothing more. RX.ASSEMBLE
keeps its one byte; a validation touches neither buffer nor line. -/
def Obligations.RejectionEffect : Prop :=
  ∀ (i : Instr) (s t : State) (r : RejectReason), exec i s = .next t → t.outcome = some (.noFrame r) →
    (t.rxStat = .rejected r ∧ t.seq = s.seq ∧ t.session = s.session ∧ t.txBuf = s.txBuf ∧ t.txLen = s.txLen) ∧
    (i = .rxReceive ∨ i = .xchg → t.busy = false ∧
      ∃ frames c, Collected s t frames c .timeout ∧ t.dbgCnt = frames.length + (if r = .debugLimit then 1 else 0) ∧
        RejectedAs s.params.crcTab s.seq c r) ∧
    (i = .rxReceive → s.line.SendsStay t.line) ∧
    (i = .xchg → SentOnce s t) ∧
    (i ≠ .rxReceive → i ≠ .xchg → t.busy = s.busy ∧ t.dbgCnt = s.dbgCnt) ∧
    (i = .rxAssemble → ∃ b : Byte, b ≠ 0x42 ∧ s.line.answer 0 = .byte b ∧ s.line.Gone t.line 1 ∧ t.rxBuf.Holds [b] ∧
      t.rxPos = 1 ∧ s.line.SendsStay t.line) ∧
    (i ≠ .rxReceive → i ≠ .xchg → i ≠ .rxAssemble → t.rxBuf = s.rxBuf ∧ t.rxPos = s.rxPos ∧ t.line = s.line)

/-- Transport calls per operation (70_reset_and_hazards.md R381), read off the model's record of calls (log 9): `new` is
what the instruction adds to it. A receive only reads, and an exchange only reads after its one send: nothing is sent again
(60_exceptions.md R325). -/
def Obligations.TransportCallBounds : Prop :=
  ∀ (i : Instr) (s t : State), exec i s = .next t →
    ∃ new, t.line.calls = new ++ s.line.calls ∧
      (i = .txSend → new = [] ∨ new = [.sendBytes]) ∧
      (i = .rxAssemble → s.session = .opened → 1 ≤ new.length ∧ new.length ≤ 258 ∧
        ∃ k, new = List.replicate k (.readByte s.params.tShort) ++ [.readByte s.params.tLong]) ∧
      (i = .rxReceive → new.length ≤ 258 * (t.dbgCnt + 1) ∧ ∀ c ∈ new, IsRead s.params c) ∧
      (i = .xchg → new = [] ∨ ∃ reads, new = reads ++ [.sendBytes] ∧ (∀ c ∈ reads, IsRead s.params c) ∧
        (reads = [] ∨ reads.length ≤ 258 * (t.dbgCnt + 1))) ∧
      (∀ d, i = .sessionOpen d → new = [] ∨ new = [.openLine d]) ∧
      (i = .sessionClose → new = [] ∨ new = [.closeLine]) ∧
      (i = .rxAssemble → s.session ≠ .opened → new = []) ∧
      (usesTransport i = false → new = [])

/-! ## The sequence counter -/

/-- SEQ.INIT, SEQ.CURRENT, SEQ.ADVANCE (41_sequence_counter.md R151 to R153). -/
def Obligations.SequenceOperations : Prop :=
  Selects 0x20 (fun _ => .seqInit) ∧ Selects 0x21 (fun _ => .seqCurrent) ∧ Selects 0x22 (fun _ => .seqAdvance) ∧
  ∀ s : State,
    exec .seqInit s = .next { s with seq := 0, outcome := some (.ok .unit) } ∧
    exec .seqCurrent s = .next { s with outcome := some (.ok (.nat s.seq.toNat)) } ∧
    exec .seqAdvance s = .next
      { s with seq := BitVec.ofNat 4 ((s.seq.toNat + 1) % 16), outcome := some (.ok .unit) }

/-- The period of the counter (R155): `k` advances from `v` give `(v + k) mod 16`; from 0, sixteen of them return to 0 and each
value is passed exactly once. -/
def Obligations.SequencePeriod : Prop :=
  ∀ (k : Nat) (s : State) (a : Operands) (rest : List Command),
    s.program = List.replicate k (.op 0x22 a) ++ rest →
      ∃ t : State, Sys2Proof.core.run k s = .next t ∧ t.seq.toNat = (s.seq.toNat + k) % 16 ∧
        (s.seq = 0 → k < 16 → t.seq.toNat = k) ∧ (s.seq = 0 → k = 16 → t.seq = 0) ∧
        t = { s with seq := t.seq, program := rest, outcome := if k = 0 then s.outcome else some (.ok .unit) }

/-- Nothing but SEQ.INIT, SEQ.ADVANCE and a SESSION.OPEN that succeeds writes `SEQ` (43_frame_rx.md R199, 10_state.md R21). -/
def Obligations.OnlySequenceOperationsWriteSeq : Prop :=
  ∀ (i : Instr) (s t : State), exec i s = .next t →
    t.seq = s.seq ∨ i = .seqInit ∨ i = .seqAdvance ∨
      ∃ d, i = .sessionOpen d ∧ t.seq = 0 ∧ t.outcome = some (.ok .unit)

/-! ## The CRC engine -/

/-- CRC8.TAB and CRC8.STEP (40_crc8.md R134, R135), for any table, with their corner cases. -/
def Obligations.CrcTableAndStep : Prop :=
  Selects 0x10 (fun a => .crcTab a.byte0) ∧ Selects 0x11 (fun a => .crcStep a.byte0 a.byte1) ∧
  ∀ (s : State) (x b : Byte),
    EndsOnly (.crcTab x) s (.ok (.byte (s.params.crcTab[x.toNat]'x.isLt))) ∧
    EndsOnly (.crcStep x b) s (.ok (.byte (s.params.crcTab[(x ^^^ b).toNat]'(x ^^^ b).isLt))) ∧
    EndsOnly (.crcStep 0 b) s (.ok (.byte (s.params.crcTab[b.toNat]'b.isLt))) ∧
    EndsOnly (.crcStep x x) s (.ok (.byte s.params.crcTab[0])) ∧
    ∀ poly : Byte, (∀ i : Byte, s.params.crcTab[i.toNat]'i.isLt = crcGenerate poly i) →
      EndsOnly (.crcTab 0) s (.ok (.byte 0)) ∧ EndsOnly (.crcTab 1) s (.ok (.byte poly))

/-- CRC8.RANGE (R136): the fold over the indices of the range in ascending order, and the refusal of a range that leaves the
buffer. -/
def Obligations.CrcRangeFold : Prop :=
  Selects 0x12 (fun a => .crcRange a.bytes a.nat0 a.nat1) ∧
  ∀ (s : State) (buf : Bytes) (offset length : Nat),
    (offset + length ≤ buf.length →
      EndsOnly (.crcRange buf offset length) s (.ok (.byte ((List.range length).foldl
        (fun acc k => s.params.crcTab[(acc ^^^ buf.getD (offset + k) 0).toNat]'(acc ^^^ buf.getD (offset + k) 0).isLt) 0)))) ∧
    (buf.length < offset + length → EndsOnly (.crcRange buf offset length) s (.refused .crcRange))

/-- The CRC of a concatenation is the fold over its second part, of any length, started from the CRC of its first part, and a
range followed by its own CRC folds to `T[0]` (R138, items 3 and 4), for any table, through the operations that HOST can
issue. -/
def Obligations.CrcComposition : Prop :=
  ∀ (s : State) (a b : Bytes) (c : Byte),
    EndsOnly (.crcRange a 0 a.length) s (.ok (.byte c)) →
      EndsOnly (.crcRange (a ++ b) 0 (a ++ b).length) s
        (.ok (.byte (b.foldl (fun acc x => s.params.crcTab[(acc ^^^ x).toNat]'(acc ^^^ x).isLt) c))) ∧
      EndsOnly (.crcRange (a ++ [c]) 0 (a.length + 1)) s (.ok (.byte s.params.crcTab[0]))

/-- The spec's default table (decided there from general knowledge, log 14): every entry is what the generator of R133 makes
for polynomial 0xD5, the entries are pairwise different (R139), and the check value is 0xBC (R140). -/
def Obligations.DefaultCrcTable : Prop :=
  (∀ i : Byte, defaultCrcTab[i.toNat]'i.isLt = crcGenerate 0xD5 i) ∧ defaultCrcTab.toList.Nodup ∧
  crc8 defaultCrcTab [0x31, 0x32, 0x33, 0x34, 0x35, 0x36, 0x37, 0x38, 0x39] = 0xBC

/-- Where the table is a permutation, any change confined to one byte of a buffer changes its CRC (R138 item 2,
93_implementation_defined.md G2). -/
def Obligations.ByteChangeChangesCrc : Prop :=
  ∀ (s : State) (pre post : Bytes) (x y : Byte), s.params.crcTab.toList.Nodup → x ≠ y →
    ∃ c d, c ≠ d ∧
      EndsOnly (.crcRange (pre ++ x :: post) 0 (pre ++ x :: post).length) s (.ok (.byte c)) ∧
      EndsOnly (.crcRange (pre ++ y :: post) 0 (pre ++ y :: post).length) s (.ok (.byte d))

/-! ## The request encoder -/

/-- TX.ENCODE (42_frame_tx.md R161 to R163): the frame byte by byte, in `TXBUF` and as the result, `TXLEN`, nothing else; a block
of more than 253 bytes is refused and changes nothing. -/
def Obligations.EncodeBuildsTheFrame : Prop :=
  Selects 0x30 (fun a => .txEncode a.byte0 a.bytes) ∧
  ∀ (s : State) (code : Byte) (params : Bytes),
    let body : Bytes := [BitVec.ofNat 8 (params.length + 2), (0 : BitVec 4) ++ s.seq, code] ++ params
    let f : Bytes := [0x23] ++ body ++ [crc8 s.params.crcTab body]
    (params.length ≤ 253 →
      ∃ m : Memory, m.Holds f ∧ exec (.txEncode code params) s = .next
        { s with txBuf := m, txLen := params.length + 5, outcome := some (.ok (.bytes f)) }) ∧
    (253 < params.length → EndsOnly (.txEncode code params) s (.refused .txTooLong))

/-- TX.ORDER0, TX.ORDER1, TX.ORDER5 (R164 to R166): each is TX.ENCODE of its parameter shape, and its frame is the one the rule
writes out. -/
def Obligations.OrderShapesEncode : Prop :=
  Selects 0x31 (fun a => .txOrder0 a.byte0) ∧ Selects 0x32 (fun a => .txOrder1 a.byte0 a.byte1) ∧
  Selects 0x33 (fun a => .txOrder5 a.byte0 a.byte1 a.word) ∧
  ∀ (s : State) (code b : Byte) (v : BitVec 32),
    let c : Byte := (0 : BitVec 4) ++ s.seq
    let tab := s.params.crcTab
    let v3 : Byte := v.extractLsb' 24 8
    let v2 : Byte := v.extractLsb' 16 8
    let v1 : Byte := v.extractLsb' 8 8
    let v0 : Byte := v.extractLsb' 0 8
    let f0 : Bytes := [0x23, 0x02, c, code, crc8 tab [0x02, c, code]]
    let f1 : Bytes := [0x23, 0x03, c, code, b, crc8 tab [0x03, c, code, b]]
    let f5 : Bytes := [0x23, 0x07, c, code, b, v3, v2, v1, v0, crc8 tab [0x07, c, code, b, v3, v2, v1, v0]]
    (∃ m : Memory, m.Holds f0 ∧ exec (.txOrder0 code) s = .next
      { s with txBuf := m, txLen := 5, outcome := some (.ok (.bytes f0)) }) ∧
    (∃ m : Memory, m.Holds f1 ∧ exec (.txOrder1 code b) s = .next
      { s with txBuf := m, txLen := 6, outcome := some (.ok (.bytes f1)) }) ∧
    (∃ m : Memory, m.Holds f5 ∧ exec (.txOrder5 code b v) s = .next
      { s with txBuf := m, txLen := 10, outcome := some (.ok (.bytes f5)) }) ∧
    exec (.txOrder0 code) s = exec (.txEncode code []) s ∧
    exec (.txOrder1 code b) s = exec (.txEncode code [b]) s ∧
    exec (.txOrder5 code b v) s = exec (.txEncode code [b, v3, v2, v1, v0]) s

/-- TX.SEND (R167): the three refusals in their order, then the bytes `TXBUF[0..TXLEN)` are sent; `BUSY` is set, or the
session has failed. The premises on `TXBUF` hold in every state that has the invariant; an answer that no schedule gives is
the free value (log 7). That LINE-OUT gains the frame also where the answer is `Error` is the model's reading (log 8). -/
def Obligations.SendEffect : Prop :=
  Selects 0x34 (fun _ => .txSend) ∧
  ∀ (s : State) (f : Bytes), s.txBuf.Holds f → f.length = s.txLen → s.txLen ≤ 258 →
    let line := { s.line with
      lineOut := s.line.lineOut ++ f
      sendAnswers := s.line.sendAnswers.tail
      drawn := if s.line.sendAnswers = [] then s.line.drawn + 1 else s.line.drawn
      calls := .sendBytes :: s.line.calls }
    exec .txSend s = .next (
      if s.session ≠ .opened then { s with outcome := some (.refused .noSession) }
      else if s.busy then { s with outcome := some (.refused .busy) }
      else if s.txLen = 0 then { s with outcome := some (.refused .nothingEncoded) }
      else if s.line.sendAnswers.headD (Config.freeSendAnswer s.line.drawn) = .error then
        { s with session := .failed, line := line, outcome := some .transportError }
      else { s with busy := true, line := line, outcome := some (.ok .unit) })

/-- What is encoded is what is sent, also when `SEQ` has moved in between (R160, R167, 70_reset_and_hazards.md R366). -/
def Obligations.SendDeliversWhatWasEncoded : Prop :=
  ∀ (s t u v : State) (code : Byte) (params : Bytes) (more : List IoAnswer),
    s.session = .opened → s.busy = false → s.line.sendAnswers = .ok :: more →
    exec (.txEncode code params) s = .next t → params.length ≤ 253 →
    (u = t ∨ exec .seqAdvance t = .next u) → exec .txSend u = .next v →
      v.outcome = some (.ok .unit) ∧ v.busy = true ∧
      v.line.lineOut = s.line.lineOut ++ requestFrame s.params.crcTab s.seq code params

/-! ## The synchronizer -/

/-- RX.ASSEMBLE of a frame that arrives whole (43_frame_rx.md R183, R185): `L + 3` bytes are collected and returned, the first
with the long timeout and the others with the short one, and no further byte is read. -/
def Obligations.AssembleCompleteFrame : Prop :=
  Selects 0x40 (fun _ => .rxAssemble) ∧
  ∀ (s : State) (l : Byte) (rest : Bytes) (more : List ReadAnswer),
    s.session = .opened → rest.length = l.toNat + 1 → s.line.lineIn = answers (0x42 :: l :: rest) ++ more →
      ∃ m : Memory, m.Holds (0x42 :: l :: rest) ∧ exec .rxAssemble s = .next
        { s with
          rxBuf := m
          rxPos := l.toNat + 3
          line := { s.line with
            lineIn := more
            calls := List.replicate (l.toNat + 2) (.readByte s.params.tShort) ++
              .readByte s.params.tLong :: s.line.calls }
          outcome := some (.ok (.bytes (0x42 :: l :: rest))) }

/-- RX.ASSEMBLE that ends early (R184, R186, 60_exceptions.md R327): a timeout returns what was collected, a transport error fails
the session and keeps it in `RXBUF`, and a first byte that is not the sync byte is rejected with that byte consumed and no
other. -/
def Obligations.AssembleEndsEarly : Prop :=
  ∀ (s : State) (got : Bytes) (more : List ReadAnswer), s.session = .opened →
    (IsCutShort got → s.line.lineIn = answers got ++ .timeout :: more →
      ∃ (m : Memory) (calls : List TrCall), m.Holds got ∧ calls.length = got.length + 1 ∧ exec .rxAssemble s = .next
        { s with
          rxBuf := m
          rxPos := got.length
          line := { s.line with lineIn := more, calls := calls ++ s.line.calls }
          outcome := some (.ok (.bytes got)) }) ∧
    (IsCutShort got → s.line.lineIn = answers got ++ .error :: more →
      ∃ (m : Memory) (calls : List TrCall), m.Holds got ∧ calls.length = got.length + 1 ∧ exec .rxAssemble s = .next
        { s with
          rxBuf := m
          rxPos := got.length
          line := { s.line with lineIn := more, calls := calls ++ s.line.calls }
          session := .failed
          busy := false
          outcome := some .transportError }) ∧
    ∀ b : Byte, b ≠ 0x42 → s.line.lineIn = .byte b :: more →
      exec .rxAssemble s = .next
        { s with
          rxBuf := [(0, b)]
          rxPos := 1
          rxStat := .rejected .badSync
          line := { s.line with lineIn := more, calls := .readByte s.params.tLong :: s.line.calls }
          outcome := some (.noFrame .badSync) }

/-! ## The validator -/

/-- RX.VALIDATE (43_frame_rx.md R188 to R196): the six checks in their order, the first that fails decides; only `RXSTAT` is
written. -/
def Obligations.ValidateChecksInOrder : Prop :=
  Selects 0x41 (fun a => .rxValidate a.bytes) ∧
  ∀ (s : State) (f : Bytes),
    let rejected (r : RejectReason) := { s with rxStat := .rejected r, outcome := some (.noFrame r) }
    (f.length < 5 → exec (.rxValidate f) s = .next (rejected .tooShort)) ∧
    ∀ (b0 l c code k : Byte) (params : Bytes), f = [b0, l, c, code] ++ params ++ [k] →
      exec (.rxValidate f) s = .next (
        if b0 ≠ 0x42 then rejected .badSync
        else if k ≠ crc8 s.params.crcTab ([l, c, code] ++ params) then rejected .badCrc
        else if l = 0 ∨ l = 1 ∨ l.toNat ≠ params.length + 2 then rejected .badLength
        else if c.getLsbD 7 then { s with rxStat := .debug, outcome := some (.ok .debug) }
        else if c.extractLsb' 0 4 ≠ s.seq then rejected .badSeq
        else { s with rxStat := .accepted, outcome := some (.ok (.reply code params)) })

/-- What is accepted, and what is taken for a debug frame (R196, R201): exactly the response frames with a right length and CRC,
debug flag clear and the nibble equal to `SEQ`, and exactly those with the debug flag set, whatever the nibble; the reserved
bits are free (30_encoding.md R107). -/
def Obligations.AcceptedAndDebugFrames : Prop :=
  ∀ (s t : State) (f : Bytes), exec (.rxValidate f) s = .next t →
    (∀ (code : Byte) (params : Bytes), t.outcome = some (.ok (.reply code params)) ↔
      ∃ reserved : BitVec 3, params.length ≤ 253 ∧
        f = responseFrame s.params.crcTab false reserved s.seq code params) ∧
    (t.outcome = some (.ok .debug) ↔ IsDebugFrame s.params.crcTab f)

/-- A truncated candidate is always rejected (R200), with one of three reasons, the first of them exactly when it has fewer than
five bytes. -/
def Obligations.TruncatedCandidateRejected : Prop :=
  ∀ (s : State) (f : Bytes), (f = [] ∨ f = [0x42] ∨ ∃ l rest, f = 0x42 :: l :: rest ∧ f.length < l.toNat + 3) →
    ∃ r, exec (.rxValidate f) s = .next { s with rxStat := .rejected r, outcome := some (.noFrame r) } ∧
      (r = .tooShort ↔ f.length < 5) ∧ (r = .tooShort ∨ r = .badCrc ∨ r = .badLength)

/-- Loop-back with the sync byte replaced (R203): what TX.ENCODE makes of a code and parameters validates to the same, and taken
literally it is a bad sync. -/
def Obligations.LoopBack : Prop :=
  ∀ (s t : State) (code : Byte) (params : Bytes) (f : Bytes), params.length ≤ 253 →
    exec (.txEncode code params) s = .next t → t.outcome = some (.ok (.bytes f)) →
      exec (.rxValidate (0x42 :: f.tail)) t = .next
        { t with rxStat := .accepted, outcome := some (.ok (.reply code params)) } ∧
      exec (.rxValidate f) t = .next { t with rxStat := .rejected .badSync, outcome := some (.noFrame .badSync) }

/-! ## Receiving and exchanging -/

/-- RX.RECEIVE whose first candidate is no debug frame is RX.ASSEMBLE, then RX.VALIDATE of the candidate, with `DBGCNT` at 0 and
`BUSY` cleared (43_frame_rx.md R197, 30_encoding.md R122). -/
def Obligations.ReceiveIsAssembleThenValidate : Prop :=
  ∀ s t : State, s.session = .opened → exec .rxAssemble s = .next t →
    (∀ (c : Bytes) (u : State), t.outcome = some (.ok (.bytes c)) → exec (.rxValidate c) t = .next u →
      u.outcome ≠ some (.ok .debug) → exec .rxReceive s = .next { u with dbgCnt := 0, busy := false }) ∧
    ((∀ c, t.outcome ≠ some (.ok (.bytes c))) → exec .rxReceive s = .next { t with dbgCnt := 0, busy := false })

/-- RX.RECEIVE skips any number of debug frames, up to the bound where there is one, and accepts the reply that follows them
(R197, 60_exceptions.md R331); what comes after the reply stays on the line, and `SEQ` stays. -/
def Obligations.ReceiveSkipsDebugFrames : Prop :=
  Selects 0x42 (fun _ => .rxReceive) ∧
  ∀ (s : State) (frames : List Bytes) (reserved : BitVec 3) (code : Byte) (params : Bytes) (more : List ReadAnswer),
    s.session = .opened → (∀ d ∈ frames, IsDebugFrame s.params.crcTab d) → params.length ≤ 253 →
    (∀ k, s.params.debugSkipLimit = some k → frames.length ≤ k) →
    s.line.lineIn =
      answers (frames.flatten ++ responseFrame s.params.crcTab false reserved s.seq code params) ++ more →
      ∃ (m : Memory) (calls : List TrCall),
        m.Holds (responseFrame s.params.crcTab false reserved s.seq code params) ∧
        exec .rxReceive s = .next
          { s with
            rxBuf := m
            rxPos := params.length + 5
            rxStat := .accepted
            dbgCnt := frames.length
            busy := false
            line := { s.line with lineIn := more, calls := calls ++ s.line.calls }
            outcome := some (.ok (.reply code params)) }

/-- With `DEBUG_SKIP_LIMIT` bound to `k`, the `k + 1`-th consecutive debug frame ends the receive (R332); what follows it stays
on the line. -/
def Obligations.ReceiveStopsAtDebugLimit : Prop :=
  ∀ (s : State) (frames : List Bytes) (last : Bytes) (more : List ReadAnswer),
    s.session = .opened → s.params.debugSkipLimit = some frames.length →
    (∀ d ∈ frames, IsDebugFrame s.params.crcTab d) → IsDebugFrame s.params.crcTab last →
    s.line.lineIn = answers (frames.flatten ++ last) ++ more →
      ∃ (m : Memory) (calls : List TrCall), m.Holds last ∧
        exec .rxReceive s = .next
          { s with
            rxBuf := m
            rxPos := last.length
            rxStat := .rejected .debugLimit
            dbgCnt := frames.length + 1
            busy := false
            line := { s.line with lineIn := more, calls := calls ++ s.line.calls }
            outcome := some (.noFrame .debugLimit) }

/-- A receive ends whenever debug skipping is bounded (R332), whenever the line brings, after some number of debug frames, what is
not another one (a non-debug frame, a rejected frame, a timeout or an error: the premise of R333), and whenever the line does not
repeat itself for ever; the last suffices because the model lets every other line end in silence (its choice, log 6). -/
def Obligations.ReceiveEnds : Prop :=
  ∀ s : State,
    s.params.debugSkipLimit ≠ none ∨ DebugRunEnds s.params.crcTab s.line ∨ s.line.lineInCycle = [] →
      ∃ t, exec .rxReceive s = .next t

/-- With no bound, a line that delivers debug frames for ever keeps RX.RECEIVE from ending: stuck, not a result (R333). -/
def Obligations.DebugFloodIsStuck : Prop :=
  ∀ (s : State) (now again : List Bytes),
    s.session = .opened → s.params.debugSkipLimit = none →
    (∀ d ∈ now, IsDebugFrame s.params.crcTab d) → (∀ d ∈ again, IsDebugFrame s.params.crcTab d) → again ≠ [] →
    s.line.lineIn = answers now.flatten → s.line.lineInCycle = answers again.flatten →
      exec .rxReceive s = .fault .stuck

/-- XCHG is TX.SEND and then, where that ended `Ok`, RX.RECEIVE (R198). A refused XCHG so ends as TX.SEND does and leaves `BUSY` as
it was: the model's reading of R198's last sentence on `BUSY` against R317 (log 23). -/
def Obligations.ExchangeIsSendThenReceive : Prop :=
  Selects 0x43 (fun _ => .xchg) ∧
  ∀ s t : State, exec .txSend s = .next t →
    (t.outcome = some (.ok .unit) → exec .xchg s = exec .rxReceive t) ∧
    (t.outcome ≠ some (.ok .unit) → exec .xchg s = .next t)

/-- One whole exchange (R198): the encoded request goes out, the debug frames in the way are skipped, the reply comes back, `BUSY`
is clear at the end and `SEQ` is as it was. -/
def Obligations.OneExchange : Prop :=
  ∀ (s : State) (f : Bytes) (sent : List IoAnswer) (frames : List Bytes) (reserved : BitVec 3) (code : Byte)
    (params : Bytes) (more : List ReadAnswer),
    s.session = .opened → s.busy = false → s.txBuf.Holds f → f.length = s.txLen → s.txLen ≠ 0 → s.txLen ≤ 258 →
    s.line.sendAnswers = .ok :: sent → (∀ d ∈ frames, IsDebugFrame s.params.crcTab d) → params.length ≤ 253 →
    (∀ k, s.params.debugSkipLimit = some k → frames.length ≤ k) →
    s.line.lineIn =
      answers (frames.flatten ++ responseFrame s.params.crcTab false reserved s.seq code params) ++ more →
      ∃ (m : Memory) (calls : List TrCall),
        m.Holds (responseFrame s.params.crcTab false reserved s.seq code params) ∧
        exec .xchg s = .next
          { s with
            rxBuf := m
            rxPos := params.length + 5
            rxStat := .accepted
            dbgCnt := frames.length
            busy := false
            line := { s.line with
              lineIn := more
              sendAnswers := sent
              lineOut := s.line.lineOut ++ f
              calls := calls ++ s.line.calls }
            outcome := some (.ok (.reply code params)) }

/-! ## Motion blocks: scanning and decoding -/

/-- MB.SCAN (44_motion_decode.md R221 to R223): the scan of a block and an area after it is that block's decoding and the scan
of the area; the three stop conditions carry every remaining byte; every area has a scan. -/
def Obligations.ScanWalksTheArea : Prop :=
  Selects 0x50 (fun a => .mbScan a.bytes) ∧
  ∀ s : State,
    ScansTo s [] [] .complete ∧
    (∀ x, ScansTo s [x] [.malformed .headerTruncated [x]] .stopped) ∧
    (∀ bl t more, bl.toNat < 2 →
      ScansTo s (bl :: t :: more) [.malformed .lengthTooSmall (bl :: t :: more)] .stopped) ∧
    (∀ bl t more, 2 ≤ bl.toNat → (bl :: t :: more).length < bl.toNat →
      ScansTo s (bl :: t :: more) [.malformed .overrun (bl :: t :: more)] .stopped) ∧
    (∀ b a blk bs st, IsBlock b → EndsOnly (.mbDec b) s (.ok (.block blk)) → ScansTo s a bs st →
      ScansTo s (b ++ a) (blk :: bs) st) ∧
    ∀ a, ∃ bs st, ScansTo s a bs st

/-- MB.DEC and the per-type operations on one whole block (R224 to R229, R240): the type byte selects, each fixed format
is read as its rule says, and an operand that is not one whole block is refused by all six. -/
def Obligations.DecodeByType : Prop :=
  Selects 0x51 (fun a => .mbDec a.bytes) ∧ Selects 0x52 (fun a => .mbDecWrapper a.bytes) ∧
  Selects 0x53 (fun a => .mbDecDelay a.bytes) ∧ Selects 0x55 (fun a => .mbDecToolhead a.bytes) ∧
  Selects 0x56 (fun a => .mbDecUnknown a.bytes) ∧
  ∀ s : State,
    (∀ b, ¬ IsBlock b → ∀ i ∈ [Instr.mbDec b, .mbDecWrapper b, .mbDecDelay b, .mbDecBlm b, .mbDecToolhead b,
      .mbDecUnknown b], EndsOnly i s (.refused .blockOperand)) ∧
    ∀ (bl t : Byte) (body : Bytes), bl.toNat = body.length + 2 →
      let b := bl :: t :: body
      exec (.mbDec b) s =
        (if t = s.params.btWrapper then exec (.mbDecWrapper b) s
        else if t = s.params.btDelay then exec (.mbDecDelay b) s
        else if t = s.params.btBlm then exec (.mbDecBlm b) s
        else if t = s.params.btToolhead then exec (.mbDecToolhead b) s
        else exec (.mbDecUnknown b) s) ∧
      (∃ blk, EndsOnly (.mbDec b) s (.ok (.block blk))) ∧
      (t ∉ [s.params.btWrapper, s.params.btDelay, s.params.btBlm, s.params.btToolhead] →
        EndsOnly (.mbDec b) s (.ok (.block (.unknown t b)))) ∧
      (∀ order params, body = order :: params → EndsOnly (.mbDecWrapper b) s (.ok (.block (.wrapper order params)))) ∧
      (body = [] → EndsOnly (.mbDecWrapper b) s (.ok (.block (.malformed .lengthMismatch b)))) ∧
      (∀ h l : Byte, body = [h, l] → EndsOnly (.mbDecDelay b) s
        (.ok (.block (.delay (h.toNat * 256 + l.toNat) ((h.toNat * 256 + l.toNat) * 10))))) ∧
      (body.length ≠ 2 → EndsOnly (.mbDecDelay b) s (.ok (.block (.malformed .lengthMismatch b)))) ∧
      (∀ index, body = [index] → EndsOnly (.mbDecToolhead b) s (.ok (.block (.toolhead index)))) ∧
      (body.length ≠ 1 → EndsOnly (.mbDecToolhead b) s (.ok (.block (.malformed .lengthMismatch b)))) ∧
      EndsOnly (.mbDecUnknown b) s (.ok (.block (.unknown t b)))

/-- MB.DEC.BLM (R230 to R239) against the layout of 30_encoding.md R100 to R104: the bytes of any record that fits decode to that
record, whatever the reserved bits; a body cut short anywhere is FieldOverrun; bytes left over are LengthMismatch; and nothing
else decodes to a record. -/
def Obligations.BlmDecodesItsLayout : Prop :=
  Selects 0x54 (fun a => .mbDecBlm a.bytes) ∧
  ∀ (s : State) (bl t : Byte) (body : Bytes), bl.toNat = body.length + 2 →
    (∀ (r : BlmRecord) (reserved : BitVec 3), blmFits r →
      (body = blmLayout r reserved → EndsOnly (.mbDecBlm (bl :: t :: body)) s (.ok (.block (.blm r)))) ∧
      (body <+: blmLayout r reserved → body ≠ blmLayout r reserved →
        EndsOnly (.mbDecBlm (bl :: t :: body)) s (.ok (.block (.malformed .fieldOverrun (bl :: t :: body))))) ∧
      (blmLayout r reserved <+: body → body ≠ blmLayout r reserved →
        EndsOnly (.mbDecBlm (bl :: t :: body)) s (.ok (.block (.malformed .lengthMismatch (bl :: t :: body)))))) ∧
    ∀ r : BlmRecord, EndsOnly (.mbDecBlm (bl :: t :: body)) s (.ok (.block (.blm r))) →
      blmFits r ∧ bl.toNat = blmBlockLength r ∧ ∃ reserved, body = blmLayout r reserved

/-! ## Motion blocks: encoding -/

/-- MB.ENC.WRAPPER, MB.ENC.DELAY, MB.ENC.TOOLHEAD, MB.ENC.RAW, MB.PACK (45_motion_encode.md R261 to R263, R266, R267). -/
def Obligations.EncodeFixedFormats : Prop :=
  Selects 0x60 (fun a => .mbEncWrapper a.byte0 a.bytes) ∧ Selects 0x61 (fun a => .mbEncDelay a.nat0) ∧
  Selects 0x63 (fun a => .mbEncToolhead a.byte0) ∧ Selects 0x64 (fun a => .mbEncRaw a.byte0 a.bytes) ∧
  Selects 0x65 (fun a => .mbPack a.blocks) ∧
  ∀ (s : State) (x : Byte) (bytes : Bytes) (ticks : Nat) (blocks : List Bytes),
    EndsOnly (.mbEncWrapper x bytes) s (if 252 < bytes.length then .refused .blockTooLong
      else .ok (.bytes ([BitVec.ofNat 8 (3 + bytes.length), s.params.btWrapper, x] ++ bytes))) ∧
    EndsOnly (.mbEncDelay ticks) s (if 65535 < ticks then .refused .fieldRange
      else .ok (.bytes [0x04, s.params.btDelay, BitVec.ofNat 8 (ticks / 256), BitVec.ofNat 8 ticks])) ∧
    EndsOnly (.mbEncToolhead x) s (.ok (.bytes [0x03, s.params.btToolhead, x])) ∧
    EndsOnly (.mbEncRaw x bytes) s (if 253 < bytes.length then .refused .blockTooLong
      else .ok (.bytes ([BitVec.ofNat 8 (bytes.length + 2), x] ++ bytes))) ∧
    ((∃ b ∈ blocks, ¬ IsBlock b) → EndsOnly (.mbPack blocks) s (.refused .blockOperand)) ∧
    ((∀ b ∈ blocks, IsBlock b) → EndsOnly (.mbPack blocks) s (if 253 < blocks.flatten.length then .refused .areaTooLong
      else .ok (.bytes blocks.flatten)))

/-- MB.ENC.BLM (R264, R265): a record that fits is laid out as 30_encoding.md R100 to R104 say, reserved bits zero, with the
block length the flags and the mask determine, at most 43; any other record is refused. -/
def Obligations.BlmEncodesItsLayout : Prop :=
  Selects 0x62 (fun a => .mbEncBlm a.record) ∧
  ∀ (s : State) (r : BlmRecord),
    (blmFits r → blmBlockLength r ≤ 43 ∧ (blmLayout r 0).length + 2 = blmBlockLength r ∧
      EndsOnly (.mbEncBlm r) s
        (.ok (.bytes ([BitVec.ofNat 8 (blmBlockLength r), s.params.btBlm] ++ blmLayout r 0)))) ∧
    (¬ blmFits r → EndsOnly (.mbEncBlm r) s (.refused .illFormedRecord))

/-- Decode after encode (R268 item 1): MB.DEC of what an encoder makes is the operand it was given. -/
def Obligations.BlockDecodesAfterEncode : Prop :=
  ∀ (s : State) (b : Bytes), blockTypesDiffer s.params →
    (∀ order params, EndsOnly (.mbEncWrapper order params) s (.ok (.bytes b)) →
      EndsOnly (.mbDec b) s (.ok (.block (.wrapper order params)))) ∧
    (∀ ticks, EndsOnly (.mbEncDelay ticks) s (.ok (.bytes b)) →
      EndsOnly (.mbDec b) s (.ok (.block (.delay ticks (ticks * 10))))) ∧
    (∀ index, EndsOnly (.mbEncToolhead index) s (.ok (.bytes b)) →
      EndsOnly (.mbDec b) s (.ok (.block (.toolhead index)))) ∧
    (∀ r, EndsOnly (.mbEncBlm r) s (.ok (.bytes b)) → EndsOnly (.mbDec b) s (.ok (.block (.blm r)))) ∧
    ∀ typ body, typ ∉ [s.params.btWrapper, s.params.btDelay, s.params.btBlm, s.params.btToolhead] →
      EndsOnly (.mbEncRaw typ body) s (.ok (.bytes b)) → EndsOnly (.mbDec b) s (.ok (.block (.unknown typ b)))

/-- Encode after decode (R268 item 2): re-encoding what MB.DEC made of a block gives the block back, for a BLM with the three
reserved bits of its packing byte cleared. -/
def Obligations.BlockReencodesAfterDecode : Prop :=
  ∀ (s : State) (b : Bytes) (blk : Block), EndsOnly (.mbDec b) s (.ok (.block blk)) →
    (∀ order params, blk = .wrapper order params → EndsOnly (.mbEncWrapper order params) s (.ok (.bytes b))) ∧
    (∀ ticks micros, blk = .delay ticks micros → EndsOnly (.mbEncDelay ticks) s (.ok (.bytes b))) ∧
    (∀ index, blk = .toolhead index → EndsOnly (.mbEncToolhead index) s (.ok (.bytes b))) ∧
    (∀ typ raw, blk = .unknown typ raw → raw = b ∧ EndsOnly (.mbEncRaw typ (b.drop 2)) s (.ok (.bytes b))) ∧
    ∀ r, blk = .blm r →
      let i := if r.wideMask then 6 else 4
      EndsOnly (.mbEncBlm r) s (.ok (.bytes (b.set i (b.getD i 0 &&& 0x1F))))

/-- Scan after pack (R268 item 3), and what a complete scan says of its area (R243): the area is the concatenation of whole
blocks, in order, whose decodings are the list. -/
def Obligations.ScanAndPack : Prop :=
  ∀ (s : State),
    (∀ (blocks : List Bytes) (decoded : List Block) (a : Bytes), EndsOnly (.mbPack blocks) s (.ok (.bytes a)) →
      List.Forall₂ (fun b blk => EndsOnly (.mbDec b) s (.ok (.block blk))) blocks decoded →
        ScansTo s a decoded .complete) ∧
    ∀ (a : Bytes) (decoded : List Block), ScansTo s a decoded .complete →
      ∃ blocks : List Bytes, blocks.flatten = a ∧ (∀ b ∈ blocks, IsBlock b) ∧
        List.Forall₂ (fun b blk => EndsOnly (.mbDec b) s (.ok (.block blk))) blocks decoded

/-- The motion-block codec has no state and no side effects (44_motion_decode.md R244): what an operation of it ends with depends
on its operands and the four block types alone, and it changes nothing. -/
def Obligations.MotionCodecIsPure : Prop :=
  ∀ (i : Instr) (wrapper delay blm toolhead : Byte), isMotionOp i = true →
    ∃ o : OpOutcome, ∀ s : State, s.params.btWrapper = wrapper → s.params.btDelay = delay → s.params.btBlm = blm →
      s.params.btToolhead = toolhead → EndsOnly i s o

/-! ## The catalog and the value helpers -/

/-- CAT.ORDER, CAT.REPLY, ERR.REASON (46_catalog_helpers.md R291 to R294, R297): each known code gives its entry, every other code
the explicit marker with the raw byte. The codes the document leaves open are parameters (log 13, log 15); with the spec's
numbering of the sub-reasons, `v` from 1 to 10 gives the `v`-th of the list and any other byte the marker (R112, R294). -/
def Obligations.CatalogLookups : Prop :=
  Selects 0x70 (fun a => .catOrder a.byte0) ∧ Selects 0x71 (fun a => .catReply a.byte0) ∧
  Selects 0x72 (fun a => .errReason a.byte0) ∧
  ∀ (s : State) (code : Byte), s.params.wellFormed = true →
    EndsOnly (.catOrder 0x00) s (.ok (.order (.known ⟨.resume, .byte, s.params.minReplyResume⟩))) ∧
    EndsOnly (.catOrder s.params.orderQueueCommandBlocks) s
      (.ok (.order (.known ⟨.queueCommandBlocks, .general, s.params.minReplyQueueCommandBlocks⟩))) ∧
    EndsOnly (.catOrder s.params.orderWriteFirmwareConfiguration) s
      (.ok (.order (.known
        ⟨.writeFirmwareConfiguration, .general, s.params.minReplyWriteFirmwareConfiguration⟩))) ∧
    (∀ e, (code, e) ∈ s.params.moreOrders → EndsOnly (.catOrder code) s (.ok (.order (.known e)))) ∧
    (code ∉ [0x00, s.params.orderQueueCommandBlocks, s.params.orderWriteFirmwareConfiguration] ++
        s.params.moreOrders.map Prod.fst →
      EndsOnly (.catOrder code) s (.ok (.order (.unrecognized code)))) ∧
    EndsOnly (.catReply 0x10) s (.ok (.replyEntry (.known ⟨.ok, .noSub⟩))) ∧
    EndsOnly (.catReply 0x11) s (.ok (.replyEntry (.known ⟨.genericApplicationError, .errReason⟩))) ∧
    EndsOnly (.catReply s.params.replyStopped) s (.ok (.replyEntry (.known ⟨.stopped, .stopped⟩))) ∧
    (∀ e, (code, e) ∈ s.params.moreReplies → EndsOnly (.catReply code) s (.ok (.replyEntry (.known e)))) ∧
    (code ∉ [0x10, 0x11, s.params.replyStopped] ++ s.params.moreReplies.map Prod.fst →
      EndsOnly (.catReply code) s (.ok (.replyEntry (.unrecognized code)))) ∧
    EndsOnly (.errReason 0x03) s (.ok (.reason (.known .badParameterValue))) ∧
    (∀ x, Names (subReasonCodes s.params) subReasonList code x → EndsOnly (.errReason code) s (.ok (.reason x))) ∧
    (s.params.otherSubReasons = #v[0x01, 0x02, 0x04, 0x05, 0x06, 0x07, 0x08, 0x09, 0x0A] →
      (∀ (n : Nat) (r : SubReason), subReasonList[n]? = some r → code.toNat = n + 1 →
        EndsOnly (.errReason code) s (.ok (.reason (.known r)))) ∧
      (code.toNat = 0 ∨ 10 < code.toNat → EndsOnly (.errReason code) s (.ok (.reason (.unrecognized code)))))

/-- STOPPED.DEC, BE.UINT, TEXT (R295, R305, R306): what is there is decoded, what is missing is flagged, nothing is read out of
bounds, for every operand. A recovery or cause byte with the code of a member is that member and any other byte the marker (R113),
which leaves one value for each byte where the parameters are well formed. That a count of 0 beyond the buffer flags no mismatch
is what R305 says, against the derived R307; following R305 is the model's reading (log 24). -/
def Obligations.StoppedAndHelpers : Prop :=
  Selects 0x73 (fun a => .stoppedDec a.bytes) ∧ Selects 0x74 (fun a => .beUint a.bytes a.nat0 a.nat1) ∧
  Selects 0x75 (fun a => .text a.bytes a.nat0 a.nat1) ∧
  ∀ (s : State) (r c : Byte) (reason pre mid post : Bytes) (off cnt : Nat),
    EndsOnly (.stoppedDec []) s (.ok (.stopped ⟨none, none, [], true⟩)) ∧
    (∃ x y, Names s.params.stopRecovery.toList recoveryList r x ∧ Names s.params.stopCause.toList causeList c y ∧
      EndsOnly (.stoppedDec [r]) s (.ok (.stopped ⟨some x, none, [], true⟩)) ∧
      EndsOnly (.stoppedDec (r :: c :: reason)) s (.ok (.stopped ⟨some x, some y, reason, false⟩))) ∧
    (s.params.wellFormed = true → ∀ x y, Names s.params.stopRecovery.toList recoveryList r x →
      Names s.params.stopCause.toList causeList c y →
      EndsOnly (.stoppedDec [r]) s (.ok (.stopped ⟨some x, none, [], true⟩)) ∧
      EndsOnly (.stoppedDec (r :: c :: reason)) s (.ok (.stopped ⟨some x, some y, reason, false⟩))) ∧
    (let n := ((List.range mid.length).map (fun k => (mid.getD k 0).toNat * 256 ^ (mid.length - 1 - k))).sum
     EndsOnly (.beUint (pre ++ mid ++ post) pre.length mid.length) s (.ok (.uint n false)) ∧
     EndsOnly (.text (pre ++ mid ++ post) pre.length mid.length) s (.ok (.text mid false)) ∧
     (mid.length < cnt →
      EndsOnly (.beUint (pre ++ mid) pre.length cnt) s (.ok (.uint n true)) ∧
      EndsOnly (.text (pre ++ mid) pre.length cnt) s (.ok (.text mid true)))) ∧
    (pre.length < off → EndsOnly (.beUint pre off cnt) s (.ok (.uint 0 (decide (cnt ≠ 0)))) ∧
      EndsOnly (.text pre off cnt) s (.ok (.text [] (decide (cnt ≠ 0)))))

/-! ## The data-format rows of the table, each word handed to the unit that decodes it (the model's choice, log 4) -/

/-- The frame and control-byte rows: a request is a bad sync, a response is accepted when its nibble is `SEQ` and else a bad
sequence, a debug frame is one whatever its nibble; the reserved bits do not matter (30_encoding.md R81, R82, R87, R88, R92,
R107). The model's choice of what running a format row does is log 4. -/
def Obligations.FrameAndControlWords : Prop :=
  ∀ (s : State) (reserved : BitVec 3) (sq : Nibble) (code : Byte) (params : Bytes) (debug : Bool), params.length ≤ 253 →
    exec (.req sq code params) s = .next
      { s with rxStat := .rejected .badSync, outcome := some (.noFrame .badSync) } ∧
    exec (.rsp reserved sq code params) s = .next (
      if sq = s.seq then { s with rxStat := .accepted, outcome := some (.ok (.reply code params)) }
      else { s with rxStat := .rejected .badSeq, outcome := some (.noFrame .badSeq) }) ∧
    exec (.dbg reserved sq code params) s = .next { s with rxStat := .debug, outcome := some (.ok .debug) } ∧
    EndsOnly (.ctrlReq sq) s (.ok (.control false sq)) ∧
    EndsOnly (.ctrlRsp debug reserved sq) s (.ok (.control debug sq))

/-- The block rows: each decodes to its own variant with every field it was given (R94 to R106; log 4). -/
def Obligations.BlockWords : Prop :=
  ∀ s : State, blockTypesDiffer s.params →
    (∀ (bl t : Byte), EndsOnly (.blockHeader bl t) s (
      if bl.toNat < 2 then .ok (.block (.malformed .lengthTooSmall [bl, t]))
      else .ok (.header bl.toNat (
        if t = s.params.btWrapper then .wrapper else if t = s.params.btDelay then .delay
        else if t = s.params.btBlm then .blm else if t = s.params.btToolhead then .toolhead else .unknown)))) ∧
    (∀ order params, params.length ≤ 252 → EndsOnly (.wrap order params) s (.ok (.block (.wrapper order params)))) ∧
    (∀ ticks : BitVec 16, EndsOnly (.delay ticks) s (.ok (.block (.delay ticks.toNat (ticks.toNat * 10))))) ∧
    (∀ index, EndsOnly (.toolhead index) s (.ok (.block (.toolhead index)))) ∧
    (∀ body, blmFits ⟨false, false, body⟩ → EndsOnly (.blmNN body) s (.ok (.block (.blm ⟨false, false, body⟩)))) ∧
    (∀ body, blmFits ⟨false, true, body⟩ → EndsOnly (.blmNW body) s (.ok (.block (.blm ⟨false, true, body⟩)))) ∧
    (∀ body, blmFits ⟨true, false, body⟩ → EndsOnly (.blmWN body) s (.ok (.block (.blm ⟨true, false, body⟩)))) ∧
    (∀ body, blmFits ⟨true, true, body⟩ → EndsOnly (.blmWW body) s (.ok (.block (.blm ⟨true, true, body⟩)))) ∧
    ∀ typ body, typ ∉ [s.params.btWrapper, s.params.btDelay, s.params.btBlm, s.params.btToolhead] → body.length ≤ 253 →
      EndsOnly (.unknown typ body) s (.ok (.block (.unknown typ ([BitVec.ofNat 8 (body.length + 2), typ] ++ body))))

/-- The code rows and the STOPPED payload: each code looks up to the member it names (R110 to R113; log 4). -/
def Obligations.CodeWords : Prop :=
  ∀ (s : State) (recovery cause : Byte) (reason : Bytes), s.params.wellFormed = true →
    EndsOnly .orderResume s (.ok (.order (.known ⟨.resume, .byte, s.params.minReplyResume⟩))) ∧
    EndsOnly .orderQueueCommandBlocks s
      (.ok (.order (.known ⟨.queueCommandBlocks, .general, s.params.minReplyQueueCommandBlocks⟩))) ∧
    EndsOnly .orderWriteFirmwareConfiguration s
      (.ok (.order (.known
        ⟨.writeFirmwareConfiguration, .general, s.params.minReplyWriteFirmwareConfiguration⟩))) ∧
    EndsOnly .replyOk s (.ok (.replyEntry (.known ⟨.ok, .noSub⟩))) ∧
    EndsOnly .replyGenericApplicationError s (.ok (.replyEntry (.known ⟨.genericApplicationError, .errReason⟩))) ∧
    EndsOnly .replyStopped s (.ok (.replyEntry (.known ⟨.stopped, .stopped⟩))) ∧
    EndsOnly .subUnknownOrder s (.ok (.reason (.known .unknownOrder))) ∧
    EndsOnly .subBadParameterFormat s (.ok (.reason (.known .badParameterFormat))) ∧
    EndsOnly .subBadParameterValue s (.ok (.reason (.known .badParameterValue))) ∧
    EndsOnly .subInvalidDeviceType s (.ok (.reason (.known .invalidDeviceType))) ∧
    EndsOnly .subInvalidDeviceNumber s (.ok (.reason (.known .invalidDeviceNumber))) ∧
    EndsOnly .subIncorrectMode s (.ok (.reason (.known .incorrectMode))) ∧
    EndsOnly .subBusy s (.ok (.reason (.known .busy))) ∧
    EndsOnly .subFailed s (.ok (.reason (.known .failed))) ∧
    EndsOnly .subFirmwareError s (.ok (.reason (.known .firmwareError))) ∧
    EndsOnly .subCannotActivateDevice s (.ok (.reason (.known .cannotActivateDevice))) ∧
    ∀ x y, Names s.params.stopRecovery.toList recoveryList recovery x →
      Names s.params.stopCause.toList causeList cause y →
      EndsOnly (.stoppedPayload recovery cause reason) s (.ok (.stopped ⟨some x, some y, reason, false⟩))

/-! ## A failed session -/

/-- A session that has failed stays so and the Transport is not called, until SESSION.OPEN (10_state.md R22, 20_memory.md R59,
47_session.md R312, D34; log 21 where SESSION.CLOSE is concerned): neither line stream, no schedule and no record of calls
changes. -/
def Obligations.FailedUntilOpened : Prop :=
  ∀ (i : Instr) (s t : State), s.session = .failed → exec i s = .next t → (∀ d, i ≠ .sessionOpen d) →
    t.session = .failed ∧ t.line = s.line

end
end

