-- ==== Sys2Proof/Laws/Blocks.lean ====
section
/-! SUPPORT. The BLM layout: a record that fits and its bytes determine each other, whatever follows the bytes. -/

namespace Sys2Proof.Machine

/-! ## Whole blocks -/

theorem isWholeBlock_iff (b : Bytes) : isWholeBlock b = true ↔ IsBlock b := by
  rcases b with _ | ⟨bl, _ | ⟨t, body⟩⟩
  · simp [isWholeBlock, IsBlock]
  · simp [isWholeBlock, IsBlock]
  · simp [isWholeBlock, IsBlock, byteAt]

/-- What a decode operation ends with (44_motion_decode.md R224). -/
theorem decodeOne_cases (dec : Bytes → Block) (b : Bytes) (s : State) :
    (IsBlock b ∧ decodeOne dec b s = succeed s (.block (dec b))) ∨
    (¬ IsBlock b ∧ decodeOne dec b s = refuse s .blockOperand) := by
  by_cases h : isWholeBlock b = true
  · exact .inl ⟨(isWholeBlock_iff b).1 h, by rw [decodeOne, if_pos h]⟩
  · exact .inr ⟨fun x => h ((isWholeBlock_iff b).2 x), by rw [decodeOne, if_neg h]⟩

/-! ## Fields -/

theorem takeField_some {w : Nat} {rest a b : Bytes} : takeField w rest = some (a, b) ↔ rest = a ++ b ∧ a.length = w := by
  unfold takeField
  split
  · constructor
    · nofun
    · rintro ⟨rfl, h⟩
      simp at *
      omega
  · constructor
    · intro h
      cases h
      exact ⟨(List.take_append_drop ..).symm, by simp; omega⟩
    · rintro ⟨rfl, rfl⟩
      simp

theorem takeField_append (a b : Bytes) : takeField a.length (a ++ b) = some (a, b) := takeField_some.2 ⟨rfl, rfl⟩

theorem leadValue_append : ∀ (flag : Bool) (x : BitVec 7), leadValue (BitVec.ofBool flag ++ x : BitVec 8) = x.toNat := by
  decide +kernel

theorem leadFlag_append : ∀ (flag : Bool) (x : BitVec 7), leadFlag (BitVec.ofBool flag ++ x : BitVec 8) = flag := by
  decide +kernel

theorem lead_split : ∀ b : Byte, b = (BitVec.ofBool (leadFlag b) ++ BitVec.ofNat 7 (leadValue b) : BitVec 8) := by
  decide +kernel

theorem pack_fields : ∀ (reserved : BitVec 3) (homing : Bool) (primary : BitVec 4),
    packPrimary (reserved ++ BitVec.ofBool homing ++ primary : BitVec 8) = primary.toNat ∧
    packHoming (reserved ++ BitVec.ofBool homing ++ primary : BitVec 8) = homing := by decide +kernel

theorem pack_split : ∀ b : Byte,
    b = (b.extractLsb' 5 3 ++ BitVec.ofBool (packHoming b) ++ BitVec.ofNat 4 (packPrimary b) : BitVec 8) := by
  decide +kernel

@[simp] theorem maskLayout_length (wide flag : Bool) (v : Nat) : (maskLayout wide flag v).length = fieldWidth wide := by
  cases wide <;> rfl

@[simp] theorem stepLayout_length (wide : Bool) (v : Nat) : (stepLayout wide v).length = fieldWidth wide := by
  cases wide <;> rfl

theorem leadFlag_maskLayout (wide flag : Bool) (v : Nat) (rest : Bytes) :
    leadFlag (byteAt (maskLayout wide flag v ++ rest) 0) = flag := by
  cases wide <;> simp [maskLayout, byteAt, leadFlag_append]

theorem maskValue_maskLayout {wide : Bool} (flag : Bool) {v : Nat} (h : v < if wide then 32768 else 128) :
    maskValue (maskLayout wide flag v) = v := by
  cases wide
  · have h : v < 128 := h
    simp [maskLayout, maskValue, leadValue_append]
    omega
  · have h : v < 32768 := h
    simp [maskLayout, maskValue, leadValue_append]
    omega

theorem beNat_stepLayout {wide : Bool} {v : Nat} (h : v < if wide then 65536 else 256) : beNat (stepLayout wide v) = v := by
  cases wide
  · have h : v < 256 := h
    simp [stepLayout, beNat]
    omega
  · have h : v < 65536 := h
    simp [stepLayout, beNat]
    omega

/-- A mask field read back: its bytes are its layout, and its value fits. -/
theorem mask_of_field {wide : Bool} {field : Bytes} (h : field.length = fieldWidth wide) (rest : Bytes) :
    field = maskLayout wide (leadFlag (byteAt (field ++ rest) 0)) (maskValue field) ∧
    maskValue field < if wide then 32768 else 128 := by
  cases wide
  · obtain ⟨a, rfl⟩ := List.length_eq_one_iff.1 h
    refine ⟨?_, ?_⟩
    · simp [maskLayout, maskValue, byteAt]
      exact lead_split a
    · simp [maskValue, leadValue]
      omega
  · obtain ⟨a, b, rfl⟩ := List.length_eq_two.1 h
    have hb := b.isLt
    refine ⟨?_, ?_⟩
    · have : (leadValue a * 256 + b.toNat) / 256 = leadValue a := by omega
      simp only [maskLayout, maskValue, byteAt, List.foldl, this, if_true]
      congr 1
      · exact lead_split a
      · congr 1
        apply BitVec.eq_of_toNat_eq
        simp
        omega
    · simp only [maskValue, leadValue, List.foldl, if_true]
      omega

/-- A step field read back. -/
theorem step_of_field {wide : Bool} {field : Bytes} (h : field.length = fieldWidth wide) :
    field = stepLayout wide (beNat field) ∧ beNat field < if wide then 65536 else 256 := by
  cases wide
  · obtain ⟨a, rfl⟩ := List.length_eq_one_iff.1 h
    have := a.isLt
    refine ⟨?_, ?_⟩
    · simp [stepLayout, beNat]
    · simp [beNat]
      omega
  · obtain ⟨a, b, rfl⟩ := List.length_eq_two.1 h
    have ha := a.isLt
    have hb := b.isLt
    refine ⟨?_, ?_⟩
    · simp only [stepLayout, beNat, List.foldl, if_true]
      congr 1
      · apply BitVec.eq_of_toNat_eq
        simp
        omega
      · congr 1
        apply BitVec.eq_of_toNat_eq
        simp
        omega
    · simp only [beNat, List.foldl, if_true]
      omega

/-! ## The step list -/

theorem decodeSteps_append {wide : Bool} (dir : Nat) (steps : List AxisStep) (rest : Bytes)
    (hc : ∀ t ∈ steps, t.count < if wide then 65536 else 256) (hd : ∀ t ∈ steps, t.direction = dir.testBit t.axis) :
    decodeSteps (fieldWidth wide) dir (steps.map AxisStep.axis)
      (steps.flatMap (fun t => stepLayout wide t.count) ++ rest) = some (steps, rest) := by
  induction steps with
  | nil => rfl
  | cons t steps ih =>
    have ht := hc t (List.mem_cons_self ..)
    have hdt := hd t (List.mem_cons_self ..)
    have hf := takeField_append (stepLayout wide t.count) (steps.flatMap (fun t => stepLayout wide t.count) ++ rest)
    rw [stepLayout_length] at hf
    simp only [List.map_cons, List.flatMap_cons, List.append_assoc, decodeSteps, hf]
    rw [ih (fun t h => hc t (List.mem_cons_of_mem _ h)) (fun t h => hd t (List.mem_cons_of_mem _ h))]
    simp only [beNat_stepLayout ht, ← hdt]

theorem decodeSteps_some {wide : Bool} {dir : Nat} {ks : List Nat} {body rest : Bytes} {steps : List AxisStep}
    (h : decodeSteps (fieldWidth wide) dir ks body = some (steps, rest)) :
    body = steps.flatMap (fun t => stepLayout wide t.count) ++ rest ∧ steps.map AxisStep.axis = ks ∧
    (∀ t ∈ steps, t.count < if wide then 65536 else 256) ∧ ∀ t ∈ steps, t.direction = dir.testBit t.axis := by
  induction ks generalizing body steps with
  | nil =>
    cases h
    exact ⟨rfl, rfl, nofun, nofun⟩
  | cons k ks ih =>
    simp only [decodeSteps] at h
    split at h
    · cases h
    rename_i field rest₁ hf
    split at h
    · cases h
    rename_i steps₁ rest₂ hs
    cases h
    obtain ⟨rfl, hw⟩ := takeField_some.1 hf
    obtain ⟨hb, hm, hc, hd⟩ := ih hs
    obtain ⟨hl, hlt⟩ := step_of_field hw
    refine ⟨?_, by simp [hm], ?_, ?_⟩
    · rw [List.flatMap_cons, List.append_assoc, ← hl, ← hb]
    · rintro t (_ | ⟨_, ht⟩)
      · exact hlt
      · exact hc t ht
    · rintro t (_ | ⟨_, ht⟩)
      · rfl
      · exact hd t ht

/-! ## The record -/

/-- The bytes of a record that fits decode to it, and what follows them is left over (44_motion_decode.md R230 to R236). -/
theorem decodeBlmFields_layout (r : BlmRecord) (reserved : BitVec 3) (rest : Bytes) (h : blmFits r) :
    decodeBlmFields (blmLayout r reserved ++ rest) = some (r, rest) := by
  obtain ⟨⟨hsel, hdir⟩, ⟨hacc, hdec, hcount⟩, ⟨hprim, hnom, hend⟩, haxes, hdirs⟩ := h
  have f1 (w f : Bool) (v : Nat) (x : Bytes) : takeField (fieldWidth w) (maskLayout w f v ++ x) = some (maskLayout w f v, x) :=
    takeField_some.2 ⟨rfl, by simp⟩
  have f2 (w : Bool) (v : Nat) (x : Bytes) : takeField (fieldWidth w) (stepLayout w v ++ x) = some (stepLayout w v, x) :=
    takeField_some.2 ⟨rfl, by simp⟩
  have f3 (a : Byte) (x : Bytes) : takeField 1 (a :: x) = some ([a], x) := takeField_some.2 ⟨rfl, rfl⟩
  have f4 (a b : Byte) (x : Bytes) : takeField 2 (a :: b :: x) = some ([a, b], x) := takeField_some.2 ⟨rfl, rfl⟩
  have hs : decodeSteps (fieldWidth r.wideSteps) r.body.dir (selectedAxes r.body.sel)
      (r.body.steps.flatMap (fun t => stepLayout r.wideSteps t.count) ++ rest) = some (r.body.steps, rest) := by
    rw [selectedAxes, ← haxes]
    exact decodeSteps_append _ _ _ hcount hdirs
  simp only [blmLayout, decodeBlmFields, List.append_assoc, leadFlag_maskLayout, f1, f2, f3, f4, List.cons_append,
    List.nil_append, Option.bind_eq_bind, Option.bind_some, maskValue_maskLayout _ hsel, maskValue_maskLayout _ hdir, hs,
    beNat_stepLayout hacc, beNat_stepLayout hdec]
  have hp := pack_fields reserved r.body.homing (BitVec.ofNat 4 r.body.primary)
  simp only [byteAt, List.getD_cons_zero, hp, BitVec.toNat_ofNat, Nat.mod_eq_of_lt hprim, List.getD_cons_succ,
    Nat.mod_eq_of_lt hnom, Nat.mod_eq_of_lt hend]

/-- What decodes to a record is the bytes of that record, which fits, with something left over or nothing. -/
theorem decodeBlmFields_some {body rest : Bytes} {r : BlmRecord} (h : decodeBlmFields body = some (r, rest)) :
    blmFits r ∧ ∃ reserved, body = blmLayout r reserved ++ rest := by
  simp only [decodeBlmFields, Option.bind_eq_bind, Option.bind_eq_some_iff, Prod.exists] at h
  obtain ⟨sel, r1, h1, dir, r2, h2, pack, r3, h3, speeds, r4, h4, acc, r5, h5, dec, r6, h6, steps, r7, h7, h8⟩ := h
  cases h8
  obtain ⟨rfl, w1⟩ := takeField_some.1 h1
  obtain ⟨rfl, w2⟩ := takeField_some.1 h2
  obtain ⟨rfl, w3⟩ := takeField_some.1 h3
  obtain ⟨rfl, w4⟩ := takeField_some.1 h4
  obtain ⟨rfl, w5⟩ := takeField_some.1 h5
  obtain ⟨rfl, w6⟩ := takeField_some.1 h6
  obtain ⟨a, rfl⟩ := List.length_eq_one_iff.1 w3
  obtain ⟨n, e, rfl⟩ := List.length_eq_two.1 w4
  obtain ⟨hb, haxes, hcount, hdirs⟩ := decodeSteps_some h7
  obtain ⟨hsel, bsel⟩ := mask_of_field w1 (dir ++ ([a] ++ ([n, e] ++ (acc ++ (dec ++ r6)))))
  obtain ⟨hdir, bdir⟩ := mask_of_field w2 ([a] ++ ([n, e] ++ (acc ++ (dec ++ r6))))
  obtain ⟨hacc, bacc⟩ := step_of_field w5
  obtain ⟨hdec, bdec⟩ := step_of_field w6
  refine ⟨⟨⟨bsel, bdir⟩, ⟨bacc, bdec, hcount⟩, ⟨?_, ?_, ?_⟩, haxes, hdirs⟩, a.extractLsb' 5 3, ?_⟩
  · simp only [packPrimary]
    omega
  · exact n.isLt
  · exact e.isLt
  · have hp := pack_split a
    have hn : BitVec.ofNat 8 (byteAt [n, e] 0).toNat = n := by simp [byteAt]
    have he : BitVec.ofNat 8 (byteAt [n, e] 1).toNat = e := by simp [byteAt]
    have ha : byteAt [a] 0 = a := rfl
    simp only [blmLayout, List.append_assoc, hn, he, ha]
    rw [← hsel, ← hdir, ← hacc, ← hdec, ← hp, ← hb]
    rfl

/-- A record is well formed when it fits (45_motion_encode.md R264). -/
theorem blmWellFormed_iff (r : BlmRecord) : blmWellFormed r = true ↔ blmFits r := by
  simp only [blmWellFormed, blmFits, selectedAxes, Bool.and_eq_true, decide_eq_true_eq, List.all_eq_true, beq_iff_eq]
  tauto

/-- What the encoder lays out is the layout of R100 with reserved bits zero. -/
theorem blmBodyBytes_layout (r : BlmRecord) (h : blmFits r) : blmBodyBytes r = blmLayout r 0 := by
  obtain ⟨⟨hsel, hdir⟩, -, ⟨hprim, -, -⟩, -⟩ := h
  have mask (w f : Bool) (v : Nat) (h : v < if w then 32768 else 128) : encodeMask w f v = maskLayout w f v := by
    have key : ∀ x : BitVec 7, (BitVec.ofBool f ++ x : BitVec 8) = BitVec.ofNat 8 ((if f then 128 else 0) + x.toNat) := by
      cases f <;> decide +kernel
    cases w
    · have h : v < 128 := h
      simp [encodeMask, maskLayout, key, Nat.mod_eq_of_lt h]
    · have h : v < 32768 := h
      have h' : v / 256 < 128 := by omega
      simp [encodeMask, maskLayout, key, Nat.mod_eq_of_lt h']
  have step (w : Bool) (v : Nat) : bytesBe (fieldWidth w) v = stepLayout w v := by cases w <;> rfl
  have pack : ∀ (h : Bool) (x : BitVec 4), ((0 : BitVec 3) ++ BitVec.ofBool h ++ x : BitVec 8) =
      BitVec.ofNat 8 ((if h then 16 else 0) + x.toNat) := by decide +kernel
  simp only [blmBodyBytes, blmLayout, mask _ _ _ hsel, mask _ _ _ hdir, step, pack, BitVec.toNat_ofNat,
    Nat.mod_eq_of_lt hprim]

/-- How long the layout is (30_encoding.md R104). -/
theorem blmLayout_length (r : BlmRecord) (reserved : BitVec 3) (h : blmFits r) :
    (blmLayout r reserved).length + 2 = blmBlockLength r := by
  have hl : (r.body.steps.flatMap (fun t => stepLayout r.wideSteps t.count)).length =
      fieldWidth r.wideSteps * r.body.steps.length := by
    simp [List.length_flatMap, Nat.mul_comm]
  have hs : r.body.steps.length = ((List.range 16).filter (fun k => r.body.sel.testBit k)).length := by
    rw [← h.2.2.2.1, List.length_map]
  simp only [blmLayout, List.length_append, maskLayout_length, stepLayout_length, hl, hs, blmBlockLength, fieldWidth,
    List.length_cons, List.length_nil]
  omega

end Sys2Proof.Machine
end

