-- ==== Sys2Proof/Laws/Codes.lean ====
section
/-! SUPPORT. The code tables: a lookup names its byte, and in a table whose codes differ it is the only one that does. -/

namespace Sys2Proof.Machine

/-! ## Lookups -/

/-- A lookup names the byte it is given (46_catalog_helpers.md R293, R295). -/
theorem lookup_names {codes : List Byte} {ms : List α} (hl : codes.length = ms.length) (v : Byte) :
    Names codes ms v (lookupCode (codes.zip ms) v) := by
  induction codes generalizing ms with
  | nil => exact .inr ⟨by simp, rfl⟩
  | cons c cs ih =>
    cases ms with
    | nil => simp at hl
    | cons m ms =>
      by_cases h : v = c
      · subst h
        refine .inl ⟨m, by simp, ?_⟩
        simp [lookupCode]
      · have h' : lookupCode ((c :: cs).zip (m :: ms)) v = lookupCode (cs.zip ms) v := by
          simp [lookupCode, List.lookup, beq_false_of_ne h]
        rw [h']
        rcases ih (ms := ms) (by simpa using hl) with ⟨m', hm, he⟩ | ⟨hm, he⟩
        · exact .inl ⟨m', by simp [hm], he⟩
        · exact .inr ⟨by simp [h, hm], he⟩

/-- Where the codes are pairwise different, a byte stands for one thing. -/
theorem names_unique {codes : List Byte} {ms : List α} (hn : codes.Nodup) {v : Byte} {x y : Lookup α}
    (hx : Names codes ms v x) (hy : Names codes ms v y) : x = y := by
  rcases hx with ⟨m, hm, rfl⟩ | ⟨hm, rfl⟩
  · rcases hy with ⟨m', hm', rfl⟩ | ⟨hm', rfl⟩
    · congr 1
      induction codes generalizing ms with
      | nil => simp at hm
      | cons c cs ih =>
        cases ms with
        | nil => simp at hm
        | cons a ms =>
          simp only [List.zip_cons_cons, List.mem_cons, Prod.mk.injEq] at hm hm'
          have hn' := List.nodup_cons.1 hn
          rcases hm with ⟨rfl, rfl⟩ | hm
          · rcases hm' with ⟨-, rfl⟩ | hm'
            · rfl
            · exact absurd (List.of_mem_zip hm').1 hn'.1
          · rcases hm' with ⟨rfl, rfl⟩ | hm'
            · exact absurd (List.of_mem_zip hm).1 hn'.1
            · exact ih hn'.2 hm hm'
    · exact absurd (List.of_mem_zip hm).1 hm'
  · rcases hy with ⟨m', hm', rfl⟩ | ⟨hm', rfl⟩
    · exact absurd (List.of_mem_zip hm').1 hm
    · rfl

/-! ## The code tables -/

theorem toList_three (v : Vector Byte 3) : v.toList = [v[0], v[1], v[2]] := by
  apply List.ext_getElem
  · simp
  intro i h1 h2
  simp at h1
  rcases i with _|_|_|i <;> first | rfl | omega

theorem toList_nine (v : Vector Byte 9) : v.toList = [v[0], v[1], v[2], v[3], v[4], v[5], v[6], v[7], v[8]] := by
  apply List.ext_getElem
  · simp
  intro i h1 h2
  simp at h1
  rcases i with _|_|_|_|_|_|_|_|_|i <;> first | rfl | omega

theorem toList_ten (v : Vector Byte 10) : v.toList = [v[0], v[1], v[2], v[3], v[4], v[5], v[6], v[7], v[8], v[9]] := by
  apply List.ext_getElem
  · simp
  intro i h1 h2
  simp at h1
  rcases i with _|_|_|_|_|_|_|_|_|_|i <;> first | rfl | omega

theorem recoveryTable_zip (p : Params) : recoveryTable p = p.stopRecovery.toList.zip recoveryList := by rw [toList_three]; rfl

theorem causeTable_zip (p : Params) : causeTable p = p.stopCause.toList.zip causeList := by rw [toList_ten]; rfl

theorem subReasonTable_zip (p : Params) : subReasonTable p = (subReasonCodes p).zip subReasonList := by rw [subReasonCodes, toList_nine]; rfl

/-- What well-formed parameters say of the codes. -/
theorem wellFormed_parts {p : Params} (h : p.wellFormed = true) :
    ([orderResumeCode, p.orderQueueCommandBlocks, p.orderWriteFirmwareConfiguration] ++ p.moreOrders.map Prod.fst).Nodup ∧
    ([replyOkCode, replyGenericApplicationErrorCode, p.replyStopped] ++ p.moreReplies.map Prod.fst).Nodup ∧
    (subReasonCodes p).Nodup ∧ p.stopRecovery.toList.Nodup ∧ p.stopCause.toList.Nodup := by
  simp only [Params.wellFormed, Bool.and_eq_true, decide_eq_true_eq] at h
  obtain ⟨⟨⟨⟨⟨⟨⟨-, h1⟩, h2⟩, h3⟩, h4⟩, h5⟩, -⟩, -⟩ := h
  refine ⟨h1, h2, ?_, h4, h5⟩
  rw [toList_nine] at h3
  rw [subReasonCodes, toList_nine]
  exact (List.perm_middle (l₁ := [_, _])).nodup_iff.2 h3

end Sys2Proof.Machine
end

