-- ==== Sys2Proof/Laws/Memory.lean ====
section
/-! SUPPORT. The laws of the byte spaces: read after write, the canonical form, and the spaces whose indices with a value
are exactly `0 .. n-1`. -/

namespace Sys2Proof.Machine

/-! ## Read after write -/

theorem read_write_same (m : Memory) (a : Nat) (b : Byte) : (m.write a b).read a = some b := by
  induction m with
  | nil => simp [Memory.write, Memory.read]
  | cons kv rest ih =>
    obtain ⟨k, v⟩ := kv
    simp only [Memory.write]
    split
    · simp [Memory.read]
    · split
      · simp [Memory.read]
      · rename_i hne
        simp [Memory.read, Ne.symm hne, ih]

theorem read_write_other (m : Memory) {a c : Nat} (b : Byte) (h : c ≠ a) :
    (m.write a b).read c = m.read c := by
  induction m with
  | nil => simp [Memory.write, Memory.read, Ne.symm h]
  | cons kv rest ih =>
    obtain ⟨k, v⟩ := kv
    simp only [Memory.write]
    split
    · simp [Memory.read, Ne.symm h]
    · split
      · rename_i hk
        subst hk
        simp [Memory.read, Ne.symm h]
      · simp [Memory.read, ih]

/-! ## The canonical form -/

theorem wf_cons_iff (k : Nat) (v : Byte) (m : Memory) :
    Memory.wf ((k, v) :: m) = true ↔ (∀ e ∈ m, k < e.1) ∧ Memory.wf m = true := by
  induction m generalizing k v with
  | nil => simp [Memory.wf]
  | cons e rest ih =>
    obtain ⟨j, w⟩ := e
    simp only [Memory.wf, Bool.and_eq_true, decide_eq_true_eq, List.mem_cons, forall_eq_or_imp]
    constructor
    · rintro ⟨hkj, hw⟩
      exact ⟨⟨hkj, fun e he => Nat.lt_trans hkj (((ih j w).mp hw).1 e he)⟩, hw⟩
    · rintro ⟨⟨hkj, -⟩, hw⟩
      exact ⟨hkj, hw⟩

theorem mem_write {m : Memory} {a : Nat} {b : Byte} {e : Host.Cell} (h : e ∈ m.write a b) :
    e = (a, b) ∨ e ∈ m := by
  induction m with
  | nil => simpa [Memory.write] using h
  | cons kv rest ih =>
    obtain ⟨k, v⟩ := kv
    simp only [Memory.write] at h
    split at h
    · simpa using h
    · split at h
      · rcases List.mem_cons.mp h with h | h
        · exact .inl h
        · exact .inr (List.mem_cons_of_mem _ h)
      · rcases List.mem_cons.mp h with h | h
        · exact .inr (h ▸ List.mem_cons_self ..)
        · exact (ih h).imp id (List.mem_cons_of_mem _)

/-- A write keeps the canonical form. -/
theorem write_wf {m : Memory} (a : Nat) (b : Byte) (h : m.wf = true) : (m.write a b).wf = true := by
  induction m with
  | nil => rfl
  | cons kv rest ih =>
    obtain ⟨k, v⟩ := kv
    have hk := (wf_cons_iff k v rest).mp h
    simp only [Memory.write]
    split
    · rename_i hlt
      refine (wf_cons_iff ..).mpr ⟨fun e he => ?_, h⟩
      rcases List.mem_cons.mp he with rfl | he
      · exact hlt
      · exact Nat.lt_trans hlt (hk.1 e he)
    · split
      · rename_i heq
        subst heq
        exact (wf_cons_iff ..).mpr hk
      · rename_i hnlt hne
        refine (wf_cons_iff ..).mpr ⟨fun e he => ?_, ih hk.2⟩
        rcases mem_write he with rfl | he
        · exact Nat.lt_of_le_of_ne (Nat.le_of_not_lt hnlt) (Ne.symm hne)
        · exact hk.1 e he

/-- A block write keeps the canonical form. -/
theorem writeBytes_wf {m : Memory} (a : Nat) (f : Bytes) (h : m.wf = true) : (m.writeBytes a f).wf = true := by
  induction f generalizing m a with
  | nil => exact h
  | cons b bs ih => exact ih (a + 1) (write_wf a b h)

/-- The memories of the state after reset are in the canonical form. -/
theorem reset_memories_wf : State.reset.rxBuf.wf = true ∧ State.reset.txBuf.wf = true := ⟨rfl, rfl⟩

/-! ## Spaces with a value at exactly the indices below a length -/

theorem covers_nil : Memory.covers [] 0 := rfl

theorem covers_length {m : Memory} {n : Nat} (h : m.covers n) : m.length = n := by
  have := congrArg List.length h
  simpa using this

/-- The cells of a byte sequence from index `a` on. -/
theorem write_end {m : Memory} {n : Nat} (b : Byte) (h : ∀ e ∈ m, e.1 < n) : m.write n b = m ++ [(n, b)] := by
  induction m with
  | nil => rfl
  | cons kv rest ih =>
    obtain ⟨k, v⟩ := kv
    have hk : k < n := h (k, v) (List.mem_cons_self ..)
    simp only [Memory.write, Nat.not_lt.mpr (Nat.le_of_lt hk), if_false, Ne.symm (Nat.ne_of_lt hk),
      List.cons_append]
    rw [ih fun e he => h e (List.mem_cons_of_mem _ he)]

theorem covers_lt {m : Memory} {n : Nat} (h : m.covers n) : ∀ e ∈ m, e.1 < n := by
  intro e he
  have : e.1 ∈ m.map Prod.fst := List.mem_map_of_mem he
  rw [h] at this
  exact List.mem_range.mp this

theorem write_covers {m : Memory} {n : Nat} (b : Byte) (h : m.covers n) :
    (m.write n b).covers (n + 1) ∧ (m.write n b).bytes = m.bytes ++ [b] := by
  rw [write_end b (covers_lt h)]
  refine ⟨?_, by simp [Memory.bytes]⟩
  have h' : m.map Prod.fst = List.range n := h
  simp [Memory.covers, h', List.range_succ]

theorem writeBytes_covers {m : Memory} {n : Nat} (f : Bytes) (h : m.covers n) :
    (m.writeBytes n f).covers (n + f.length) ∧ (m.writeBytes n f).bytes = m.bytes ++ f := by
  induction f generalizing m n with
  | nil => exact ⟨h, by simp [Memory.writeBytes]⟩
  | cons b bs ih =>
    obtain ⟨hc, hb⟩ := write_covers b h
    obtain ⟨hc', hb'⟩ := ih hc
    refine ⟨?_, ?_⟩
    · simpa [Memory.writeBytes, Nat.add_assoc, Nat.add_comm 1] using hc'
    · simp [Memory.writeBytes, hb', hb]

/-- A frame stored from index 0 into an empty space: the space holds exactly it. -/
theorem writeBytes_nil_covers (f : Bytes) :
    (Memory.writeBytes [] 0 f).covers f.length ∧ (Memory.writeBytes [] 0 f).bytes = f := by
  simpa [Memory.bytes] using writeBytes_covers f covers_nil

theorem read_of_index {m : Memory} {a : Nat} (h : m.map Prod.fst = List.range' a m.length) (i : Nat) :
    m.read (a + i) = m.bytes[i]? := by
  induction m generalizing a i with
  | nil => simp [Memory.read, Memory.unlisted, Memory.bytes]
  | cons kv rest ih =>
    obtain ⟨k, v⟩ := kv
    simp only [List.map_cons, List.length_cons, List.range'_succ, List.cons.injEq] at h
    obtain ⟨rfl, hrest⟩ := h
    cases i with
    | zero => simp [Memory.read, Memory.bytes]
    | succ i =>
      have := ih hrest i
      have hne : k ≠ k + (i + 1) := by omega
      simp only [Memory.read, if_neg hne]
      rw [show k + (i + 1) = k + 1 + i by omega, this]
      simp [Memory.bytes]

/-- In such a space, index `i` reads as byte `i` of its content. -/
theorem covers_read {m : Memory} {n : Nat} (h : m.covers n) (i : Nat) : m.read i = m.bytes[i]? := by
  have h' : m.map Prod.fst = List.range' 0 m.length := by
    rw [covers_length h, ← List.range_eq_range']
    exact h
  simpa using read_of_index h' i

/-- A byte space whose values are exactly `0 .. n-1` holds its own bytes, and they are `n`. -/
theorem covers_holds {m : Memory} {n : Nat} (h : m.covers n) : m.Holds m.bytes ∧ n = m.bytes.length :=
  ⟨covers_read h, by rw [Memory.bytes, List.length_map, covers_length h]⟩

theorem covers_wf {m : Memory} {n : Nat} (h : m.covers n) : m.wf = true := by
  have key : ∀ (m : Memory) (a : Nat), m.map Prod.fst = List.range' a m.length → m.wf = true := by
    intro m
    induction m with
    | nil => intros; rfl
    | cons kv rest ih =>
      obtain ⟨k, v⟩ := kv
      intro a h
      simp only [List.map_cons, List.length_cons, List.range'_succ, List.cons.injEq] at h
      obtain ⟨rfl, hrest⟩ := h
      refine (wf_cons_iff ..).mpr ⟨fun e he => ?_, ih _ hrest⟩
      have : e.1 ∈ rest.map Prod.fst := List.mem_map_of_mem he
      rw [hrest, List.mem_range'_1] at this
      omega
  refine key m 0 ?_
  rw [covers_length h, ← List.range_eq_range']
  exact h

end Sys2Proof.Machine
end

