-- ==== Sys2Proof/Laws/State.lean ====
section
/-! SUPPORT. One lemma per field of the state for each record update of Machine/Ops.lean, true by rfl, so that no proof
unfolds an update. -/

namespace Sys2Proof.Machine

variable (s : State)

/-! ## storeRx -/

@[simp] theorem storeRx_params (b : Byte) : (storeRx s b).params = s.params := rfl
@[simp] theorem storeRx_seq (b : Byte) : (storeRx s b).seq = s.seq := rfl
@[simp] theorem storeRx_rxBuf (b : Byte) : (storeRx s b).rxBuf = s.rxBuf.write s.rxPos b := rfl
@[simp] theorem storeRx_rxPos (b : Byte) : (storeRx s b).rxPos = s.rxPos + 1 := rfl
@[simp] theorem storeRx_rxStat (b : Byte) : (storeRx s b).rxStat = s.rxStat := rfl
@[simp] theorem storeRx_dbgCnt (b : Byte) : (storeRx s b).dbgCnt = s.dbgCnt := rfl
@[simp] theorem storeRx_txBuf (b : Byte) : (storeRx s b).txBuf = s.txBuf := rfl
@[simp] theorem storeRx_txLen (b : Byte) : (storeRx s b).txLen = s.txLen := rfl
@[simp] theorem storeRx_session (b : Byte) : (storeRx s b).session = s.session := rfl
@[simp] theorem storeRx_busy (b : Byte) : (storeRx s b).busy = s.busy := rfl
@[simp] theorem storeRx_line (b : Byte) : (storeRx s b).line = s.line := rfl
@[simp] theorem storeRx_program (b : Byte) : (storeRx s b).program = s.program := rfl
@[simp] theorem storeRx_outcome (b : Byte) : (storeRx s b).outcome = s.outcome := rfl

/-! ## clearRx -/

@[simp] theorem clearRx_params : (clearRx s).params = s.params := rfl
@[simp] theorem clearRx_seq : (clearRx s).seq = s.seq := rfl
@[simp] theorem clearRx_rxBuf : (clearRx s).rxBuf = [] := rfl
@[simp] theorem clearRx_rxPos : (clearRx s).rxPos = 0 := rfl
@[simp] theorem clearRx_rxStat : (clearRx s).rxStat = s.rxStat := rfl
@[simp] theorem clearRx_dbgCnt : (clearRx s).dbgCnt = s.dbgCnt := rfl
@[simp] theorem clearRx_txBuf : (clearRx s).txBuf = s.txBuf := rfl
@[simp] theorem clearRx_txLen : (clearRx s).txLen = s.txLen := rfl
@[simp] theorem clearRx_session : (clearRx s).session = s.session := rfl
@[simp] theorem clearRx_busy : (clearRx s).busy = s.busy := rfl
@[simp] theorem clearRx_line : (clearRx s).line = s.line := rfl
@[simp] theorem clearRx_program : (clearRx s).program = s.program := rfl
@[simp] theorem clearRx_outcome : (clearRx s).outcome = s.outcome := rfl

/-! ## storeTx -/

@[simp] theorem storeTx_params (f : Bytes) : (storeTx s f).params = s.params := rfl
@[simp] theorem storeTx_seq (f : Bytes) : (storeTx s f).seq = s.seq := rfl
@[simp] theorem storeTx_rxBuf (f : Bytes) : (storeTx s f).rxBuf = s.rxBuf := rfl
@[simp] theorem storeTx_rxPos (f : Bytes) : (storeTx s f).rxPos = s.rxPos := rfl
@[simp] theorem storeTx_rxStat (f : Bytes) : (storeTx s f).rxStat = s.rxStat := rfl
@[simp] theorem storeTx_dbgCnt (f : Bytes) : (storeTx s f).dbgCnt = s.dbgCnt := rfl
@[simp] theorem storeTx_txBuf (f : Bytes) : (storeTx s f).txBuf = Memory.writeBytes [] 0 f := rfl
@[simp] theorem storeTx_txLen (f : Bytes) : (storeTx s f).txLen = f.length := rfl
@[simp] theorem storeTx_session (f : Bytes) : (storeTx s f).session = s.session := rfl
@[simp] theorem storeTx_busy (f : Bytes) : (storeTx s f).busy = s.busy := rfl
@[simp] theorem storeTx_line (f : Bytes) : (storeTx s f).line = s.line := rfl
@[simp] theorem storeTx_program (f : Bytes) : (storeTx s f).program = s.program := rfl
@[simp] theorem storeTx_outcome (f : Bytes) : (storeTx s f).outcome = s.outcome := rfl

/-! ## openSession -/

@[simp] theorem openSession_params : (openSession s).params = s.params := rfl
@[simp] theorem openSession_seq : (openSession s).seq = 0 := rfl
@[simp] theorem openSession_rxBuf : (openSession s).rxBuf = [] := rfl
@[simp] theorem openSession_rxPos : (openSession s).rxPos = 0 := rfl
@[simp] theorem openSession_rxStat : (openSession s).rxStat = .none := rfl
@[simp] theorem openSession_dbgCnt : (openSession s).dbgCnt = 0 := rfl
@[simp] theorem openSession_txBuf : (openSession s).txBuf = [] := rfl
@[simp] theorem openSession_txLen : (openSession s).txLen = 0 := rfl
@[simp] theorem openSession_session : (openSession s).session = .opened := rfl
@[simp] theorem openSession_busy : (openSession s).busy = false := rfl
@[simp] theorem openSession_line : (openSession s).line = s.line := rfl
@[simp] theorem openSession_program : (openSession s).program = s.program := rfl
@[simp] theorem openSession_outcome : (openSession s).outcome = s.outcome := rfl

/-! ## trClose -/

@[simp] theorem trClose_params : (trClose s).params = s.params := rfl
@[simp] theorem trClose_seq : (trClose s).seq = s.seq := rfl
@[simp] theorem trClose_rxBuf : (trClose s).rxBuf = s.rxBuf := rfl
@[simp] theorem trClose_rxPos : (trClose s).rxPos = s.rxPos := rfl
@[simp] theorem trClose_rxStat : (trClose s).rxStat = s.rxStat := rfl
@[simp] theorem trClose_dbgCnt : (trClose s).dbgCnt = s.dbgCnt := rfl
@[simp] theorem trClose_txBuf : (trClose s).txBuf = s.txBuf := rfl
@[simp] theorem trClose_txLen : (trClose s).txLen = s.txLen := rfl
@[simp] theorem trClose_session : (trClose s).session = s.session := rfl
@[simp] theorem trClose_busy : (trClose s).busy = s.busy := rfl
@[simp] theorem trClose_line : (trClose s).line = { s.line with calls := .closeLine :: s.line.calls } := rfl
@[simp] theorem trClose_program : (trClose s).program = s.program := rfl
@[simp] theorem trClose_outcome : (trClose s).outcome = s.outcome := rfl

/-! ## takeCommand -/

@[simp] theorem takeCommand_params (rest : List Command) : (takeCommand s rest).params = s.params := rfl
@[simp] theorem takeCommand_seq (rest : List Command) : (takeCommand s rest).seq = s.seq := rfl
@[simp] theorem takeCommand_rxBuf (rest : List Command) : (takeCommand s rest).rxBuf = s.rxBuf := rfl
@[simp] theorem takeCommand_rxPos (rest : List Command) : (takeCommand s rest).rxPos = s.rxPos := rfl
@[simp] theorem takeCommand_rxStat (rest : List Command) : (takeCommand s rest).rxStat = s.rxStat := rfl
@[simp] theorem takeCommand_dbgCnt (rest : List Command) : (takeCommand s rest).dbgCnt = s.dbgCnt := rfl
@[simp] theorem takeCommand_txBuf (rest : List Command) : (takeCommand s rest).txBuf = s.txBuf := rfl
@[simp] theorem takeCommand_txLen (rest : List Command) : (takeCommand s rest).txLen = s.txLen := rfl
@[simp] theorem takeCommand_session (rest : List Command) : (takeCommand s rest).session = s.session := rfl
@[simp] theorem takeCommand_busy (rest : List Command) : (takeCommand s rest).busy = s.busy := rfl
@[simp] theorem takeCommand_line (rest : List Command) : (takeCommand s rest).line = s.line := rfl
@[simp] theorem takeCommand_program (rest : List Command) : (takeCommand s rest).program = rest := rfl
@[simp] theorem takeCommand_outcome (rest : List Command) : (takeCommand s rest).outcome = s.outcome := rfl

/-! ## issueCommand -/

@[simp] theorem issueCommand_params (c : Command) : (issueCommand s c).params = s.params := rfl
@[simp] theorem issueCommand_seq (c : Command) : (issueCommand s c).seq = s.seq := rfl
@[simp] theorem issueCommand_rxBuf (c : Command) : (issueCommand s c).rxBuf = s.rxBuf := rfl
@[simp] theorem issueCommand_rxPos (c : Command) : (issueCommand s c).rxPos = s.rxPos := rfl
@[simp] theorem issueCommand_rxStat (c : Command) : (issueCommand s c).rxStat = s.rxStat := rfl
@[simp] theorem issueCommand_dbgCnt (c : Command) : (issueCommand s c).dbgCnt = s.dbgCnt := rfl
@[simp] theorem issueCommand_txBuf (c : Command) : (issueCommand s c).txBuf = s.txBuf := rfl
@[simp] theorem issueCommand_txLen (c : Command) : (issueCommand s c).txLen = s.txLen := rfl
@[simp] theorem issueCommand_session (c : Command) : (issueCommand s c).session = s.session := rfl
@[simp] theorem issueCommand_busy (c : Command) : (issueCommand s c).busy = s.busy := rfl
@[simp] theorem issueCommand_line (c : Command) : (issueCommand s c).line = s.line := rfl
@[simp] theorem issueCommand_program (c : Command) : (issueCommand s c).program = c :: s.program := rfl
@[simp] theorem issueCommand_outcome (c : Command) : (issueCommand s c).outcome = s.outcome := rfl

/-! ## finish -/

@[simp] theorem finish_params (o : OpOutcome) : (finish s o).params = s.params := rfl
@[simp] theorem finish_seq (o : OpOutcome) : (finish s o).seq = s.seq := rfl
@[simp] theorem finish_rxBuf (o : OpOutcome) : (finish s o).rxBuf = s.rxBuf := rfl
@[simp] theorem finish_rxPos (o : OpOutcome) : (finish s o).rxPos = s.rxPos := rfl
@[simp] theorem finish_rxStat (o : OpOutcome) : (finish s o).rxStat = s.rxStat := rfl
@[simp] theorem finish_dbgCnt (o : OpOutcome) : (finish s o).dbgCnt = s.dbgCnt := rfl
@[simp] theorem finish_txBuf (o : OpOutcome) : (finish s o).txBuf = s.txBuf := rfl
@[simp] theorem finish_txLen (o : OpOutcome) : (finish s o).txLen = s.txLen := rfl
@[simp] theorem finish_session (o : OpOutcome) : (finish s o).session = s.session := rfl
@[simp] theorem finish_busy (o : OpOutcome) : (finish s o).busy = s.busy := rfl
@[simp] theorem finish_line (o : OpOutcome) : (finish s o).line = s.line := rfl
@[simp] theorem finish_program (o : OpOutcome) : (finish s o).program = s.program := rfl
@[simp] theorem finish_outcome (o : OpOutcome) : (finish s o).outcome = some o := rfl

/-! ## failTransport -/

@[simp] theorem failTransport_params : (failTransport s).params = s.params := rfl
@[simp] theorem failTransport_seq : (failTransport s).seq = s.seq := rfl
@[simp] theorem failTransport_rxBuf : (failTransport s).rxBuf = s.rxBuf := rfl
@[simp] theorem failTransport_rxPos : (failTransport s).rxPos = s.rxPos := rfl
@[simp] theorem failTransport_rxStat : (failTransport s).rxStat = s.rxStat := rfl
@[simp] theorem failTransport_dbgCnt : (failTransport s).dbgCnt = s.dbgCnt := rfl
@[simp] theorem failTransport_txBuf : (failTransport s).txBuf = s.txBuf := rfl
@[simp] theorem failTransport_txLen : (failTransport s).txLen = s.txLen := rfl
@[simp] theorem failTransport_session : (failTransport s).session = .failed := rfl
@[simp] theorem failTransport_busy : (failTransport s).busy = false := rfl
@[simp] theorem failTransport_line : (failTransport s).line = s.line := rfl
@[simp] theorem failTransport_program : (failTransport s).program = s.program := rfl
@[simp] theorem failTransport_outcome : (failTransport s).outcome = s.outcome := rfl

/-! ## rejectWith -/

@[simp] theorem rejectWith_params (r : RejectReason) : (rejectWith s r).params = s.params := rfl
@[simp] theorem rejectWith_seq (r : RejectReason) : (rejectWith s r).seq = s.seq := rfl
@[simp] theorem rejectWith_rxBuf (r : RejectReason) : (rejectWith s r).rxBuf = s.rxBuf := rfl
@[simp] theorem rejectWith_rxPos (r : RejectReason) : (rejectWith s r).rxPos = s.rxPos := rfl
@[simp] theorem rejectWith_rxStat (r : RejectReason) : (rejectWith s r).rxStat = .rejected r := rfl
@[simp] theorem rejectWith_dbgCnt (r : RejectReason) : (rejectWith s r).dbgCnt = s.dbgCnt := rfl
@[simp] theorem rejectWith_txBuf (r : RejectReason) : (rejectWith s r).txBuf = s.txBuf := rfl
@[simp] theorem rejectWith_txLen (r : RejectReason) : (rejectWith s r).txLen = s.txLen := rfl
@[simp] theorem rejectWith_session (r : RejectReason) : (rejectWith s r).session = s.session := rfl
@[simp] theorem rejectWith_busy (r : RejectReason) : (rejectWith s r).busy = s.busy := rfl
@[simp] theorem rejectWith_line (r : RejectReason) : (rejectWith s r).line = s.line := rfl
@[simp] theorem rejectWith_program (r : RejectReason) : (rejectWith s r).program = s.program := rfl
@[simp] theorem rejectWith_outcome (r : RejectReason) : (rejectWith s r).outcome = s.outcome := rfl

/-! ## endExchange -/

@[simp] theorem endExchange_params : (endExchange s).params = s.params := rfl
@[simp] theorem endExchange_seq : (endExchange s).seq = s.seq := rfl
@[simp] theorem endExchange_rxBuf : (endExchange s).rxBuf = s.rxBuf := rfl
@[simp] theorem endExchange_rxPos : (endExchange s).rxPos = s.rxPos := rfl
@[simp] theorem endExchange_rxStat : (endExchange s).rxStat = s.rxStat := rfl
@[simp] theorem endExchange_dbgCnt : (endExchange s).dbgCnt = s.dbgCnt := rfl
@[simp] theorem endExchange_txBuf : (endExchange s).txBuf = s.txBuf := rfl
@[simp] theorem endExchange_txLen : (endExchange s).txLen = s.txLen := rfl
@[simp] theorem endExchange_session : (endExchange s).session = s.session := rfl
@[simp] theorem endExchange_busy : (endExchange s).busy = false := rfl
@[simp] theorem endExchange_line : (endExchange s).line = s.line := rfl
@[simp] theorem endExchange_program : (endExchange s).program = s.program := rfl
@[simp] theorem endExchange_outcome : (endExchange s).outcome = s.outcome := rfl

@[simp] theorem done_eq (o : OpOutcome) : done s o = .next (finish s o) := rfl

@[simp] theorem succeed_eq (v : Value) : succeed s v = .next (finish s (.ok v)) := rfl

@[simp] theorem refuse_eq (why : RefusedWhy) : refuse s why = .next (finish s (.refused why)) := rfl

@[simp] theorem finish_finish (o o' : OpOutcome) : finish (finish s o) o' = finish s o' := rfl

end Sys2Proof.Machine
end

