-- ==== Sys2Proof/Laws/Ops.lean ====
section
/-! SUPPORT. For each shared operation, once, everything it can do. -/

namespace Sys2Proof.Machine

/-! ## The Transport -/

/-- What a read may change on the line: the schedule of answers and the record of calls. -/
def Line.readOf (l l' : Line) : Prop :=
  ∃ answers calls, l' = { l with lineIn := answers, calls := calls ++ l.calls }

theorem Line.readOf_refl (l : Line) : l.readOf l := ⟨l.lineIn, [], rfl⟩

theorem Line.readOf_trans {l m n : Line} (h : l.readOf m) (h' : m.readOf n) : l.readOf n := by
  obtain ⟨_, c, rfl⟩ := h
  obtain ⟨a, c', rfl⟩ := h'
  exact ⟨a, c' ++ c, by simp⟩

/-- A read leaves the sending side of the line. -/
theorem Line.readOf.sendsStay {l l' : Line} (h : l.readOf l') : l.SendsStay l' := by
  obtain ⟨_, _, rfl⟩ := h
  exact ⟨rfl, rfl, rfl, rfl⟩

theorem trRead_scheduled {s : State} {a : ReadAnswer} {more : List ReadAnswer} (t : Nat)
    (h : s.line.lineIn = a :: more) :
    trRead t s = (a, { s with line := { s.line with lineIn := more, calls := .readByte t :: s.line.calls } }) := by
  simp [trRead, h]

theorem trRead_repeats {s : State} {a : ReadAnswer} {more : List ReadAnswer} (t : Nat)
    (h : s.line.lineIn = []) (hc : s.line.lineInCycle = a :: more) :
    trRead t s = (a, { s with line := { s.line with lineIn := more, calls := .readByte t :: s.line.calls } }) := by
  simp [trRead, h, hc]

theorem trRead_silent {s : State} (t : Nat) (h : s.line.lineIn = []) (hc : s.line.lineInCycle = []) :
    trRead t s = (.timeout, { s with line := { s.line with calls := .readByte t :: s.line.calls } }) := by
  simp [trRead, h, hc]

/-- A read touches the line and nothing else; on a line without repetition it never lengthens the schedule, and it
shortens it when it brings a byte. -/
theorem trRead_cases (t : Nat) (s : State) :
    ∃ a l, trRead t s = (a, { s with line := l }) ∧ s.line.readOf l ∧
      l.calls = .readByte t :: s.line.calls ∧
      (s.line.lineInCycle = [] → l.lineIn.length ≤ s.line.lineIn.length ∧
        (∀ b, a = .byte b → l.lineIn.length < s.line.lineIn.length)) := by
  rcases hl : s.line.lineIn with _ | ⟨a, more⟩
  · rcases hc : s.line.lineInCycle with _ | ⟨a, more⟩
    · refine ⟨_, _, trRead_silent t hl hc, ⟨s.line.lineIn, [.readByte t], rfl⟩, rfl, fun _ => ⟨?_, ?_⟩⟩
      · simp [hl]
      · intro b hb
        cases hb
    · exact ⟨_, _, trRead_repeats t hl hc, ⟨more, [.readByte t], rfl⟩, rfl, fun h => by simp at h⟩
  · exact ⟨_, _, trRead_scheduled t hl, ⟨more, [.readByte t], rfl⟩, rfl, fun _ => by simp⟩

theorem trSend_scheduled {s : State} {a : IoAnswer} {more : List IoAnswer} (f : Bytes)
    (h : s.line.sendAnswers = a :: more) :
    trSend f s = (a, { s with line :=
      { s.line with sendAnswers := more, lineOut := s.line.lineOut ++ f, calls := .sendBytes :: s.line.calls } }) := by
  simp [trSend, h]

/-- A send touches the line and nothing else, and LINE-OUT gains exactly the bytes sent. -/
theorem trSend_cases (f : Bytes) (s : State) :
    ∃ a l, trSend f s = (a, { s with line := l }) ∧ l.lineOut = s.line.lineOut ++ f ∧
      l.calls = .sendBytes :: s.line.calls ∧ l.lineIn = s.line.lineIn ∧ l.lineInCycle = s.line.lineInCycle ∧
      l.openAnswers = s.line.openAnswers := by
  rcases h : s.line.sendAnswers with _ | ⟨a, more⟩
  · exact ⟨Config.freeSendAnswer s.line.drawn,
      { s.line with lineOut := s.line.lineOut ++ f, calls := .sendBytes :: s.line.calls,
                    drawn := s.line.drawn + 1 }, by simp [trSend, h], rfl, rfl, rfl, rfl, rfl⟩
  · exact ⟨_, _, trSend_scheduled f h, rfl, rfl, rfl, rfl, rfl⟩

theorem trOpen_scheduled {s : State} {a : IoAnswer} {more : List IoAnswer} (d : Bytes)
    (h : s.line.openAnswers = a :: more) :
    trOpen d s = (a, { s with line :=
      { s.line with openAnswers := more, calls := .openLine d :: s.line.calls } }) := by
  simp [trOpen, h]

/-- An open touches the line and nothing else. -/
theorem trOpen_cases (d : Bytes) (s : State) :
    ∃ a l, trOpen d s = (a, { s with line := l }) ∧ l.lineOut = s.line.lineOut ∧
      l.calls = .openLine d :: s.line.calls ∧ l.lineIn = s.line.lineIn ∧ l.lineInCycle = s.line.lineInCycle ∧
      l.sendAnswers = s.line.sendAnswers := by
  rcases h : s.line.openAnswers with _ | ⟨a, more⟩
  · exact ⟨Config.freeOpenAnswer s.line.drawn,
      { s.line with calls := .openLine d :: s.line.calls, drawn := s.line.drawn + 1 },
      by simp [trOpen, h], rfl, rfl, rfl, rfl, rfl⟩
  · exact ⟨_, _, trOpen_scheduled d h, rfl, rfl, rfl, rfl, rfl⟩

/-! ## Reading the transmit buffer -/

/-- Indices that lie inside the space and hold a value read without a fault. -/
theorem readTxBytes_ok {s : State} {n : Nat} {f : Bytes} (a : Nat) (hcap : a + n ≤ txBufCap) (hlen : f.length = n)
    (h : ∀ i < n, s.txBuf.read (a + i) = f[i]?) : readTxBytes s a n = .ok f := by
  induction n generalizing a f with
  | zero => simp [readTxBytes, List.length_eq_zero_iff.mp hlen]
  | succ n ih =>
    rcases f with _ | ⟨b, f⟩
    · simp at hlen
    · have h0 : s.txBuf.read a = some b := by simpa using h 0 (Nat.succ_pos n)
      have ht : readTxBytes s (a + 1) n = .ok f := by
        refine ih (a + 1) (by omega) (by simpa using hlen) fun i hi => ?_
        have := h (i + 1) (by omega)
        simpa [Nat.add_assoc, Nat.add_comm 1] using this
      have hb : readTxByte s a = .ok b := by
        have : ¬ txBufCap ≤ a := by omega
        simp [readTxByte, this, h0]
      simp [readTxBytes, hb, ht]

/-- The whole encoded frame reads as the bytes of the space. -/
theorem readTxBytes_covers {s : State} (hc : s.txBuf.covers s.txLen) (hcap : s.txLen ≤ txBufCap) :
    readTxBytes s 0 s.txLen = .ok s.txBuf.bytes := by
  refine readTxBytes_ok 0 (by simpa using hcap) ?_ fun i _ => ?_
  · simpa [Memory.bytes] using covers_length hc
  · simpa using covers_read hc i

/-! ## How operations end -/

theorem finishBytes_ok (s : State) (b : Bytes) : finishBytes s (.ok b) = .next (finish s (.ok (.bytes b))) := rfl

theorem finishBytes_error (s : State) (why : RefusedWhy) :
    finishBytes s (.error why) = .next (finish s (.refused why)) := rfl

/-- An encoder's end is always a next state that differs in the outcome alone. -/
theorem finishBytes_cases (s : State) (r : Except RefusedWhy Bytes) :
    ∃ o, finishBytes s r = .next (finish s o) := by
  cases r with
  | ok b => exact ⟨_, rfl⟩
  | error why => exact ⟨_, rfl⟩

end Sys2Proof.Machine
end

