-- ==== Sys2Proof/Laws/Rx.lean ====
section
/-! SUPPORT. The synchronizer: what an assembly, a send and a receive can do. -/

namespace Sys2Proof.Machine

/-! ## Assembly -/

/-- What is left of an assembly after its first bytes: the buffer goes on being filled from `RXPOS`, the line is read,
and only a transport failure touches another register. -/
theorem assembleBody_cases (n : Nat) (s : State) (hc : s.rxBuf.covers s.rxPos) :
    ∃ m k l, m.covers k ∧ s.rxPos ≤ k ∧ k ≤ s.rxPos + n ∧ s.line.readOf l ∧
      (s.line.lineInCycle = [] → l.lineIn.length ≤ s.line.lineIn.length) ∧
      (∃ j ≤ n, l.calls = List.replicate j (.readByte s.params.tShort) ++ s.line.calls) ∧
      (∃ more, m.bytes = s.rxBuf.bytes ++ more) ∧
      (assembleBody n s = (.candidate, { s with rxBuf := m, rxPos := k, line := l }) ∨
       assembleBody n s =
        (.failed, { s with rxBuf := m, rxPos := k, line := l, session := .failed, busy := false })) := by
  induction n generalizing s with
  | zero =>
    exact ⟨s.rxBuf, s.rxPos, s.line, hc, Nat.le_refl _, Nat.le_refl _, Line.readOf_refl _, fun _ => Nat.le_refl _,
      ⟨0, Nat.le_refl _, rfl⟩, ⟨[], by simp⟩, .inl rfl⟩
  | succ n ih =>
    obtain ⟨a, l, hr, hrl, hcalls, hlen⟩ := trRead_cases s.params.tShort s
    cases a with
    | error =>
      exact ⟨s.rxBuf, s.rxPos, l, hc, Nat.le_refl _, by omega, hrl, fun h => (hlen h).1,
        ⟨1, by omega, by simp [hcalls]⟩, ⟨[], by simp⟩, .inr (by simp [assembleBody, hr, failTransport])⟩
    | timeout =>
      exact ⟨s.rxBuf, s.rxPos, l, hc, Nat.le_refl _, by omega, hrl, fun h => (hlen h).1,
        ⟨1, by omega, by simp [hcalls]⟩, ⟨[], by simp⟩, .inl (by simp [assembleBody, hr])⟩
    | byte b =>
      have hcyc : l.lineInCycle = s.line.lineInCycle := by
        obtain ⟨_, _, rfl⟩ := hrl
        rfl
      obtain ⟨hc', hb'⟩ := write_covers b hc
      obtain ⟨m, k, l', hm, hk, hk', hl', hle, ⟨j, hj, hcl⟩, ⟨more, hmore⟩, hres⟩ :=
        ih (storeRx { s with line := l } b) (by simpa using hc')
      refine ⟨m, k, l', hm, ?_, ?_, Line.readOf_trans hrl hl', fun h => ?_, ?_, ⟨b :: more, ?_⟩, ?_⟩
      · simp at hk
        omega
      · simp at hk'
        omega
      · have h1 := (hlen h).1
        have h2 := hle (by simpa [hcyc] using h)
        simp at h2
        omega
      · refine ⟨j + 1, by omega, ?_⟩
        rw [hcl, storeRx_line, storeRx_params, hcalls, List.replicate_succ']
        simp
      · simpa [hb'] using hmore
      · simpa [assembleBody, hr, storeRx] using hres

/-- Everything an assembly can do (43_frame_rx.md R183): `RXBUF[0..RXPOS)` holds what was collected, at most 258 bytes and
never fewer than the bytes read; `RXSTAT` is written on a bad first byte alone, `SESSION` and `BUSY` on a transport
failure alone. -/
theorem assemble_cases (s : State) :
    ∃ m k l, m.covers k ∧ k ≤ maxFrame ∧ s.line.readOf l ∧
      (s.line.lineInCycle = [] → l.lineIn.length ≤ s.line.lineIn.length ∧
        (k ≠ 0 → l.lineIn.length < s.line.lineIn.length)) ∧
      (∃ j, j + 1 ≤ maxFrame ∧
        l.calls = List.replicate j (.readByte s.params.tShort) ++ .readByte s.params.tLong :: s.line.calls) ∧
      ((assemble s = (.candidate, { s with rxBuf := m, rxPos := k, line := l }) ∧
          (m.bytes = [] ∨ ∃ more, m.bytes = rspSync :: more)) ∨
       (assemble s = (.badSync, { s with rxBuf := m, rxPos := k, line := l, rxStat := .rejected .badSync }) ∧
          k = 1 ∧ ∃ b, b ≠ rspSync ∧ m.bytes = [b]) ∨
       assemble s = (.failed, { s with rxBuf := m, rxPos := k, line := l, session := .failed, busy := false })) := by
  obtain ⟨a, l, hr, hrl, hcalls, hlen⟩ := trRead_cases s.params.tLong (clearRx s)
  simp only [clearRx_line] at hrl hcalls hlen
  have hread : trRead s.params.tLong (clearRx s) = (a, { clearRx s with line := l }) := hr
  cases a with
  | error =>
    refine ⟨[], 0, l, covers_nil, by decide, hrl, fun h => ⟨(hlen h).1, fun h0 => absurd rfl h0⟩, 
      ⟨0, by decide, hcalls⟩, .inr (.inr ?_)⟩
    simp only [assemble, hread]
    rfl
  | timeout =>
    refine ⟨[], 0, l, covers_nil, by decide, hrl, fun h => ⟨(hlen h).1, fun h0 => absurd rfl h0⟩, 
      ⟨0, by decide, hcalls⟩, .inl ⟨?_, .inl rfl⟩⟩
    simp only [assemble, hread]
    rfl
  | byte b =>
    have hcyc : l.lineInCycle = s.line.lineInCycle := by
      obtain ⟨_, _, rfl⟩ := hrl
      rfl
    have hc1 : Memory.covers [(0, b)] 1 := rfl
    by_cases hb : b = rspSync
    · obtain ⟨a2, l2, hr2, hrl2, hcalls2, hlen2⟩ :=
        trRead_cases s.params.tShort { s with rxBuf := [(0, b)], rxPos := 1, line := l }
      simp only at hrl2 hcalls2 hlen2
      have hass : assemble s = assembleLength { s with rxBuf := [(0, b)], rxPos := 1, line := l } := by
        simp only [assemble, hread, if_pos hb]
        rfl
      cases a2 with
      | error =>
        refine ⟨[(0, b)], 1, l2, hc1, by decide, Line.readOf_trans hrl hrl2, fun h => ?_,
          ⟨1, by decide, by rw [hcalls2, hcalls]; rfl⟩, .inr (.inr ?_)⟩
        · have h1 := (hlen h).2 b rfl
          have h2 := (hlen2 (by simpa [hcyc] using h)).1
          omega
        · simp [hass, assembleLength, hr2, failTransport]
      | timeout =>
        refine ⟨[(0, b)], 1, l2, hc1, by decide, Line.readOf_trans hrl hrl2, fun h => ?_,
          ⟨1, by decide, by rw [hcalls2, hcalls]; rfl⟩, .inl ⟨?_, .inr ⟨[], by simp [Memory.bytes, hb]⟩⟩⟩
        · have h1 := (hlen h).2 b rfl
          have h2 := (hlen2 (by simpa [hcyc] using h)).1
          omega
        · simp [hass, assembleLength, hr2]
      | byte len =>
        have hcyc2 : l2.lineInCycle = s.line.lineInCycle := by
          obtain ⟨_, _, rfl⟩ := hrl2
          exact hcyc
        have hc2 : Memory.covers [(0, b), (1, len)] 2 := rfl
        obtain ⟨m, k, l3, hm, hk, hk', hl3, hle, ⟨j, hj, hcl⟩, ⟨more, hmore⟩, hres⟩ :=
          assembleBody_cases (len.toNat + 1) { s with rxBuf := [(0, b), (1, len)], rxPos := 2, line := l2 } hc2
        simp only at hk hk' hl3 hle hcl hmore
        have hres' : assemble s =
            assembleBody (len.toNat + 1) { s with rxBuf := [(0, b), (1, len)], rxPos := 2, line := l2 } := by
          simp [hass, assembleLength, hr2, storeRx, Memory.write]
        have hlt := len.isLt
        refine ⟨m, k, l3, hm, by simp only [maxFrame]; omega, Line.readOf_trans (Line.readOf_trans hrl hrl2) hl3, fun h => ?_,
          ⟨j + 1, by simp only [maxFrame]; omega, ?_⟩, ?_⟩
        · have h1 := (hlen h).2 b rfl
          have h2 := (hlen2 (by simpa [hcyc] using h)).1
          have h3 := hle (by simpa [hcyc2] using h)
          omega
        · rw [hcl, hcalls2, hcalls, List.replicate_succ']
          simp
        · rcases hres with hres | hres
          · exact .inl ⟨by rw [hres', hres], .inr ⟨len :: more, by rw [hmore, hb]; rfl⟩⟩
          · exact .inr (.inr (by rw [hres', hres]))
    · refine ⟨[(0, b)], 1, l, hc1, by decide, hrl, fun h => ⟨(hlen h).1, fun _ => (hlen h).2 b rfl⟩,
        ⟨0, by decide, hcalls⟩, .inr (.inl ⟨?_, rfl, b, hb, rfl⟩)⟩
      simp only [assemble, hread, if_neg hb]
      rfl

/-! ## A whole frame on the line -/

theorem assembleBody_bytes (bs : Bytes) (more : List ReadAnswer) (s : State)
    (h : s.line.lineIn = bs.map ReadAnswer.byte ++ more) :
    assembleBody bs.length s = (.candidate,
      { s with
        rxBuf := s.rxBuf.writeBytes s.rxPos bs
        rxPos := s.rxPos + bs.length
        line := { s.line with
          lineIn := more
          calls := List.replicate bs.length (.readByte s.params.tShort) ++ s.line.calls } }) := by
  induction bs generalizing s with
  | nil => simp [assembleBody, Memory.writeBytes] at h ⊢; simp [← h]
  | cons b bs ih =>
    have hr := trRead_scheduled (s := s) s.params.tShort (by simpa using h)
    simp only [List.length_cons, assembleBody, hr]
    rw [ih (storeRx _ b) (by simp)]
    simp only [storeRx, Memory.writeBytes, List.replicate_succ', List.append_assoc, List.singleton_append,
      Nat.add_assoc, Nat.add_comm 1]

/-- A line that delivers a whole frame, sync byte, length byte `L` and `L + 1` more bytes: assembly collects exactly it,
with one long and otherwise short timeouts, and leaves the rest of the line unread (R183, R185). -/
theorem assemble_frame (s : State) (l : Byte) (rest : Bytes) (more : List ReadAnswer)
    (hlen : rest.length = l.toNat + 1)
    (h : s.line.lineIn = (rspSync :: l :: rest).map ReadAnswer.byte ++ more) :
    assemble s = (.candidate,
      { s with
        rxBuf := Memory.writeBytes [] 0 (rspSync :: l :: rest)
        rxPos := l.toNat + 3
        line := { s.line with
          lineIn := more
          calls := List.replicate (l.toNat + 2) (.readByte s.params.tShort) ++
            .readByte s.params.tLong :: s.line.calls } }) := by
  have h1 := trRead_scheduled (s := clearRx s) s.params.tLong (a := .byte rspSync)
    (more := (l :: rest).map ReadAnswer.byte ++ more) (by simpa using h)
  simp only [assemble, h1, if_true, assembleLength]
  rw [trRead_scheduled (a := .byte l) (more := rest.map ReadAnswer.byte ++ more) _ (by simp)]
  simp only [← hlen]
  rw [assembleBody_bytes rest more _ (by simp)]
  simp [storeRx, clearRx, Memory.writeBytes, Memory.write, hlen]
  constructor
  · omega
  · rw [List.replicate_succ' (n := l.toNat + 1)]
    simp

/-! ## Sending -/

/-- Everything the send procedure can do (42_frame_tx.md R167). -/
theorem sendRequest_cases (s : State) (next : State → StepResult) :
    (∃ why, sendRequest s next = refuse s why ∧ (why = .noSession ∨ why = .busy ∨ why = .nothingEncoded)) ∨
    (∃ e, sendRequest s next = .fault e ∧ readTxBytes s 0 s.txLen = .error e) ∨
    (∃ f l, readTxBytes s 0 s.txLen = .ok f ∧ l.lineOut = s.line.lineOut ++ f ∧
      l.lineIn = s.line.lineIn ∧ l.lineInCycle = s.line.lineInCycle ∧ l.openAnswers = s.line.openAnswers ∧
      l.calls = .sendBytes :: s.line.calls ∧ s.session = .opened ∧ s.busy = false ∧
      (sendRequest s next = done (failTransport { s with line := l }) .transportError ∨
       sendRequest s next = next { s with line := l, busy := true })) := by
  by_cases h1 : s.session = .opened
  · cases h2 : s.busy
    · by_cases h3 : s.txLen = 0
      · exact .inl ⟨.nothingEncoded, by simp [sendRequest, h1, h2, h3], .inr (.inr rfl)⟩
      · have hgo : sendRequest s next = match readTxBytes s 0 s.txLen with
            | .error e => .fault e
            | .ok f => match trSend f s with
              | (.error, s) => done (failTransport s) .transportError
              | (.ok, s) => next { s with busy := true } := by
          unfold sendRequest
          exact (if_neg (by simp [h1])).trans ((if_neg (by simp [h2])).trans (if_neg h3))
        cases hf : readTxBytes s 0 s.txLen with
        | error e => exact .inr (.inl ⟨e, by rw [hgo, hf], rfl⟩)
        | ok f =>
          obtain ⟨a, l, ha, hout, hcalls, hin, hcyc, hopen⟩ := trSend_cases f s
          refine .inr (.inr ⟨f, l, rfl, hout, hin, hcyc, hopen, hcalls, h1, rfl, ?_⟩)
          cases a with
          | error => exact .inl (by rw [hgo, hf]; simp only [ha, h2])
          | ok => exact .inr (by rw [hgo, hf]; simp only [ha])
    · exact .inl ⟨.busy, by simp [sendRequest, h1, h2], .inr (.inl rfl)⟩
  · exact .inl ⟨.noSession, by simp [sendRequest, h1], .inl rfl⟩

/-! ## Receiving -/

/-- How a receive that ends can end: an accepted reply, a rejection (which is what `RXSTAT` then holds), or a transport
failure. -/
def ReceiveEnd (s : State) (o : OpOutcome) : Prop :=
  (∃ code params, o = .ok (.reply code params) ∧ s.rxStat = .accepted ∧ s.busy = false) ∨
  (∃ r, o = .noFrame r ∧ s.rxStat = .rejected r ∧ s.busy = false) ∨
  (o = .transportError ∧ s.session = .failed ∧ s.busy = false)

/-- The state a receive leaves, from `s`: the registers and the buffer it may write. -/
def receivedState (s : State) (m : Memory) (k : Nat) (l : Line) (st : RxStat) (d : Nat) (sess : Session) (bz : Bool) :
    State :=
  { s with rxBuf := m, rxPos := k, line := l, rxStat := st, dbgCnt := d, session := sess, busy := bz }

/-- Between `l` and `l'` the Transport has been asked for bytes, at most `n` times, and for nothing else
(70_reset_and_hazards.md R381). -/
def Line.ReadsAtMost (l : Line) (p : Params) (n : Nat) (l' : Line) : Prop :=
  ∃ new, l'.calls = new ++ l.calls ∧ new.length ≤ n ∧ ∀ c ∈ new, IsRead p c

theorem Line.ReadsAtMost.mono {l l' : Line} {p : Params} {m n : Nat} (h : l.ReadsAtMost p m l') (hmn : m ≤ n) :
    l.ReadsAtMost p n l' := by
  obtain ⟨new, h1, h2, h3⟩ := h
  exact ⟨new, h1, Nat.le_trans h2 hmn, h3⟩

theorem Line.ReadsAtMost.trans {l m n : Line} {p : Params} {i j : Nat} (h : l.ReadsAtMost p i m) (h' : m.ReadsAtMost p j n) :
    l.ReadsAtMost p (i + j) n := by
  obtain ⟨new, h1, h2, h3⟩ := h
  obtain ⟨new', h1', h2', h3'⟩ := h'
  refine ⟨new' ++ new, by rw [h1', h1, List.append_assoc], ?_, fun c hc => ?_⟩
  · rw [List.length_append]
    omega
  · exact (List.mem_append.1 hc).elim (h3' c) (h3 c)

/-- What is known of the state a receive that ends leaves (43_frame_rx.md R197). -/
structure ReceiveOf (s : State) (m : Memory) (k : Nat) (l : Line) (st : RxStat) (d : Nat) (sess : Session) (bz : Bool)
    (o : OpOutcome) : Prop where
  covers : m.covers k
  bound : k ≤ maxFrame
  line : s.line.readOf l
  counts : s.dbgCnt ≤ d
  limit : ∀ n, s.params.debugSkipLimit = some n → s.dbgCnt ≤ n → d ≤ n + 1
  session : (sess = s.session ∧ o ≠ .transportError) ∨ (sess = .failed ∧ o = .transportError)
  stat : o = .transportError → st = s.rxStat
  reads : s.line.ReadsAtMost s.params (maxFrame * (d - s.dbgCnt + 1)) l
  ends : ReceiveEnd (receivedState s m k l st d sess bz) o

/-- Everything the receive loop can do (43_frame_rx.md R197): it is stuck, or it ends; then `SEQ`, the transmit buffer, the
parameters and the HOST's commands are untouched. -/
theorem receiveLoop_cases (rounds : Nat) (s : State) :
    receiveLoop rounds s = .fault .stuck ∨
    ∃ m k l st d sess bz o, ReceiveOf s m k l st d sess bz o ∧
      receiveLoop rounds s = done (receivedState s m k l st d sess bz) o := by
  induction rounds generalizing s with
  | zero => exact .inl rfl
  | succ rounds ih =>
    obtain ⟨m, k, l, hm, hk, hl, -, ⟨j, hj, hcalls⟩, hres⟩ := assemble_cases s
    have hcl : s.line.ReadsAtMost s.params maxFrame l := by
      refine ⟨List.replicate j (.readByte s.params.tShort) ++ [.readByte s.params.tLong], by simp [hcalls], by simpa using hj,
        fun c hc => ?_⟩
      rcases List.mem_append.1 hc with h | h
      · exact .inr (List.eq_of_mem_replicate h)
      · exact .inl (List.mem_singleton.1 h)
    have one (n : Nat) : s.line.ReadsAtMost s.params (maxFrame * (n + 1)) l :=
      hcl.mono (Nat.le_mul_of_pos_right _ n.succ_pos)
    rcases hres with ⟨h, -⟩ | ⟨h, -⟩ | h
    · simp only [receiveLoop, h]
      cases hv : validate { s with rxBuf := m, rxPos := k, line := l } m.bytes with
      | reply code params =>
        simp only [candidate, hv]
        exact .inr ⟨m, k, l, .accepted, s.dbgCnt, s.session, false, .ok (.reply code params),
          ⟨hm, hk, hl, Nat.le_refl _, fun n _ h => Nat.le_succ_of_le h, .inl ⟨rfl, nofun⟩, nofun, one _,
            .inl ⟨code, params, rfl, rfl, rfl⟩⟩, rfl⟩
      | reject r =>
        simp only [candidate, hv]
        exact .inr ⟨m, k, l, .rejected r, s.dbgCnt, s.session, false, .noFrame r,
          ⟨hm, hk, hl, Nat.le_refl _, fun n _ h => Nat.le_succ_of_le h, .inl ⟨rfl, nofun⟩, nofun, one _,
            .inr (.inl ⟨r, rfl, rfl, rfl⟩)⟩, rfl⟩
      | debug =>
        simp only [candidate, hv]
        split
        · exact .inr ⟨m, k, l, .rejected .debugLimit, s.dbgCnt + 1, s.session, false, .noFrame .debugLimit,
            ⟨hm, hk, hl, Nat.le_succ _, fun n _ h => Nat.succ_le_succ h, .inl ⟨rfl, nofun⟩, nofun, one _,
              .inr (.inl ⟨.debugLimit, rfl, rfl, rfl⟩)⟩, rfl⟩
        · rename_i hlim
          rcases ih { s with rxBuf := m, rxPos := k, line := l, dbgCnt := s.dbgCnt + 1 } with
            hst | ⟨m', k', l', st, d, sess, bz, o, hof, heq⟩
          · exact .inl hst
          · have hd : s.dbgCnt + 1 ≤ d := hof.counts
            refine .inr ⟨m', k', l', st, d, sess, bz, o,
              ⟨hof.covers, hof.bound, Line.readOf_trans hl hof.line, by omega, fun n hn _ => ?_, hof.session,
                hof.stat, ?_, hof.ends⟩, heq⟩
            · refine hof.limit n hn ?_
              simpa [debugLimitPassed, hn] using hlim
            · have hsum : maxFrame + maxFrame * (d - (s.dbgCnt + 1) + 1) = maxFrame * (d - s.dbgCnt + 1) := by
                rw [show d - s.dbgCnt + 1 = d - (s.dbgCnt + 1) + 1 + 1 by omega, Nat.mul_succ _ (d - _ + 1), Nat.add_comm]
              exact (hcl.trans hof.reads).mono (Nat.le_of_eq hsum)
    · simp only [receiveLoop, h]
      exact .inr ⟨m, k, l, .rejected .badSync, s.dbgCnt, s.session, false, .noFrame .badSync,
        ⟨hm, hk, hl, Nat.le_refl _, fun n _ h => Nat.le_succ_of_le h, .inl ⟨rfl, nofun⟩, nofun, one _,
          .inr (.inl ⟨.badSync, rfl, rfl, rfl⟩)⟩, rfl⟩
    · simp only [receiveLoop, h]
      exact .inr ⟨m, k, l, s.rxStat, s.dbgCnt, .failed, false, .transportError,
        ⟨hm, hk, hl, Nat.le_refl _, fun n _ h => Nat.le_succ_of_le h, .inr ⟨rfl, rfl⟩, fun _ => rfl, one _,
          .inr (.inr ⟨rfl, rfl, rfl⟩)⟩, rfl⟩

/-- Everything the receive procedure can do (R197). -/
theorem receive_cases (s : State) :
    (s.session ≠ .opened ∧ receive s = refuse s .noSession) ∨
    (s.session = .opened ∧ (receive s = .fault .stuck ∨
      ∃ m k l st d sess bz o, ReceiveOf { s with dbgCnt := 0 } m k l st d sess bz o ∧
        receive s = done (receivedState s m k l st d sess bz) o)) := by
  by_cases hs : s.session = .opened
  · refine .inr ⟨hs, ?_⟩
    simp only [receive, hs, ne_eq, not_true_eq_false, if_false]
    rcases receiveLoop_cases (receiveRounds s) { s with dbgCnt := 0 } with h |
      ⟨m, k, l, st, d, sess, bz, o, hof, heq⟩
    · exact .inl (by simpa [hs] using h)
    · exact .inr ⟨m, k, l, st, d, sess, bz, o, by simpa [hs] using hof, by simpa [hs, receivedState] using heq⟩
  · exact .inl ⟨hs, by simp [receive, hs]⟩

end Sys2Proof.Machine
end

