-- ==== Sys2Proof/Laws/Exec.lean ====
section
/-! SUPPORT. What an instruction can do: most only answer, the encode operations fill `TXBUF`, the validator writes
`RXSTAT`. The session, send and receive operations have their own laws in Laws/Ops.lean and Laws/Rx.lean. -/

namespace Sys2Proof.Machine

/-! ## Instructions that only answer -/

/-- The instructions that only answer: they touch no register, no byte space and no line. -/
def answersOnly : Instr → Bool
  | .sessionOpen _ | .sessionClose | .seqInit | .seqAdvance | .txEncode _ _ | .txOrder0 _ | .txOrder1 _ _
  | .txOrder5 _ _ _ | .txSend | .rxAssemble | .rxValidate _ | .rxReceive | .xchg | .req _ _ _ | .rsp _ _ _ _
  | .dbg _ _ _ _ => false
  | _ => true

/-- The instruction ends with an outcome that is neither a rejection nor a transport failure, and changes nothing else. -/
def AnswersOnly (s : State) (r : StepResult) : Prop :=
  ∃ o, r = .next (finish s o) ∧ (∀ x, o ≠ .noFrame x) ∧ o ≠ .transportError

theorem answersOnly_succeed (s : State) (v : Value) : AnswersOnly s (succeed s v) := ⟨.ok v, rfl, by simp, by simp⟩

theorem answersOnly_refuse (s : State) (w) : AnswersOnly s (refuse s w) := ⟨.refused w, rfl, by simp, by simp⟩

theorem answersOnly_finishBytes (s : State) (r) : AnswersOnly s (finishBytes s r) := by
  cases r with
  | error w => exact answersOnly_refuse s w
  | ok b => exact answersOnly_succeed s _

theorem answersOnly_decodeOne (dec b) (s : State) : AnswersOnly s (decodeOne dec b s) := by
  unfold decodeOne
  split
  · exact answersOnly_succeed _ _
  · exact answersOnly_refuse _ _

theorem answersOnly_decodeEncoded (r) (s : State) : AnswersOnly s (decodeEncoded r s) := by
  cases r with
  | error w => exact answersOnly_refuse s w
  | ok b => exact answersOnly_decodeOne (decodeBlock s.params) b s

theorem exec_answersOnly (i : Instr) (s : State) (h : answersOnly i = true) : AnswersOnly s (exec i s) := by
  cases i
  all_goals unfold exec; dsimp only
  case regRead n =>
    unfold execRegRead
    split
    · exact answersOnly_succeed _ _
    · exact answersOnly_refuse _ _
  case crcRange =>
    unfold execCrcRange
    split
    · exact answersOnly_refuse _ _
    · exact answersOnly_succeed _ _
  case blockHeader =>
    unfold execBlockHeader
    split <;> exact answersOnly_succeed _ _
  case mbDec =>
    unfold execMbDec
    exact answersOnly_decodeOne _ _ _
  case mbDecWrapper =>
    unfold execMbDecWrapper
    exact answersOnly_decodeOne _ _ _
  case mbDecDelay =>
    unfold execMbDecDelay
    exact answersOnly_decodeOne _ _ _
  case mbDecBlm =>
    unfold execMbDecBlm
    exact answersOnly_decodeOne _ _ _
  case mbDecToolhead =>
    unfold execMbDecToolhead
    exact answersOnly_decodeOne _ _ _
  case mbDecUnknown =>
    unfold execMbDecUnknown
    exact answersOnly_decodeOne _ _ _
  case mbEncWrapper =>
    unfold execMbEncWrapper
    exact answersOnly_finishBytes _ _
  case mbEncDelay =>
    unfold execMbEncDelay
    exact answersOnly_finishBytes _ _
  case mbEncBlm =>
    unfold execMbEncBlm
    exact answersOnly_finishBytes _ _
  case mbEncRaw =>
    unfold execMbEncRaw
    exact answersOnly_finishBytes _ _
  case mbPack =>
    unfold execMbPack
    exact answersOnly_finishBytes _ _
  case wrap =>
    unfold execWrap
    exact answersOnly_decodeEncoded _ _
  case delay =>
    unfold execDelay
    exact answersOnly_decodeEncoded _ _
  case toolhead =>
    unfold execToolhead
    exact answersOnly_decodeEncoded _ _
  case blmNN =>
    unfold execBlmNN
    exact answersOnly_decodeEncoded _ _
  case blmNW =>
    unfold execBlmNW
    exact answersOnly_decodeEncoded _ _
  case blmWN =>
    unfold execBlmWN
    exact answersOnly_decodeEncoded _ _
  case blmWW =>
    unfold execBlmWW
    exact answersOnly_decodeEncoded _ _
  case unknown =>
    unfold execUnknown
    exact answersOnly_decodeEncoded _ _
  case sessionOpen => cases h
  case sessionClose => cases h
  case crcTab => exact answersOnly_succeed _ _
  case crcStep => exact answersOnly_succeed _ _
  case seqInit => cases h
  case seqCurrent => exact answersOnly_succeed _ _
  case seqAdvance => cases h
  case txEncode => cases h
  case txOrder0 => cases h
  case txOrder1 => cases h
  case txOrder5 => cases h
  case txSend => cases h
  case rxAssemble => cases h
  case rxValidate => cases h
  case rxReceive => cases h
  case xchg => cases h
  case mbScan => exact answersOnly_succeed _ _
  case mbEncToolhead => exact answersOnly_succeed _ _
  case catOrder => exact answersOnly_succeed _ _
  case catReply => exact answersOnly_succeed _ _
  case errReason => exact answersOnly_succeed _ _
  case stoppedDec => exact answersOnly_succeed _ _
  case beUint => exact answersOnly_succeed _ _
  case text => exact answersOnly_succeed _ _
  case req => cases h
  case rsp => cases h
  case dbg => cases h
  case ctrlReq => exact answersOnly_succeed _ _
  case ctrlRsp => exact answersOnly_succeed _ _
  case orderResume => exact answersOnly_succeed _ _
  case orderQueueCommandBlocks => exact answersOnly_succeed _ _
  case orderWriteFirmwareConfiguration => exact answersOnly_succeed _ _
  case replyOk => exact answersOnly_succeed _ _
  case replyGenericApplicationError => exact answersOnly_succeed _ _
  case replyStopped => exact answersOnly_succeed _ _
  case subUnknownOrder => exact answersOnly_succeed _ _
  case subBadParameterFormat => exact answersOnly_succeed _ _
  case subBadParameterValue => exact answersOnly_succeed _ _
  case subInvalidDeviceType => exact answersOnly_succeed _ _
  case subInvalidDeviceNumber => exact answersOnly_succeed _ _
  case subIncorrectMode => exact answersOnly_succeed _ _
  case subBusy => exact answersOnly_succeed _ _
  case subFailed => exact answersOnly_succeed _ _
  case subFirmwareError => exact answersOnly_succeed _ _
  case subCannotActivateDevice => exact answersOnly_succeed _ _
  case stoppedPayload => exact answersOnly_succeed _ _

/-! ## The operations that write something -/

/-- Everything the encode procedure can do (42_frame_tx.md R161, R163). -/
theorem encodeRequest_cases (code : Byte) (params : Bytes) (s : State) :
    encodeRequest code params s = refuse s .txTooLong ∨
    (params.length ≤ maxParams ∧ encodeRequest code params s =
      succeed (storeTx s (requestFrame s.params.crcTab s.seq code params))
        (.bytes (requestFrame s.params.crcTab s.seq code params))) := by
  unfold encodeRequest
  split
  · exact .inl rfl
  · exact .inr ⟨by omega, rfl⟩

/-- Validation never answers DEBUG_LIMIT (43_frame_rx.md R189). -/
theorem validateFrame_cases (tab : Vector Byte 256) (sq : Nibble) (f : Bytes) :
    (∃ c p, validateFrame tab sq f = .reply c p) ∨ validateFrame tab sq f = .debug ∨
    ∃ r, validateFrame tab sq f = .reject r ∧ r ≠ .debugLimit := by
  unfold validateFrame
  repeat' split
  all_goals simp

theorem open_cases (d : Bytes) (s : State) :
    (s.session = .opened ∧ execSessionOpen d s = refuse s .alreadyOpen) ∨
    (s.session ≠ .opened ∧ ∃ l, l.calls = .openLine d :: s.line.calls ∧
      (l.lineIn = s.line.lineIn ∧ l.lineInCycle = s.line.lineInCycle) ∧
      (execSessionOpen d s = done (failTransport { s with line := l }) .transportError ∨
       execSessionOpen d s = succeed (openSession { s with line := l }) .unit)) := by
  by_cases h : s.session = .opened
  · exact .inl ⟨h, by simp [execSessionOpen, h]⟩
  · obtain ⟨a, l, ha, -, hc, hin, hcyc, -⟩ := trOpen_cases d s
    refine .inr ⟨h, l, hc, ⟨hin, hcyc⟩, ?_⟩
    cases a with
    | error => exact .inl (by simp [execSessionOpen, h, ha])
    | ok => exact .inr (by simp [execSessionOpen, h, ha])

/-- Everything SESSION.CLOSE can do: it closes an open session, and leaves any other as it is (47_session.md R313; log 21). -/
theorem close_cases (s : State) :
    (s.session = .opened ∧ execSessionClose s = succeed (endExchange { trClose s with session := .closed }) .unit) ∨
    (s.session ≠ .opened ∧ execSessionClose s = succeed (endExchange s) .unit) := by
  by_cases h : s.session = .opened
  · exact .inl ⟨h, by rw [execSessionClose, if_pos h]⟩
  · exact .inr ⟨h, by rw [execSessionClose, if_neg h]⟩

theorem assembleOp_cases (s : State) :
    (s.session ≠ .opened ∧ execRxAssemble s = refuse s .noSession) ∨
    (s.session = .opened ∧ ∃ m k l, m.covers k ∧ k ≤ maxFrame ∧ s.line.readOf l ∧
      (∃ j, j + 1 ≤ maxFrame ∧
        l.calls = List.replicate j (.readByte s.params.tShort) ++ .readByte s.params.tLong :: s.line.calls) ∧
      (execRxAssemble s = succeed { s with rxBuf := m, rxPos := k, line := l } (.bytes m.bytes) ∨
       execRxAssemble s = done { s with rxBuf := m, rxPos := k, line := l, rxStat := .rejected .badSync } (.noFrame .badSync) ∨
       execRxAssemble s = done { s with rxBuf := m, rxPos := k, line := l, session := .failed, busy := false } .transportError)) := by
  by_cases h : s.session = .opened
  · refine .inr ⟨h, ?_⟩
    obtain ⟨m, k, l, hm, hk, hl, -, hcalls, hres⟩ := assemble_cases s
    refine ⟨m, k, l, hm, hk, hl, hcalls, ?_⟩
    rcases hres with ⟨ha, -⟩ | ⟨ha, -⟩ | ha
    · exact .inl (by simp [execRxAssemble, h, ha, candidate])
    · exact .inr (.inl (by simp [execRxAssemble, h, ha]))
    · exact .inr (.inr (by simp [execRxAssemble, h, ha]))
  · exact .inl ⟨h, by simp [execRxAssemble, h]⟩

theorem validateOp_cases (f : Bytes) (s : State) :
    ∃ st o, validateOp f s = done { s with rxStat := st } o ∧
      ((∃ c p, o = .ok (.reply c p) ∧ st = .accepted) ∨ (o = .ok .debug ∧ st = .debug) ∨ ∃ r, r ≠ .debugLimit ∧ o = .noFrame r ∧ st = .rejected r) := by
  rcases validateFrame_cases s.params.crcTab s.seq f with ⟨c, p, h⟩ | h | ⟨r, h, hr⟩
  · exact ⟨_, _, rfl, .inl ⟨c, p, by simp [validate, h, Verdict.outcome], by simp [validate, h, Verdict.rxStat]⟩⟩
  · exact ⟨_, _, rfl, .inr (.inl ⟨by simp [validate, h, Verdict.outcome], by simp [validate, h, Verdict.rxStat]⟩)⟩
  · exact ⟨_, _, rfl, .inr (.inr ⟨r, hr, by simp [validate, h, Verdict.outcome], by simp [validate, h, Verdict.rxStat]⟩)⟩

/-- What a send can do to the state. -/
theorem send_cases (s : State) :
    (∃ why, (why = .noSession ∧ s.session ≠ .opened ∨ s.session = .opened ∧ (why = .busy ∨ why = .nothingEncoded)) ∧ ∀ next, sendRequest s next = refuse s why) ∨
    (∃ e, readTxBytes s 0 s.txLen = .error e ∧ ∀ next, sendRequest s next = .fault e) ∨
    (s.session = .opened ∧ s.busy = false ∧ ∃ l : Line, l.calls = .sendBytes :: s.line.calls ∧ l.lineIn = s.line.lineIn ∧ l.lineInCycle = s.line.lineInCycle ∧
      ((∀ next, sendRequest s next = done (failTransport { s with line := l }) .transportError) ∨
       (∀ next, sendRequest s next = next { s with line := l, busy := true }))) := by
  by_cases h1 : s.session = .opened
  · cases h2 : s.busy
    · by_cases h3 : s.txLen = 0
      · exact .inl ⟨.nothingEncoded, .inr ⟨h1, .inr rfl⟩, fun _ => by simp [sendRequest, h1, h2, h3]⟩
      · cases hf : readTxBytes s 0 s.txLen with
        | error e => exact .inr (.inl ⟨e, rfl, fun _ => by simp [sendRequest, h1, h2, h3, hf]⟩)
        | ok f =>
          obtain ⟨a, l, ha, hout, hcalls, hin, hcyc, hopen⟩ := trSend_cases f s
          refine .inr (.inr ⟨h1, rfl, l, hcalls, hin, hcyc, ?_⟩)
          cases a with
          | error => exact .inl fun _ => by simp [sendRequest, h1, h2, h3, hf, ha]
          | ok => exact .inr fun _ => by simp [sendRequest, h1, h2, h3, hf, ha]
    · exact .inl ⟨.busy, .inr ⟨h1, .inl rfl⟩, fun _ => by simp [sendRequest, h1, h2]⟩
  · exact .inl ⟨.noSession, .inl ⟨rfl, h1⟩, fun _ => by simp [sendRequest, h1]⟩

/-- XCHG is a send that ends, or a send that ends `Ok` and then a receive (43_frame_rx.md R198). -/
theorem xchg_cases (s : State) :
    (∃ r, exec .xchg s = r ∧ exec .txSend s = r ∧ ∀ t, r = .next t → t.outcome ≠ some (.ok .unit)) ∨
    (s.session = .opened ∧ ∃ l : Line, l.lineIn = s.line.lineIn ∧ l.lineInCycle = s.line.lineInCycle ∧
      exec .txSend s = .next (finish { s with line := l, busy := true } (.ok .unit)) ∧
      exec .xchg s = receive { s with line := l, busy := true }) := by
  have hx : exec .xchg s = sendRequest s receive := rfl
  have ht : exec .txSend s = sendRequest s (fun s => succeed s .unit) := rfl
  rcases send_cases s with ⟨w, -, he⟩ | ⟨e, -, he⟩ | ⟨hs, -, l, -, hin, hcyc, he | he⟩
  · exact .inl ⟨_, hx.trans (he _), ht.trans (he _), fun t h => by cases h; simp [finish]⟩
  · exact .inl ⟨_, hx.trans (he _), ht.trans (he _), fun t h => by cases h⟩
  · exact .inl ⟨_, hx.trans (he _), ht.trans (he _), fun t h => by cases h; simp [finish]⟩
  · exact .inr ⟨hs, l, hin, hcyc, ht.trans (he _), hx.trans (he _)⟩

/-! ## Every next state of every instruction -/

/-- Everything a next state can be. -/
inductive NextOf (i : Instr) (s : State) : State → Prop
  | answer (o : OpOutcome) (hi : answersOnly i = true) (hr : ∀ r, o ≠ .noFrame r) (ht : o ≠ .transportError) :
      NextOf i s (finish s o)
  | refused (why : RefusedWhy) (hi : answersOnly i = false) : NextOf i s (finish s (.refused why))
  | opened (d : Bytes) (l : Line) (hi : i = .sessionOpen d) (hs : s.session ≠ .opened)
      (hl : l.calls = .openLine d :: s.line.calls) :
      NextOf i s (finish (openSession { s with line := l }) (.ok .unit))
  | openFailed (d : Bytes) (l : Line) (hi : i = .sessionOpen d) (hs : s.session ≠ .opened)
      (hl : l.calls = .openLine d :: s.line.calls)
      (hin : l.lineIn = s.line.lineIn ∧ l.lineInCycle = s.line.lineInCycle) :
      NextOf i s (finish (failTransport { s with line := l }) .transportError)
  | closed (hi : i = .sessionClose) (hs : s.session = .opened) :
      NextOf i s (finish (endExchange { trClose s with session := .closed }) (.ok .unit))
  | notOpen (hi : i = .sessionClose) (hs : s.session ≠ .opened) : NextOf i s (finish (endExchange s) (.ok .unit))
  | seqInit (hi : i = .seqInit) : NextOf i s (finish { s with seq := 0 } (.ok .unit))
  | seqAdvance (hi : i = .seqAdvance) : NextOf i s (finish { s with seq := s.seq + 1 } (.ok .unit))
  | encoded (code : Byte) (params : Bytes)
      (hi : i = .txEncode code params ∨ i = .txOrder0 code ∨ (∃ b, i = .txOrder1 code b) ∨ ∃ b v, i = .txOrder5 code b v)
      (hp : params.length ≤ maxParams) :
      NextOf i s (finish (storeTx s (requestFrame s.params.crcTab s.seq code params))
        (.ok (.bytes (requestFrame s.params.crcTab s.seq code params))))
  | sent (l : Line) (hi : i = .txSend) (hs : s.session = .opened) (hb : s.busy = false)
      (hl : l.calls = .sendBytes :: s.line.calls) :
      NextOf i s (finish { s with line := l, busy := true } (.ok .unit))
  | sendFailed (l : Line) (hi : i = .txSend ∨ i = .xchg) (hs : s.session = .opened) (hb : s.busy = false)
      (hl : l.calls = .sendBytes :: s.line.calls)
      (hin : l.lineIn = s.line.lineIn ∧ l.lineInCycle = s.line.lineInCycle) :
      NextOf i s (finish (failTransport { s with line := l }) .transportError)
  | assembled (m : Memory) (k : Nat) (l : Line) (hi : i = .rxAssemble) (hs : s.session = .opened) (hm : m.covers k)
      (hk : k ≤ maxFrame) (hl : s.line.readOf l)
      (hc : ∃ j, j + 1 ≤ maxFrame ∧
        l.calls = List.replicate j (.readByte s.params.tShort) ++ .readByte s.params.tLong :: s.line.calls) :
      NextOf i s (finish { s with rxBuf := m, rxPos := k, line := l } (.ok (.bytes m.bytes)))
  | badSync (m : Memory) (k : Nat) (l : Line) (hi : i = .rxAssemble) (hs : s.session = .opened) (hm : m.covers k)
      (hk : k ≤ maxFrame) (hl : s.line.readOf l)
      (hc : ∃ j, j + 1 ≤ maxFrame ∧
        l.calls = List.replicate j (.readByte s.params.tShort) ++ .readByte s.params.tLong :: s.line.calls) :
      NextOf i s (finish { s with rxBuf := m, rxPos := k, line := l, rxStat := .rejected .badSync } (.noFrame .badSync))
  | readFailed (m : Memory) (k : Nat) (l : Line) (hi : i = .rxAssemble) (hs : s.session = .opened) (hm : m.covers k)
      (hk : k ≤ maxFrame) (hl : s.line.readOf l)
      (hc : ∃ j, j + 1 ≤ maxFrame ∧
        l.calls = List.replicate j (.readByte s.params.tShort) ++ .readByte s.params.tLong :: s.line.calls) :
      NextOf i s (finish { s with rxBuf := m, rxPos := k, line := l, session := .failed, busy := false } .transportError)
  | validated (st : RxStat) (o : OpOutcome)
      (hi : (∃ f, i = .rxValidate f) ∨ (∃ sq c p, i = .req sq c p) ∨ (∃ r sq c p, i = .rsp r sq c p) ∨
        ∃ r sq c p, i = .dbg r sq c p)
      (ho : (∃ c p, o = .ok (.reply c p) ∧ st = .accepted) ∨ (o = .ok .debug ∧ st = .debug) ∨
        ∃ r, r ≠ .debugLimit ∧ o = .noFrame r ∧ st = .rejected r) :
      NextOf i s (finish { s with rxStat := st } o)
  | received (m : Memory) (k : Nat) (l l₀ : Line) (st : RxStat) (d : Nat) (sess : Session) (bz bz₀ : Bool) (o : OpOutcome)
      (hi : (i = .rxReceive ∧ l₀ = s.line) ∨
        (i = .xchg ∧ s.busy = false ∧ l₀.calls = .sendBytes :: s.line.calls))
      (hs : s.session = .opened)
      (hof : ReceiveOf { s with line := l₀, busy := bz₀, dbgCnt := 0 } m k l st d sess bz o) :
      NextOf i s (finish (receivedState s m k l st d sess bz) o)

theorem next_encodeRequest {i : Instr} {s t : State} {code : Byte} {params : Bytes} (ha : answersOnly i = false)
    (hi : i = .txEncode code params ∨ i = .txOrder0 code ∨ (∃ b, i = .txOrder1 code b) ∨ ∃ b v, i = .txOrder5 code b v)
    (h : encodeRequest code params s = .next t) : NextOf i s t := by
  rcases encodeRequest_cases code params s with he | ⟨hp, he⟩
  · rw [he] at h
    cases h
    exact .refused _ ha
  · rw [he] at h
    cases h
    exact .encoded code params hi hp

theorem next_validateOp {i : Instr} {s t : State} {f : Bytes}
    (hi : (∃ f, i = .rxValidate f) ∨ (∃ sq c p, i = .req sq c p) ∨ (∃ r sq c p, i = .rsp r sq c p) ∨
      ∃ r sq c p, i = .dbg r sq c p)
    (h : validateOp f s = .next t) : NextOf i s t := by
  obtain ⟨st, o, he, ho⟩ := validateOp_cases f s
  rw [he] at h
  cases h
  exact .validated st o hi ho

theorem next_receive {i : Instr} {s t : State} {l₀ : Line} {bz₀ : Bool}
    (hi : (i = .rxReceive ∧ l₀ = s.line) ∨ (i = .xchg ∧ s.busy = false ∧ l₀.calls = .sendBytes :: s.line.calls))
    (hs : s.session = .opened) (h : receive { s with line := l₀, busy := bz₀ } = .next t) : NextOf i s t := by
  rcases receive_cases { s with line := l₀, busy := bz₀ } with ⟨hn, -⟩ | ⟨-, he | hr⟩
  · exact absurd hs hn
  · rw [he] at h
    cases h
  · obtain ⟨m, k, l, st, d, sess, bz, o, hof, he⟩ := hr
    rw [he] at h
    cases h
    exact .received m k l l₀ st d sess bz bz₀ o hi hs hof

/-- Every next state of every instruction. -/
theorem exec_next {i : Instr} {s t : State} (h : exec i s = .next t) : NextOf i s t := by
  by_cases ha : answersOnly i = true
  · obtain ⟨o, he, hr, ht⟩ := exec_answersOnly i s ha
    rw [he] at h
    cases h
    exact .answer o ha hr ht
  · have ha' : answersOnly i = false := by simpa using ha
    cases i
    case sessionOpen d =>
      rcases open_cases d s with ⟨-, he⟩ | ⟨hs, l, hl, hin, he | he⟩
      · rw [show exec (.sessionOpen d) s = execSessionOpen d s from rfl, he] at h
        cases h
        exact .refused _ ha'
      · rw [show exec (.sessionOpen d) s = execSessionOpen d s from rfl, he] at h
        cases h
        exact .openFailed d l rfl hs hl hin
      · rw [show exec (.sessionOpen d) s = execSessionOpen d s from rfl, he] at h
        cases h
        exact .opened d l rfl hs hl
    case sessionClose =>
      rcases close_cases s with ⟨hs, he⟩ | ⟨hs, he⟩
      all_goals rw [show exec .sessionClose s = execSessionClose s from rfl, he] at h; cases h
      · exact .closed rfl hs
      · exact .notOpen rfl hs
    case seqInit =>
      cases h
      exact .seqInit rfl
    case seqAdvance =>
      cases h
      exact .seqAdvance rfl
    case txEncode code params => exact next_encodeRequest ha' (.inl rfl) h
    case txOrder0 code => exact next_encodeRequest (params := []) ha' (.inr (.inl rfl)) h
    case txOrder1 code b => exact next_encodeRequest (params := [b]) ha' (.inr (.inr (.inl ⟨b, rfl⟩))) h
    case txOrder5 code b v =>
      exact next_encodeRequest (params := b :: bytesBe 4 v.toNat) ha' (.inr (.inr (.inr ⟨b, v, rfl⟩))) h
    case txSend =>
      rcases send_cases s with ⟨w, -, he⟩ | ⟨e, -, he⟩ | ⟨hs, hb, l, hl, hin, hcyc, he | he⟩
      all_goals rw [show exec .txSend s = sendRequest s (fun s => succeed s .unit) from rfl, he] at h; cases h
      · exact .refused _ ha'
      · exact .sendFailed l (.inl rfl) hs hb hl ⟨hin, hcyc⟩
      · exact .sent l rfl hs hb hl
    case rxAssemble =>
      rcases assembleOp_cases s with ⟨-, he⟩ | ⟨hs, m, k, l, hm, hk, hl, hc, he | he | he⟩
      all_goals rw [show exec .rxAssemble s = execRxAssemble s from rfl, he] at h; cases h
      · exact .refused _ ha'
      · exact .assembled m k l rfl hs hm hk hl hc
      · exact .badSync m k l rfl hs hm hk hl hc
      · exact .readFailed m k l rfl hs hm hk hl hc
    case rxValidate f => exact next_validateOp (.inl ⟨f, rfl⟩) h
    case req sq c p => exact next_validateOp (.inr (.inl ⟨sq, c, p, rfl⟩)) h
    case rsp r sq c p => exact next_validateOp (.inr (.inr (.inl ⟨r, sq, c, p, rfl⟩))) h
    case dbg r sq c p => exact next_validateOp (.inr (.inr (.inr ⟨r, sq, c, p, rfl⟩))) h
    case rxReceive =>
      by_cases hs : s.session = .opened
      · exact next_receive (bz₀ := s.busy) (.inl ⟨rfl, rfl⟩) hs h
      · have he : exec .rxReceive s = refuse s .noSession := by
          rw [show exec .rxReceive s = receive s from rfl, receive, if_pos hs]
        rw [he] at h
        cases h
        exact .refused _ ha'
    case xchg =>
      rcases send_cases s with ⟨w, -, he⟩ | ⟨e, -, he⟩ | ⟨hs, hb, l, hl, hin, hcyc, he | he⟩
      all_goals rw [show exec .xchg s = sendRequest s receive from rfl, he] at h
      · cases h
        exact .refused _ ha'
      · cases h
      · cases h
        exact .sendFailed l (.inr rfl) hs hb hl ⟨hin, hcyc⟩
      · exact next_receive (l₀ := l) (bz₀ := true) (.inr ⟨rfl, hb, hl⟩) hs h
    all_goals exact absurd rfl ha

end Sys2Proof.Machine
end

