-- ==== Sys2Proof/Laws/Frames.lean ====
section
/-! SUPPORT. Frames taken apart: what validation says of one, what an assembly makes of one on the line, and how the receive
loop gets past debug frames. -/

namespace Sys2Proof.Machine

/-! ## The fields of a frame -/

/-- The six checks on a candidate written out field by field (43_frame_rx.md R188, R189). -/
theorem validateFrame_fields (tab : Vector Byte 256) (sq : Nibble) (b0 l c code k : Byte) (params : Bytes) :
    validateFrame tab sq ([b0, l, c, code] ++ params ++ [k]) =
      if b0 ≠ rspSync then .reject .badSync
      else if k ≠ crc8 tab ([l, c, code] ++ params) then .reject .badCrc
      else if l = 0 ∨ l = 1 ∨ l.toNat ≠ params.length + 2 then .reject .badLength
      else if debugFlag c then .debug
      else if seqNibble c ≠ sq then .reject .badSeq
      else .reply code params := by
  have hlen : ([b0, l, c, code] ++ params ++ [k]).length = params.length + 5 := by simp
  have hlast : byteAt ([b0, l, c, code] ++ params ++ [k]) (params.length + 5 - 1) = k := by
    simp only [byteAt, List.getD_eq_getElem?_getD]
    rw [List.getElem?_append_right (by simp)]
    simp
  have hs1 : slice ([b0, l, c, code] ++ params ++ [k]) 1 (params.length + 5 - 1) = [l, c, code] ++ params := by
    simp [slice]
  have hs4 : slice ([b0, l, c, code] ++ params ++ [k]) 4 (params.length + 5 - 1) = params := by
    simp [slice]
  have h5 : ¬ params.length + 5 < minFrame := by simp [minFrame]
  have e3 : params.length + 5 - 3 = params.length + 2 := by omega
  unfold validateFrame
  rw [hlen, hlast, hs1, hs4, if_neg h5, e3]
  rfl

/-- A candidate of five bytes or more has these fields. -/
theorem fields_of_length {f : Bytes} (h : 5 ≤ f.length) :
    ∃ b0 l c code params k, f = [b0, l, c, code] ++ params ++ [k] := by
  rcases f with _ | ⟨b0, _ | ⟨l, _ | ⟨c, _ | ⟨code, r⟩⟩⟩⟩
  all_goals try (simp at h; done)
  rcases List.eq_nil_or_concat r with rfl | ⟨params, k, rfl⟩
  · simp at h
  · exact ⟨b0, l, c, code, params, k, by simp⟩

theorem debugFlag_response (d : Bool) (r : BitVec 3) (sq : Nibble) : debugFlag (responseControl d r sq) = d := by
  revert r sq
  cases d <;> decide +kernel

theorem seqNibble_response (d : Bool) (r : BitVec 3) (sq : Nibble) : seqNibble (responseControl d r sq) = sq := by
  revert r sq
  cases d <;> decide +kernel

/-- A control byte is its three fields (30_encoding.md R88). -/
theorem control_split : ∀ c : Byte, c = responseControl (debugFlag c) (controlReserved c) (seqNibble c) := by
  decide +kernel

/-- A response frame is the sync byte, its length byte `l` and `l + 1` bytes more (R82, R85). -/
theorem responseFrame_parts (tab : Vector Byte 256) (d : Bool) (r : BitVec 3) (sq : Nibble) (code : Byte)
    (params : Bytes) (h : params.length ≤ maxParams) :
    ∃ l rest, responseFrame tab d r sq code params = rspSync :: l :: rest ∧ rest.length = l.toNat + 1 ∧
      l.toNat = params.length + 2 := by
  have hl : (BitVec.ofNat 8 (params.length + 2)).toNat = params.length + 2 := by
    simp [maxParams] at h ⊢
    omega
  refine ⟨BitVec.ofNat 8 (params.length + 2), [responseControl d r sq, code] ++ params ++
    [crc8 tab (frameBody (responseControl d r sq) code params)], by simp [responseFrame, buildFrame, frameBody], ?_, hl⟩
  rw [hl]
  simp

/-- What validation says of a response frame (43_frame_rx.md R194, R195, R196). -/
theorem validateFrame_response (tab : Vector Byte 256) (sq sq' : Nibble) (d : Bool) (r : BitVec 3) (code : Byte)
    (params : Bytes) (h : params.length ≤ maxParams) :
    validateFrame tab sq (responseFrame tab d r sq' code params) =
      if d then .debug else if sq' ≠ sq then .reject .badSeq else .reply code params := by
  have hl : (BitVec.ofNat 8 (params.length + 2)).toNat = params.length + 2 := by
    simp [maxParams] at h ⊢
    omega
  have hf : responseFrame tab d r sq' code params =
      [rspSync, BitVec.ofNat 8 (params.length + 2), responseControl d r sq', code] ++ params ++
        [crc8 tab (frameBody (responseControl d r sq') code params)] := by
    simp [responseFrame, buildFrame, frameBody]
  have h0 : ¬ (BitVec.ofNat 8 (params.length + 2) = 0 ∨ BitVec.ofNat 8 (params.length + 2) = 1 ∨
      (BitVec.ofNat 8 (params.length + 2)).toNat ≠ params.length + 2) := by
    rintro (h0 | h0 | h0)
    · have := congrArg BitVec.toNat h0
      rw [hl] at this
      simp at this
    · have := congrArg BitVec.toNat h0
      rw [hl] at this
      simp at this
    · exact h0 hl
  rw [hf, validateFrame_fields, if_neg (by simp), if_neg (by simp [frameBody]), if_neg h0, debugFlag_response,
    seqNibble_response]

/-! ## Byte spaces -/

theorem bytes_writeBytes (f : Bytes) : (Memory.writeBytes [] 0 f).bytes = f := (writeBytes_nil_covers f).2

theorem writeBytes_holds (f : Bytes) : (Memory.writeBytes [] 0 f).Holds f := by
  intro i
  rw [covers_read (writeBytes_nil_covers f).1, bytes_writeBytes]

/-- The encoded frame read back (42_frame_tx.md R167). -/
theorem readTx_holds {s : State} {f : Bytes} (h : s.txBuf.Holds f) (hl : f.length = s.txLen) (hc : s.txLen ≤ 258) :
    readTxBytes s 0 s.txLen = .ok f :=
  readTxBytes_ok 0 (by simpa [txBufCap] using hc) hl fun i _ => by simpa using h i

/-! ## Frames on the line -/

/-- One response frame at the front of the line is what an assembly collects. -/
theorem assemble_response (s : State) (d : Bool) (r : BitVec 3) (sq : Nibble) (code : Byte) (params : Bytes)
    (more : List ReadAnswer) (h : params.length ≤ maxParams)
    (hl : s.line.lineIn = answers (responseFrame s.params.crcTab d r sq code params) ++ more) :
    ∃ calls, assemble s = (.candidate, { s with
      rxBuf := Memory.writeBytes [] 0 (responseFrame s.params.crcTab d r sq code params)
      rxPos := params.length + 5
      line := { s.line with lineIn := more, calls := calls ++ s.line.calls } }) := by
  obtain ⟨l, rest, hf, hlen, hn⟩ := responseFrame_parts s.params.crcTab d r sq code params h
  refine ⟨List.replicate (l.toNat + 2) (.readByte s.params.tShort) ++ [.readByte s.params.tLong], ?_⟩
  rw [assemble_frame s l rest more hlen (by rw [hl, hf]; rfl), hf, hn]
  simp

/-- With nothing scheduled, an assembly reads the repeating answers from their start (log 6). -/
theorem assemble_cycle (s : State) (h : s.line.lineIn = []) (h2 : s.line.lineInCycle ≠ []) :
    assemble s = assemble { s with line := { s.line with lineIn := s.line.lineInCycle } } := by
  have hr : ∀ t, trRead t (clearRx s) =
      trRead t (clearRx { s with line := { s.line with lineIn := s.line.lineInCycle } }) := by
    intro t
    unfold trRead clearRx
    cases hc : s.line.lineInCycle with
    | nil => exact absurd hc h2
    | cons a m => simp [h, hc]
  unfold assemble
  rw [hr]

/-- The receive loop gets past debug frames, up to the bound where there is one (43_frame_rx.md R197). -/
theorem receiveLoop_skips (frames : List Bytes) (n : Nat) (s : State) (more : List ReadAnswer)
    (hf : ∀ d ∈ frames, IsDebugFrame s.params.crcTab d)
    (hk : ∀ k, s.params.debugSkipLimit = some k → s.dbgCnt + frames.length ≤ k)
    (hl : s.line.lineIn = answers frames.flatten ++ more) :
    ∃ m k calls, receiveLoop (frames.length + n) s = receiveLoop n { s with
      rxBuf := m, rxPos := k, dbgCnt := s.dbgCnt + frames.length,
      line := { s.line with lineIn := more, calls := calls ++ s.line.calls } } := by
  induction frames generalizing s with
  | nil => exact ⟨s.rxBuf, s.rxPos, [], by simp [answers] at hl; simp [← hl]⟩
  | cons f frames ih =>
    obtain ⟨r, sq, code, params, hp, rfl⟩ := hf _ (List.mem_cons_self ..)
    obtain ⟨calls, ha⟩ := assemble_response s true r sq code params (answers frames.flatten ++ more) hp
      (by rw [hl]; simp [answers])
    have hv : ∀ s' : State, s'.params = s.params →
        validate s' (responseFrame s.params.crcTab true r sq code params) = .debug := by
      intro s' h
      simp [validate, h, validateFrame_response _ _ _ _ _ _ _ hp]
    have hlim : ∀ s' : State, s'.params = s.params → s'.dbgCnt = s.dbgCnt + 1 → debugLimitPassed s' = false := by
      intro s' h1 h2
      simp only [debugLimitPassed, h1, h2]
      cases hd : s.params.debugSkipLimit with
      | none => rfl
      | some k =>
        have := hk k hd
        simp at this
        simp
        omega
    obtain ⟨m, k, calls', hr⟩ := ih
      { s with
        rxBuf := Memory.writeBytes [] 0 (responseFrame s.params.crcTab true r sq code params)
        rxPos := params.length + 5
        dbgCnt := s.dbgCnt + 1
        line := { s.line with lineIn := answers frames.flatten ++ more, calls := calls ++ s.line.calls } }
      (fun d hd => hf d (List.mem_cons_of_mem _ hd)) (fun k hd => by have := hk k hd; simp at this ⊢; omega) rfl
    refine ⟨m, k, calls' ++ calls, ?_⟩
    have hn : (responseFrame s.params.crcTab true r sq code params :: frames).length + n = (frames.length + n) + 1 := by
      simp
      omega
    rw [hn]
    simp only [receiveLoop, ha, candidate, bytes_writeBytes, hv, hlim]
    simp only [Bool.false_eq_true, if_false]
    rw [hr]
    simp [Nat.add_assoc, Nat.add_comm 1]

/-- There are at least as many scheduled answers as frames on the line. -/
theorem frames_le_answers {tab : Vector Byte 256} (frames : List Bytes) (hf : ∀ d ∈ frames, IsDebugFrame tab d) :
    frames.length ≤ (answers frames.flatten).length := by
  rw [answers, List.length_map]
  induction frames with
  | nil => exact Nat.le_refl _
  | cons f fs ih =>
    have h1 : 1 ≤ f.length := by
      obtain ⟨r, sq, code, params, hp, rfl⟩ := hf _ (List.mem_cons_self ..)
      simp [responseFrame, buildFrame]
    have h2 := ih fun d hd => hf d (List.mem_cons_of_mem _ hd)
    rw [List.flatten_cons, List.length_append, List.length_cons]
    omega

end Sys2Proof.Machine
end

