-- ==== Sys2Proof/Laws/Stream.lean ====
section
/-! SUPPORT. The line as a stream of answers: what a read, an assembly and a receive take from it. -/

namespace Sys2Proof.Machine

/-! ## The stream -/

theorem Line.gone_zero (l : Line) : l.Gone l 0 := fun k => by simp

theorem Line.gone_trans {l m n : Line} {i j : Nat} (h : l.Gone m i) (h' : m.Gone n j) : l.Gone n (i + j) := fun k => by
  rw [h', h, Nat.add_assoc]

/-- The stream depends on the two schedules alone. -/
theorem Line.answer_congr {l m : Line} (h : l.lineIn = m.lineIn) (h' : l.lineInCycle = m.lineInCycle) (n : Nat) :
    l.answer n = m.answer n := by
  simp only [Line.answer, h, h']

theorem Line.starts_nil (l : Line) : l.Starts [] := nofun

theorem Line.starts_append {l m : Line} {as bs : List ReadAnswer} (h : l.Gone m as.length) :
    l.Starts (as ++ bs) ↔ l.Starts as ∧ m.Starts bs := by
  constructor
  · intro hs
    refine ⟨fun k a hk => hs k a ?_, fun k a hk => ?_⟩
    · rw [List.getElem?_append_left (List.getElem?_eq_some_iff.1 hk).1, hk]
    · rw [h, hs (as.length + k) a (by rw [List.getElem?_append_right (Nat.le_add_right ..)]; simpa using hk)]
  · rintro ⟨h1, h2⟩ k a hk
    by_cases hlt : k < as.length
    · exact h1 k a (by rwa [List.getElem?_append_left hlt] at hk)
    · rw [List.getElem?_append_right (by omega)] at hk
      rw [← h2 _ a hk, h]
      congr
      omega

theorem Line.starts_left {l : Line} {as bs : List ReadAnswer} (h : l.Starts (as ++ bs)) : l.Starts as := fun k a hk =>
  h k a (by rw [List.getElem?_append_left (List.getElem?_eq_some_iff.1 hk).1, hk])

/-- A read takes the first answer of the stream. -/
theorem trRead_answer (t : Nat) (s : State) :
    ∃ l, trRead t s = (s.line.answer 0, { s with line := l }) ∧ s.line.Gone l 1 := by
  rcases hl : s.line.lineIn with _ | ⟨a, more⟩
  · rcases hc : s.line.lineInCycle with _ | ⟨a, more⟩
    · exact ⟨_, by simp only [trRead_silent t hl hc, Line.answer, hl, hc]; rfl, fun k => by simp [Line.answer, hl, hc]⟩
    · refine ⟨_, by simp only [trRead_repeats t hl hc, Line.answer, hl, hc]; rfl, fun k => ?_⟩
      simp only [Line.answer, hl, hc, List.length_cons, List.getElem?_nil, List.length_nil, reduceCtorEq, if_false,
        Nat.sub_zero]
      by_cases hk : k < more.length
      · rw [List.getElem?_eq_getElem hk, Nat.mod_eq_of_lt (a := 1 + k) (by omega), List.getD_eq_getElem?_getD (i := 1 + k),
          Nat.add_comm 1 k, List.getElem?_cons_succ, List.getElem?_eq_getElem hk]
        rfl
      · rw [List.getElem?_eq_none (by omega), show 1 + k = k - more.length + (more.length + 1) by omega,
          Nat.add_mod_right]
  · refine ⟨_, by simp only [trRead_scheduled t hl, Line.answer, hl]; rfl, fun k => ?_⟩
    simp only [Line.answer, hl, Nat.add_comm 1 k, List.getElem?_cons_succ, List.length_cons, Nat.add_sub_add_right]

/-! ## An assembly -/

/-- What an assembly ends with, of the bytes it collected and the number of answers it took. -/
def TookFrame (l : Line) (c : Bytes) (n : Nat) : AssembleEnd → Prop
  | .candidate => (n = c.length ∧ ∃ len rest, c = rspSync :: len :: rest ∧ rest.length = len.toNat + 1) ∨
      (n = c.length + 1 ∧ IsCutShort c ∧ l.answer c.length = .timeout)
  | .badSync => n = 1 ∧ ∃ b, b ≠ rspSync ∧ c = [b]
  | .failed => n = c.length + 1 ∧ IsCutShort c ∧ l.answer c.length = .error

theorem starts_cons {l m : Line} {b : Byte} {bs : Bytes} (h : l.Gone m 1) (h0 : l.answer 0 = .byte b)
    (hs : m.Starts (answers bs)) : l.Starts (answers (b :: bs)) :=
  (Line.starts_append (as := [ReadAnswer.byte b]) (bs := answers bs) h).2 ⟨fun k a hk => by
    cases k with
    | zero => simp at hk; rw [h0, hk]
    | succ k => simp at hk, hs⟩

theorem assembleBody_stream (w : Nat) (s : State) (hc : s.rxBuf.covers s.rxPos) :
    ∃ more n, (assembleBody w s).2.rxBuf.bytes = s.rxBuf.bytes ++ more ∧ s.line.Starts (answers more) ∧
      s.line.Gone (assembleBody w s).2.line n ∧
      (((assembleBody w s).1 = .candidate ∧ more.length = w ∧ n = more.length) ∨
       ((assembleBody w s).1 = .candidate ∧ more.length < w ∧ n = more.length + 1 ∧ s.line.answer more.length = .timeout) ∨
       ((assembleBody w s).1 = .failed ∧ more.length < w ∧ n = more.length + 1 ∧ s.line.answer more.length = .error)) := by
  induction w generalizing s with
  | zero => exact ⟨[], 0, by simp [assembleBody], Line.starts_nil _, Line.gone_zero _, .inl ⟨rfl, rfl, rfl⟩⟩
  | succ w ih =>
    obtain ⟨l, hr, hg⟩ := trRead_answer s.params.tShort s
    cases ha : s.line.answer 0 with
    | error =>
      exact ⟨[], 1, by simp [assembleBody, hr, ha], Line.starts_nil _, by simpa [assembleBody, hr, ha] using hg,
        .inr (.inr (by simp [assembleBody, hr, ha]))⟩
    | timeout =>
      exact ⟨[], 1, by simp [assembleBody, hr, ha], Line.starts_nil _, by simpa [assembleBody, hr, ha] using hg,
        .inr (.inl (by simp [assembleBody, hr, ha]))⟩
    | byte b =>
      have he : assembleBody (w + 1) s = assembleBody w (storeRx { s with line := l } b) := by
        simp only [assembleBody, hr, ha]
      obtain ⟨hc', hb⟩ := write_covers b hc
      obtain ⟨more, n, h1, h2, h3, h4⟩ := ih (storeRx { s with line := l } b) hc'
      have hn (k : Nat) : (storeRx { s with line := l } b).line.answer k = s.line.answer (k + 1) := by
        rw [Nat.add_comm]
        exact hg k
      rw [he]
      refine ⟨b :: more, n + 1, ?_, starts_cons hg ha h2, ?_, ?_⟩
      · rw [h1, storeRx, hb]
        simp
      · rw [Nat.add_comm]
        exact Line.gone_trans hg h3
      · rw [hn] at h4
        simpa using h4

/-- What is left of an assembly after the sync byte, of the line `l` as it was before that byte. -/
theorem assembleLength_stream (l : Line) (s : State) (hl : l.Gone s.line 1) (hc : s.rxBuf.covers s.rxPos)
    (hb : s.rxBuf.bytes = [rspSync]) :
    ∃ more n, (assembleLength s).2.rxBuf.bytes = rspSync :: more ∧ s.line.Starts (answers more) ∧
      s.line.Gone (assembleLength s).2.line n ∧ TookFrame l (rspSync :: more) (n + 1) (assembleLength s).1 := by
  have hn (k : Nat) : l.answer (k + 1) = s.line.answer k := by rw [hl, Nat.add_comm]
  obtain ⟨m, hr, hg⟩ := trRead_answer s.params.tShort s
  cases ha : s.line.answer 0 with
  | error =>
    exact ⟨[], 1, by simp [assembleLength, hr, ha, hb], Line.starts_nil _, by simpa [assembleLength, hr, ha] using hg,
      by simpa [assembleLength, hr, ha, TookFrame, IsCutShort, rspSync] using (hn 0).trans ha⟩
  | timeout =>
    exact ⟨[], 1, by simp [assembleLength, hr, ha, hb], Line.starts_nil _, by simpa [assembleLength, hr, ha] using hg,
      by simpa [assembleLength, hr, ha, TookFrame, IsCutShort, rspSync] using (hn 0).trans ha⟩
  | byte len =>
    have he : assembleLength s = assembleBody (len.toNat + 1) (storeRx { s with line := m } len) := by
      simp only [assembleLength, hr, ha]
    obtain ⟨hc', hb'⟩ := write_covers len hc
    obtain ⟨more, n, g1, g2, g3, g4⟩ := assembleBody_stream (len.toNat + 1) (storeRx { s with line := m } len) hc'
    have hn2 (k : Nat) : l.answer (k + 2) = (storeRx { s with line := m } len).line.answer k := by
      rw [hn (k + 1), Nat.add_comm]
      exact (hg k).symm
    rw [he]
    refine ⟨len :: more, 1 + n, ?_, starts_cons hg ha g2, Line.gone_trans hg g3, ?_⟩
    · rw [g1, storeRx, hb', hb]
      rfl
    · rcases g4 with ⟨e, h, rfl⟩ | ⟨e, h, rfl, ht⟩ | ⟨e, h, rfl, ht⟩
      · rw [e]
        exact .inl ⟨by simp; omega, len, more, rfl, h⟩
      · rw [e]
        exact .inr ⟨by simp; omega, ⟨rfl, h⟩, (hn2 _).trans ht⟩
      · rw [e]
        exact ⟨by simp; omega, ⟨rfl, h⟩, (hn2 _).trans ht⟩

theorem assemble_took (s : State) :
    ∃ c n, (assemble s).2.rxBuf.bytes = c ∧ s.line.Starts (answers c) ∧ s.line.Gone (assemble s).2.line n ∧
      TookFrame s.line c n (assemble s).1 := by
  obtain ⟨l, hr, hg⟩ := trRead_answer s.params.tLong (clearRx s)
  rw [clearRx_line] at hr hg
  cases ha : s.line.answer 0 with
  | error =>
    exact ⟨[], 1, by simp [assemble, hr, ha, Memory.bytes], Line.starts_nil _, by simpa [assemble, hr, ha] using hg,
      by simp [assemble, hr, ha, TookFrame, IsCutShort]⟩
  | timeout =>
    exact ⟨[], 1, by simp [assemble, hr, ha, Memory.bytes], Line.starts_nil _, by simpa [assemble, hr, ha] using hg,
      by simp [assemble, hr, ha, TookFrame, IsCutShort]⟩
  | byte b =>
    by_cases hb : b = rspSync
    · have he : assemble s = assembleLength (storeRx { clearRx s with line := l } b) := by
        simp only [assemble, hr, ha, if_pos hb]
      obtain ⟨more, n, g1, g2, g3, g4⟩ :=
        assembleLength_stream s.line (storeRx { clearRx s with line := l } b) hg rfl (by rw [hb]; rfl)
      rw [he]
      exact ⟨rspSync :: more, 1 + n, g1, starts_cons hg (by rw [ha, hb]) g2, Line.gone_trans hg g3, by
        rwa [Nat.add_comm]⟩
    · have he : assemble s = (.badSync, rejectWith (storeRx { clearRx s with line := l } b) .badSync) := by
        simp only [assemble, hr, ha, if_neg hb]
      rw [he]
      exact ⟨[b], 1, rfl, starts_cons hg ha (Line.starts_nil _), hg, rfl, b, hb, rfl⟩

/-- What the end of an assembly says of the bytes `c` it collected and of the answer `cut` that would have cut them short. -/
def AssembleEnd.says (c : Bytes) (cut : ReadAnswer) : AssembleEnd → Prop
  | .candidate => cut = .timeout ∧ (c = [] ∨ ∃ rest, c = rspSync :: rest)
  | .badSync => cut = .timeout ∧ ∃ b, b ≠ rspSync ∧ c = [b]
  | .failed => cut = .error ∧ IsCutShort c

/-- What an assembly takes from the stream (43_frame_rx.md R183 to R186). -/
theorem assemble_stream (s : State) :
    ∃ c cut, (assemble s).2.rxBuf.bytes = c ∧ s.line.TookCandidate (assemble s).2.line [] c cut ∧
      (assemble s).1.says c cut := by
  obtain ⟨c, n, hb, hs, hg, ht⟩ := assemble_took s
  cases he : (assemble s).1 with
  | candidate =>
    rw [he] at ht
    rcases ht with ⟨rfl, l, rest, rfl, hlen⟩ | ⟨rfl, hcut, ha⟩
    · exact ⟨_, .timeout, hb, ⟨hs, .inl ⟨fun h => by have := h.2; omega, hg⟩⟩, rfl, .inr ⟨_, rfl⟩⟩
    · refine ⟨_, .timeout, hb, ⟨hs, .inr ⟨hcut, ha, hg⟩⟩, rfl, ?_⟩
      rcases c with _ | ⟨b, _ | ⟨l, rest⟩⟩
      · exact .inl rfl
      · exact .inr ⟨[], by rw [show b = 0x42 from hcut]; rfl⟩
      · exact .inr ⟨l :: rest, by rw [hcut.1]; rfl⟩
  | badSync =>
    rw [he] at ht
    obtain ⟨rfl, b, hne, rfl⟩ := ht
    exact ⟨_, .timeout, hb, ⟨hs, .inl ⟨hne, hg⟩⟩, rfl, b, hne, rfl⟩
  | failed =>
    rw [he] at ht
    obtain ⟨rfl, hcut, ha⟩ := ht
    exact ⟨_, .error, hb, ⟨hs, .inr ⟨hcut, ha, hg⟩⟩, rfl, hcut⟩

/-! ## Debug frames on the line -/

/-- The sequences of bytes a line starts with are prefixes of each other. -/
theorem starts_comparable {l : Line} {a b : Bytes} (ha : l.Starts (answers a)) (hb : l.Starts (answers b))
    (h : a.length ≤ b.length) : a <+: b := by
  rw [List.prefix_iff_eq_take]
  apply List.ext_getElem
  · simp [h]
  · intro k hk hk'
    have h1 := ha k _ (by rw [answers, List.getElem?_map, List.getElem?_eq_getElem hk]; rfl)
    have h2 := hb k _ (by rw [answers, List.getElem?_map, List.getElem?_eq_getElem (Nat.lt_of_lt_of_le hk h)]; rfl)
    simpa [h1] using h2

/-- A debug frame is the sync byte, a length byte and as many bytes as that says. -/
theorem IsDebugFrame.parts {tab : Vector Byte 256} {d : Bytes} (h : IsDebugFrame tab d) :
    ∃ (l : Byte) (rest : Bytes), d = rspSync :: l :: rest ∧ rest.length = l.toNat + 1 := by
  obtain ⟨r, sq, code, params, hp, rfl⟩ := h
  obtain ⟨l, rest, hf, hlen, -⟩ := responseFrame_parts tab true r sq code params hp
  exact ⟨l, rest, hf, hlen⟩

theorem IsDebugFrame.not_cutShort {tab : Vector Byte 256} {d : Bytes} (h : IsDebugFrame tab d) : ¬ IsCutShort d := by
  obtain ⟨l, rest, rfl, hlen⟩ := h.parts
  rintro ⟨-, hlt⟩
  omega

/-- Two debug frames at the same place are one. -/
theorem debugFrame_unique {tab : Vector Byte 256} {d e x y : Bytes} (hd : IsDebugFrame tab d) (he : IsDebugFrame tab e)
    (h : d ++ x <+: e ++ y) : d = e := by
  obtain ⟨l, rest, rfl, hl⟩ := hd.parts
  obtain ⟨m, rest', rfl, hm⟩ := he.parts
  simp only [List.cons_append, List.cons_prefix_cons, true_and] at h
  obtain ⟨rfl, z, hz⟩ := h
  rw [List.append_assoc] at hz
  rw [(List.append_inj hz (by omega)).1]

/-- Runs of debug frames from the same place are prefixes of each other. -/
theorem debugRun_prefix {tab : Vector Byte 256} {l : Line} {F G : List Bytes} (hF : DebugRun tab l F)
    (hG : DebugRun tab l G) (h : F.length ≤ G.length) : F <+: G := by
  have key : ∀ F G : List Bytes, (∀ d ∈ F, IsDebugFrame tab d) → (∀ d ∈ G, IsDebugFrame tab d) → F.length ≤ G.length →
      (F.flatten <+: G.flatten ∨ G.flatten <+: F.flatten) → F <+: G := by
    intro F
    induction F with
    | nil => exact fun G _ _ _ _ => List.nil_prefix
    | cons f F ih =>
      intro G hF hG hl hp
      cases G with
      | nil => simp at hl
      | cons g G =>
        have hf := hF f (List.mem_cons_self ..)
        have hg := hG g (List.mem_cons_self ..)
        simp only [List.flatten_cons] at hp
        have hfg : f = g := by
          rcases hp with hp | hp
          · exact debugFrame_unique hf hg hp
          · exact (debugFrame_unique hg hf hp).symm
        subst hfg
        simp only [List.prefix_append_right_inj] at hp
        exact List.cons_prefix_cons.2 ⟨rfl, ih G (fun d hd => hF d (List.mem_cons_of_mem _ hd))
          (fun d hd => hG d (List.mem_cons_of_mem _ hd)) (by simpa using hl) hp⟩
  refine key F G hF.1 hG.1 h ?_
  rcases Nat.le_total F.flatten.length G.flatten.length with hl | hl
  · exact .inl (starts_comparable hF.2 hG.2 hl)
  · exact .inr (starts_comparable hG.2 hF.2 hl)

theorem debugRun_length {tab : Vector Byte 256} {F : List Bytes} (hF : ∀ d ∈ F, IsDebugFrame tab d) :
    F.length ≤ F.flatten.length := by
  have := frames_le_answers F hF
  rwa [answers, List.length_map] at this

/-- Past its schedule, a line that repeats itself is periodic. -/
theorem answer_periodic {l : Line} {i j : Nat} (hi : l.lineIn.length ≤ i) (hj : l.lineIn.length ≤ j)
    (h : (i - l.lineIn.length) % l.lineInCycle.length = (j - l.lineIn.length) % l.lineInCycle.length) (n : Nat) :
    l.answer (i + n) = l.answer (j + n) := by
  simp only [Line.answer]
  rw [List.getElem?_eq_none (by omega), List.getElem?_eq_none (by omega),
    show i + n - l.lineIn.length = i - l.lineIn.length + n by omega,
    show j + n - l.lineIn.length = j - l.lineIn.length + n by omega, Nat.add_mod, h, ← Nat.add_mod]

/-- On a line whose debug frames come to an end, that end comes before the line has repeated itself: a run of them is
shorter than the rounds of a receive. -/
theorem debugRun_bounded {tab : Vector Byte 256} {l : Line} {G : List Bytes} (he : DebugRunEnds tab l)
    (hG : DebugRun tab l G) : G.length < l.lineIn.length + l.lineInCycle.length + 1 := by
  obtain ⟨F, hF, hmax⟩ := he
  by_contra hlong
  -- what is left of a line without repetition is silence
  have hcyc : l.lineInCycle ≠ [] := by
    intro hc
    have h1 := debugRun_length hG.1
    have hlt : l.lineIn.length < G.flatten.length := by omega
    have := hG.2 l.lineIn.length _ (by rw [answers, List.getElem?_map, List.getElem?_eq_getElem hlt]; rfl)
    simp [Line.answer, hc] at this
  have hpos : 0 < l.lineInCycle.length := List.length_pos_iff.2 hcyc
  have ext : ∀ H : List Bytes, DebugRun tab l H → H.length ≤ F.length := by
    intro H hH
    by_contra hlt
    obtain ⟨K, rfl⟩ := debugRun_prefix hF hH (by omega)
    cases K with
    | nil => simp at hlt
    | cons d K =>
      refine hmax d ⟨fun e he => hH.1 e ?_, ?_⟩
      · rcases List.mem_append.1 he with he | he
        · exact List.mem_append_left _ he
        · exact List.mem_append_right _ (by simp at he; simp [he])
      · refine Line.starts_left (bs := answers K.flatten) ?_
        simpa [answers] using hH.2
  have hlen := ext G hG
  -- where the first `k` frames end
  let p (k : Nat) := (F.take k).flatten.length
  have hp (k : Nat) (hk : k ≤ F.length) : k ≤ p k := by
    have := debugRun_length (F := F.take k) fun d hd => hF.1 d (List.mem_of_mem_take hd)
    rwa [List.length_take, Nat.min_eq_left hk] at this
  obtain ⟨i, hi, j, hj, hij, hmod⟩ := Finset.exists_ne_map_eq_of_card_lt_of_maps_to
    (s := Finset.Icc l.lineIn.length (l.lineIn.length + l.lineInCycle.length)) (t := Finset.range l.lineInCycle.length)
    (f := fun k => (p k - l.lineIn.length) % l.lineInCycle.length) (by simp; omega)
    (fun k _ => by simp [Nat.mod_lt _ hpos])
  simp only [Finset.mem_Icc] at hi hj
  have again : ∀ i j, l.lineIn.length ≤ i → l.lineIn.length ≤ j → i < j → j ≤ F.length →
      (p i - l.lineIn.length) % l.lineInCycle.length = (p j - l.lineIn.length) % l.lineInCycle.length → False := by
    intro i j hi hj hlt hjF hmod
    have hr : DebugRun tab l (F.take j ++ F.drop i) := by
      refine ⟨fun d hd => ?_, ?_⟩
      · rcases List.mem_append.1 hd with hd | hd
        · exact hF.1 d (List.mem_of_mem_take hd)
        · exact hF.1 d (List.mem_of_mem_drop hd)
      · have split (k : Nat) : answers F.flatten = answers (F.take k).flatten ++ answers (F.drop k).flatten := by
          rw [answers, answers, answers, ← List.map_append, ← List.flatten_append, List.take_append_drop]
        have hj' : l.Starts (answers (F.take j).flatten) := Line.starts_left (split j ▸ hF.2)
        have hlenk (k : Nat) : (answers (F.take k).flatten).length = p k := by rw [answers, List.length_map]
        intro k a hk
        rw [List.flatten_append, answers, List.map_append, ← answers, ← answers] at hk
        by_cases hkj : k < p j
        · exact hj' k a (by rwa [List.getElem?_append_left (by rw [hlenk]; exact hkj)] at hk)
        · rw [List.getElem?_append_right (by rw [hlenk]; omega), hlenk] at hk
          have := hF.2 (p i + (k - p j)) a (by
            rw [split i, List.getElem?_append_right (by rw [hlenk]; omega), hlenk, Nat.add_sub_cancel_left, hk])
          rw [← this, show k = p j + (k - p j) by omega, Nat.add_sub_cancel_left]
          exact (answer_periodic (by have := hp i (by omega); omega) (by have := hp j hjF; omega) hmod _).symm
    have := ext _ hr
    simp at this
    omega
  rcases Nat.lt_or_gt_of_ne hij with h | h
  · exact again i j hi.1 hj.1 h (by omega) hmod
  · exact again j i hj.1 hi.1 h (by omega) hmod.symm

/-! ## A receive -/

/-- Validation takes exactly the debug frames for debug frames (43_frame_rx.md R201). -/
theorem validateFrame_debug {tab : Vector Byte 256} {sq : Nibble} {f : Bytes} (h : validateFrame tab sq f = .debug) :
    IsDebugFrame tab f := by
  by_cases hlen : f.length < 5
  · rw [validateFrame, if_pos (by simpa [minFrame] using hlen)] at h
    cases h
  · obtain ⟨b0, l, c, code, params, k, rfl⟩ := fields_of_length (Nat.not_lt.1 hlen)
    rw [validateFrame_fields] at h
    split at h
    · cases h
    split at h
    · cases h
    split at h
    · cases h
    rename_i h0 hk hl
    split at h
    · rename_i hd
      refine ⟨controlReserved c, seqNibble c, code, params, ?_, ?_⟩
      · have := l.isLt
        simp only [maxParams]
        omega
      · have hc := control_split c
        rw [hd] at hc
        have hl' : l = BitVec.ofNat 8 (params.length + 2) := by
          rw [← show l.toNat = params.length + 2 by omega]
          simp
        simp only [not_not] at h0 hk
        simp only [responseFrame, buildFrame, frameBody, ← hc, ← hl', h0, hk, List.cons_append, List.nil_append]
    · split at h <;> cases h

/-- What begins with the sync byte is no bad sync. -/
theorem validateFrame_sync {tab : Vector Byte 256} {sq : Nibble} {f : Bytes} (h : f = [] ∨ ∃ rest, f = rspSync :: rest) :
    validateFrame tab sq f ≠ .reject .badSync := by
  rcases h with rfl | ⟨rest, rfl⟩
  · simp [validateFrame, minFrame]
  · unfold validateFrame
    rw [show byteAt (rspSync :: rest) 0 = rspSync from rfl]
    repeat' split
    all_goals simp_all

theorem validateFrame_reject {tab : Vector Byte 256} {sq : Nibble} {c : Bytes} {r : RejectReason}
    (hc : c = [] ∨ ∃ rest, c = rspSync :: rest) (h : validateFrame tab sq c = .reject r) :
    r ≠ .debugLimit ∧ RejectedAs tab sq c r := by
  have h1 : r ≠ .debugLimit := by
    rintro rfl
    rcases validateFrame_cases tab sq c with ⟨_, _, h'⟩ | h' | ⟨_, h', hne⟩
    · rw [h'] at h
      cases h
    · rw [h'] at h
      cases h
    · rw [h'] at h
      cases h
      exact hne rfl
  have h2 : r ≠ .badSync := by
    rintro rfl
    exact validateFrame_sync hc h
  refine ⟨h1, ?_⟩
  cases r <;> first | exact h | exact absurd rfl h1 | exact absurd rfl h2

/-- What a receive that ends has taken from the line and left in the registers (R197, 60_exceptions.md R324, R326, R327): some debug
frames, then the candidate that ended it, which is counted where it is the debug frame that passes the bound. -/
def ReceiveTook (s t : State) (o : OpOutcome) : Prop :=
  ∃ frames c cut, DebugRun s.params.crcTab s.line frames ∧ s.line.TookCandidate t.line frames.flatten c cut ∧
    t.rxBuf.bytes = c ∧ t.dbgCnt = s.dbgCnt + frames.length + (if o = .noFrame .debugLimit then 1 else 0) ∧
    (∀ code params, o = .ok (.reply code params) →
      cut = .timeout ∧ validateFrame s.params.crcTab s.seq c = .reply code params) ∧
    (∀ r, o = .noFrame r → cut = .timeout ∧ RejectedAs s.params.crcTab s.seq c r) ∧
    (o = .transportError → cut = .error ∧ IsCutShort c)

/-- One debug frame before a receive that ends. -/
theorem receiveTook_skip {s u t : State} {o : OpOutcome} {d : Bytes} (hd : IsDebugFrame s.params.crcTab d)
    (hs : s.line.Starts (answers d)) (hg : s.line.Gone u.line d.length) (hp : u.params = s.params) (hq : u.seq = s.seq)
    (hc : u.dbgCnt = s.dbgCnt + 1) (h : ReceiveTook u t o) : ReceiveTook s t o := by
  obtain ⟨frames, c, cut, ⟨hf, hrun⟩, ⟨hst, hgone⟩, hb, hcnt, h1, h2, h3⟩ := h
  have cat (x y : Bytes) : answers (x ++ y) = answers x ++ answers y := List.map_append
  have hg' : s.line.Gone u.line (answers d).length := by simpa [answers] using hg
  rw [hp] at hf
  rw [hp, hq] at h1 h2
  refine ⟨d :: frames, c, cut, ⟨?_, ?_⟩, ⟨?_, ?_⟩, hb, ?_, h1, h2, h3⟩
  · intro e he
    rcases List.mem_cons.1 he with rfl | he
    · exact hd
    · exact hf e he
  · rw [List.flatten_cons, cat]
    exact (Line.starts_append hg').2 ⟨hs, hrun⟩
  · rw [List.flatten_cons, List.append_assoc, cat]
    exact (Line.starts_append hg').2 ⟨hs, hst⟩
  · rw [List.flatten_cons, List.append_assoc, List.length_append]
    refine hgone.imp (fun h => ⟨h.1, Line.gone_trans hg h.2⟩) fun h => ⟨h.1, ?_, ?_⟩
    · rw [← hg]
      exact h.2.1
    · rw [Nat.add_assoc]
      exact Line.gone_trans hg h.2.2
  · rw [hcnt, hc, List.length_cons]
    omega

/-- The receive loop against the stream: it is stuck where the line starts with as many debug frames as it has rounds and no
bound is passed, or it ends. -/
theorem receiveLoop_stream (rounds : Nat) (s : State) :
    (receiveLoop rounds s = .fault .stuck ∧
      (∀ k, s.params.debugSkipLimit = some k → rounds ≠ 0 → s.dbgCnt + rounds ≤ k) ∧
      ∃ frames, DebugRun s.params.crcTab s.line frames ∧ frames.length = rounds) ∨
    ∃ t o, receiveLoop rounds s = done t o ∧ ReceiveTook s t o := by
  induction rounds generalizing s with
  | zero => exact .inl ⟨rfl, fun _ _ h => absurd rfl h, [], ⟨nofun, Line.starts_nil _⟩, rfl⟩
  | succ rounds ih =>
    obtain ⟨m, k, l, -, -, -, -, -, hres⟩ := assemble_cases s
    obtain ⟨c, cut, hb, htook, hsays⟩ := assemble_stream s
    have none : DebugRun s.params.crcTab s.line [] := ⟨nofun, Line.starts_nil _⟩
    rcases hres with ⟨h, -⟩ | ⟨h, -⟩ | h
    · rw [h] at hb htook hsays
      have hb : m.bytes = c := hb
      simp only [receiveLoop, h, candidate, hb]
      have hv' : validate { s with rxBuf := m, rxPos := k, line := l } c = validateFrame s.params.crcTab s.seq c := rfl
      cases hv : validateFrame s.params.crcTab s.seq c with
      | reply code params =>
        simp only [hv', hv]
        exact .inr ⟨_, _, rfl, [], c, cut, none, htook, hb, by simp [Verdict.outcome],
          fun _ _ h => ⟨hsays.1, by rw [hv]; cases h; rfl⟩, nofun, nofun⟩
      | reject r =>
        simp only [hv', hv]
        obtain ⟨hr, hrej⟩ := validateFrame_reject hsays.2 hv
        exact .inr ⟨_, _, rfl, [], c, cut, none, htook, hb, by simp [Verdict.outcome, hr], nofun,
          fun _ h => ⟨hsays.1, by cases h; exact hrej⟩, nofun⟩
      | debug =>
        have hdf := validateFrame_debug hv
        simp only [hv', hv]
        split
        · exact .inr ⟨_, _, rfl, [], c, cut, none, htook, hb, by simp, nofun,
            fun _ h => ⟨hsays.1, by cases h; exact hdf⟩, nofun⟩
        · rename_i hlim
          have hst : s.line.Starts (answers c) := htook.1
          have hg : s.line.Gone l c.length := by
            rcases htook.2 with ⟨-, h⟩ | ⟨h, -⟩
            · exact h
            · exact absurd h hdf.not_cutShort
          rcases ih { s with rxBuf := m, rxPos := k, line := l, dbgCnt := s.dbgCnt + 1 } with
            ⟨hk, hl, frames, hf, hfl⟩ | ⟨t, o, ht, hr⟩
          · refine .inl ⟨hk, fun k hk _ => ?_, c :: frames, ?_, by simp [hfl]⟩
            · have h1 : s.dbgCnt + 1 ≤ k := by simpa [debugLimitPassed, hk] using hlim
              by_cases h0 : rounds = 0
              · omega
              · have := hl k hk h0
                simp only at this
                omega
            · refine ⟨fun d hd => ?_, ?_⟩
              · rcases List.mem_cons.1 hd with rfl | hd
                · exact hdf
                · exact hf.1 d hd
              · rw [List.flatten_cons, answers, List.map_append]
                exact (Line.starts_append (by simpa using hg)).2 ⟨hst, hf.2⟩
          · exact .inr ⟨t, o, ht, receiveTook_skip
              (u := { s with rxBuf := m, rxPos := k, line := l, dbgCnt := s.dbgCnt + 1 }) hdf hst hg rfl rfl rfl hr⟩
    · rw [h] at hb htook hsays
      simp only [receiveLoop, h]
      exact .inr ⟨_, _, rfl, [], c, cut, none, htook, hb, by simp, nofun,
        fun _ h => ⟨hsays.1, by cases h; exact hsays.2⟩, nofun⟩
    · rw [h] at hb htook hsays
      simp only [receiveLoop, h]
      exact .inr ⟨_, _, rfl, [], c, cut, none, htook, hb, by simp, nofun, nofun, fun _ => hsays⟩

/-- The line is taken from as its stream is: what another line with the same stream gives, this one gives. -/
theorem Line.TookCandidate.congr {l m l' : Line} {pre c : Bytes} {cut : ReadAnswer} (hl : ∀ n, m.answer n = l.answer n)
    (h : m.TookCandidate l' pre c cut) : l.TookCandidate l' pre c cut := by
  simpa only [Line.TookCandidate, Line.Starts, Line.Gone, hl] using h

/-- What is collected depends on the line's stream and the parameters alone. -/
theorem Collected.congr {s u t : State} {frames : List Bytes} {c : Bytes} {cut : ReadAnswer}
    (hl : ∀ n, u.line.answer n = s.line.answer n) (hp : u.params = s.params) (h : Collected u t frames c cut) :
    Collected s t frames c cut := by
  obtain ⟨⟨h1, h2⟩, h3, h4⟩ := h
  exact ⟨⟨hp ▸ h1, fun k a h => by rw [← hl]; exact h2 k a h⟩, h3.congr hl, h4⟩

/-- What RX.ASSEMBLE collects where it does not complete (R183, R184, R186). -/
theorem assembleOp_collected {s t : State} (hs : s.session = .opened) (h : execRxAssemble s = .next t) :
    ∃ c cut, Collected s t [] c cut ∧ s.line.SendsStay t.line ∧
      (∀ r, t.outcome = some (.noFrame r) → ∃ b, b ≠ rspSync ∧ c = [b]) ∧
      (t.outcome = some .transportError → cut = .error ∧ IsCutShort c) := by
  obtain ⟨c, cut, hb, htook, hsays⟩ := assemble_stream s
  have none : DebugRun s.params.crcTab s.line [] := ⟨nofun, Line.starts_nil _⟩
  obtain ⟨m, k, l, hm, -, hl, -, -, hres⟩ := assemble_cases s
  obtain ⟨hh, hk⟩ := covers_holds hm
  rw [execRxAssemble, if_neg (not_not.2 hs)] at h
  rcases hres with ⟨ha, -⟩ | ⟨ha, -⟩ | ha
  all_goals
    rw [ha] at h hb htook hsays
    cases h
    have hb : m.bytes = c := hb
    refine ⟨c, cut, ⟨none, htook, hb ▸ hh, hb ▸ hk⟩, hl.sendsStay, ?_, ?_⟩
  · simp [finish]
  · simp [finish]
  · exact fun _ _ => hsays.2
  · simp [finish]
  · simp [finish]
  · exact fun _ => hsays

/-- What a receive has collected where it ends (R197). -/
theorem receive_collected {s t : State} (hs : s.session = .opened) (h : receive s = .next t) :
    ∃ frames c cut, Collected s t frames c cut ∧ s.line.SendsStay t.line ∧
      t.dbgCnt = frames.length + (if t.outcome = some (.noFrame .debugLimit) then 1 else 0) ∧
      (∀ r, t.outcome = some (.noFrame r) → cut = .timeout ∧ RejectedAs s.params.crcTab s.seq c r) ∧
      (t.outcome = some .transportError → cut = .error ∧ IsCutShort c) := by
  rcases receive_cases s with ⟨hn, -⟩ | ⟨-, hf | ⟨m, k, l, st, d, sess, bz, o, hof, he⟩⟩
  · exact absurd hs hn
  · rw [hf] at h
    cases h
  · obtain ⟨hh, hk⟩ := covers_holds hof.covers
    rcases receiveLoop_stream (receiveRounds s) { s with dbgCnt := 0 } with ⟨hf, -⟩ | ⟨u, o', hu, htook⟩
    all_goals rw [receive, if_neg (not_not.2 hs)] at h he
    · rw [hf] at h
      cases h
    · rw [hu] at h he
      obtain ⟨frames, c, cut, hrun, hcand, hb, hcnt, -, hr, ht⟩ := htook
      cases h
      have hst := Host.Outcome.next.inj he
      have h1 : u.rxBuf = m := congrArg State.rxBuf hst
      have h2 : u.rxPos = k := congrArg State.rxPos hst
      have h3 : u.line = l := congrArg State.line hst
      rw [← h1] at hh hk
      refine ⟨frames, c, cut, ⟨hrun, hcand, hb ▸ hh, hb ▸ h2.trans hk⟩, h3 ▸ hof.line.sendsStay, ?_, ?_, ?_⟩
      · simpa [finish] using hcnt
      · intro r ho
        exact hr r (by simpa [finish] using ho)
      · intro ho
        exact ht (by simpa [finish] using ho)

end Sys2Proof.Machine
end

