-- ==== Sys2Proof/Tests/Slice0.lean ====
section
/-! SUPPORT. Tests: ill-formed terms that the checks refuse, words written out from the formats, single operations against
spec/95_test_vectors.md, and for every statement with hypotheses a state and operands that meet them. -/

namespace Sys2Proof.Tests

open Sys2Proof Sys2Proof.Machine

/-! One theorem at a time: many kernel evaluations side by side would each hold a thread. -/

set_option Elab.async false

/-! ## The states the tests start from -/

/-- Every default of 00_scope.md R9, and a value for each OPEN parameter. -/
def params : Params where
  crcTab := defaultCrcTab
  tLong := 100
  tShort := 10
  debugSkipLimit := none
  btWrapper := 0x01
  btDelay := 0x02
  btBlm := 0x03
  btToolhead := 0x04
  orderQueueCommandBlocks := 0x0A
  orderWriteFirmwareConfiguration := 0x0B
  replyStopped := 0x12
  minReplyResume := 0
  minReplyQueueCommandBlocks := 1
  minReplyWriteFirmwareConfiguration := 2
  moreOrders := [(0x20, ⟨.catalogued 7, .byteU32, 3⟩)]
  moreReplies := [(0x30, ⟨.catalogued 8, .noSub⟩)]
  otherSubReasons := defaultSubReasons
  stopRecovery := #v[0x41, 0x42, 0x43]
  stopCause := #v[0x51, 0x52, 0x53, 0x54, 0x55, 0x56, 0x57, 0x58, 0x59, 0x5A]

/-- After reset, with these parameters. -/
def closed : State := { State.reset with params := params }

/-- In an open session. -/
def opened : State := { closed with session := .opened }

/-- A bound on skipped debug frames. -/
def bounded (s : State) (k : Nat) : State := { s with params := { s.params with debugSkipLimit := some k } }

/-- What the line will deliver. -/
def hearing (s : State) (lineIn : List ReadAnswer) : State := { s with line := { s.line with lineIn := lineIn } }

/-- What the Transport will answer to sends and opens. -/
def answering (s : State) (answers : List IoAnswer) : State :=
  { s with line := { s.line with sendAnswers := answers, openAnswers := answers } }

/-- What the HOST issues. -/
def issuing (s : State) (program : List Command) : State := { s with program := program }

/-- The encoded request of V32. -/
def encoded (s : State) : State := storeTx s [0x23, 0x03, 0x00, 0x00, 0x01, 0x1A]

def outcome (r : StepResult) : Option OpOutcome :=
  match r with
  | .next t => t.outcome
  | .fault _ => none
  | .refused _ => none

def after (r : StepResult) : State :=
  match r with
  | .next t => t
  | .fault _ => closed
  | .refused _ => closed

theorem next_after {r : StepResult} {o : OpOutcome} (h : outcome r = some o) : r = .next (after r) := by
  cases r with
  | next t => rfl
  | fault f => cases h
  | refused f => cases h

/-- The record of V90. -/
def recordNN : BlmRecord := ⟨false, false, ⟨3, 1, 0, false, 100, 20, 10, 12, [⟨0, 200, true⟩, ⟨1, 50, false⟩]⟩⟩
/-- The record of V92. -/
def recordNW : BlmRecord := ⟨false, true, ⟨4, 4, 2, false, 16, 16, 0, 65535, [⟨2, 300, true⟩]⟩⟩
/-- The record of V93. -/
def recordWN : BlmRecord := ⟨true, false, ⟨0x4000, 0, 14, false, 1, 2, 3, 4, [⟨14, 5, false⟩]⟩⟩
/-- The record of V91. -/
def recordWW : BlmRecord :=
  ⟨true, true, ⟨0x0201, 0x0200, 9, true, 255, 0, 1000, 256, [⟨0, 40000, false⟩, ⟨9, 1, true⟩]⟩⟩

def bytesNN : Bytes := [0x0B, 0x03, 0x03, 0x01, 0x00, 0x64, 0x14, 0x0A, 0x0C, 0xC8, 0x32]
def bytesNW : Bytes := [0x0D, 0x03, 0x04, 0x84, 0x02, 0x10, 0x10, 0x00, 0x00, 0xFF, 0xFF, 0x01, 0x2C]
def bytesWN : Bytes := [0x0C, 0x03, 0xC0, 0x00, 0x00, 0x00, 0x0E, 0x01, 0x02, 0x03, 0x04, 0x05]
def bytesWW : Bytes :=
  [0x11, 0x03, 0x82, 0x01, 0x82, 0x00, 0x19, 0xFF, 0x00, 0x03, 0xE8, 0x01, 0x00, 0x9C, 0x40, 0x00, 0x01]

/-! ## Well-formedness: each check refuses an ill-formed term -/

theorem test_params_wellFormed : params.wellFormed = true := by decide +kernel

theorem test_refused_same_block_types : ({ params with btDelay := 0x01 } : Params).wellFormed = false := by decide +kernel

theorem test_refused_order_code_twice : ({ params with orderQueueCommandBlocks := 0x00 } : Params).wellFormed = false := by
  decide +kernel

theorem test_refused_reply_code_twice : ({ params with replyStopped := 0x10 } : Params).wellFormed = false := by
  decide +kernel

theorem test_refused_sub_reason_twice :
    ({ params with otherSubReasons := #v[1, 2, 3, 5, 6, 7, 8, 9, 10] } : Params).wellFormed = false := by decide +kernel

theorem test_refused_recovery_twice : ({ params with stopRecovery := #v[1, 2, 1] } : Params).wellFormed = false := by
  decide +kernel

theorem test_refused_cause_twice :
    ({ params with stopCause := #v[1, 2, 3, 4, 5, 6, 7, 8, 9, 9] } : Params).wellFormed = false := by decide +kernel

theorem test_refused_no_short_timeout : ({ params with tShort := 0 } : Params).wellFormed = false := by decide +kernel

theorem test_refused_timeouts_swapped : ({ params with tShort := 100 } : Params).wellFormed = false := by decide +kernel

theorem test_refused_request_of_254 : (Instr.req 0 0 (List.replicate 254 0)).wellFormed params = false := by decide +kernel

theorem test_refused_response_of_254 : (Instr.rsp 0 0 0 (List.replicate 254 0)).wellFormed params = false := by
  decide +kernel

theorem test_refused_debug_of_254 : (Instr.dbg 0 0 0 (List.replicate 254 0)).wellFormed params = false := by decide +kernel

theorem test_refused_wrapper_of_253 : (Instr.wrap 0 (List.replicate 253 0)).wellFormed params = false := by decide +kernel

/-- V102: `sel` does not fit a narrow mask. -/
theorem test_refused_narrow_mask :
    (Instr.blmNN ⟨0x80, 0, 0, false, 0, 0, 0, 0, [⟨7, 0, false⟩]⟩).wellFormed params = false := by decide +kernel

/-- R264 item 2, the deceleration in a wide field. -/
theorem test_refused_wide_step :
    (Instr.blmNW ⟨0, 0, 0, false, 0, 0, 0, 65536, []⟩).wellFormed params = false := by decide +kernel

/-- V104: one step for two selected axes. -/
theorem test_refused_missing_step :
    (Instr.blmWN ⟨3, 0, 0, false, 0, 0, 0, 0, [⟨0, 1, false⟩]⟩).wellFormed params = false := by decide +kernel

/-- R264 item 5. -/
theorem test_refused_wrong_direction :
    (Instr.blmWW ⟨1, 0, 0, false, 0, 0, 0, 0, [⟨0, 1, true⟩]⟩).wellFormed params = false := by decide +kernel

/-- R264 item 3. -/
theorem test_refused_primary_axis :
    (Instr.blmNN ⟨0, 0, 16, false, 0, 0, 0, 0, []⟩).wellFormed params = false := by decide +kernel

theorem test_refused_unknown_of_known_type : (Instr.unknown 0x02 []).wellFormed params = false := by decide +kernel

theorem test_refused_unknown_of_254 : (Instr.unknown 0x7E (List.replicate 254 0)).wellFormed params = false := by
  decide +kernel

theorem test_refused_stopped_of_252 :
    (Instr.stoppedPayload 0x41 0x51 (List.replicate 252 0)).wellFormed params = false := by decide +kernel

theorem test_accepted_at_the_bounds :
    (Instr.rsp 0 0 0 (List.replicate 253 0)).wellFormed params = true ∧
    (Instr.wrap 0 (List.replicate 252 0)).wellFormed params = true ∧
    (Instr.unknown 0x7E (List.replicate 253 0)).wellFormed params = true ∧
    (Instr.stoppedPayload 0x41 0x51 (List.replicate 251 0)).wellFormed params = true ∧
    (Instr.blmNN recordNN.body).wellFormed params = true ∧ (Instr.blmWW recordWW.body).wellFormed params = true := by
  decide +kernel

/-! ## Decoding: words written out by hand -/

/-- Operand wires, every one with a value of its own. -/
def wires : Operands where
  byte0 := 0xA1
  byte1 := 0xA2
  word := 0x0001E240
  nat0 := 7
  nat1 := 9
  bytes := [0xB1, 0xB2]
  blocks := [[0x02, 0x7E]]
  record := recordNN

theorem test_decode_system :
    decode params (.op 0x01 wires) = .ok (.sessionOpen [0xB1, 0xB2]) ∧ decode params (.op 0x02 wires) = .ok .sessionClose ∧
    decode params (.op 0x03 wires) = .ok (.regRead 7) := by decide

theorem test_decode_crc :
    decode params (.op 0x10 wires) = .ok (.crcTab 0xA1) ∧ decode params (.op 0x11 wires) = .ok (.crcStep 0xA1 0xA2) ∧
    decode params (.op 0x12 wires) = .ok (.crcRange [0xB1, 0xB2] 7 9) := by decide

theorem test_decode_seq :
    decode params (.op 0x20 wires) = .ok .seqInit ∧ decode params (.op 0x21 wires) = .ok .seqCurrent ∧
    decode params (.op 0x22 wires) = .ok .seqAdvance := by decide

theorem test_decode_tx :
    decode params (.op 0x30 wires) = .ok (.txEncode 0xA1 [0xB1, 0xB2]) ∧
    decode params (.op 0x31 wires) = .ok (.txOrder0 0xA1) ∧ decode params (.op 0x32 wires) = .ok (.txOrder1 0xA1 0xA2) ∧
    decode params (.op 0x33 wires) = .ok (.txOrder5 0xA1 0xA2 0x0001E240) ∧
    decode params (.op 0x34 wires) = .ok .txSend := by decide

theorem test_decode_rx :
    decode params (.op 0x40 wires) = .ok .rxAssemble ∧ decode params (.op 0x41 wires) = .ok (.rxValidate [0xB1, 0xB2]) ∧
    decode params (.op 0x42 wires) = .ok .rxReceive ∧ decode params (.op 0x43 wires) = .ok .xchg := by decide

theorem test_decode_motion_decoders :
    decode params (.op 0x50 wires) = .ok (.mbScan [0xB1, 0xB2]) ∧ decode params (.op 0x51 wires) = .ok (.mbDec [0xB1, 0xB2]) ∧
    decode params (.op 0x52 wires) = .ok (.mbDecWrapper [0xB1, 0xB2]) ∧
    decode params (.op 0x53 wires) = .ok (.mbDecDelay [0xB1, 0xB2]) ∧
    decode params (.op 0x54 wires) = .ok (.mbDecBlm [0xB1, 0xB2]) ∧
    decode params (.op 0x55 wires) = .ok (.mbDecToolhead [0xB1, 0xB2]) ∧
    decode params (.op 0x56 wires) = .ok (.mbDecUnknown [0xB1, 0xB2]) := by decide

theorem test_decode_motion_encoders :
    decode params (.op 0x60 wires) = .ok (.mbEncWrapper 0xA1 [0xB1, 0xB2]) ∧
    decode params (.op 0x61 wires) = .ok (.mbEncDelay 7) ∧ decode params (.op 0x62 wires) = .ok (.mbEncBlm recordNN) ∧
    decode params (.op 0x63 wires) = .ok (.mbEncToolhead 0xA1) ∧
    decode params (.op 0x64 wires) = .ok (.mbEncRaw 0xA1 [0xB1, 0xB2]) ∧
    decode params (.op 0x65 wires) = .ok (.mbPack [[0x02, 0x7E]]) := by decide

theorem test_decode_catalog :
    decode params (.op 0x70 wires) = .ok (.catOrder 0xA1) ∧ decode params (.op 0x71 wires) = .ok (.catReply 0xA1) ∧
    decode params (.op 0x72 wires) = .ok (.errReason 0xA1) ∧ decode params (.op 0x73 wires) = .ok (.stoppedDec [0xB1, 0xB2]) ∧
    decode params (.op 0x74 wires) = .ok (.beUint [0xB1, 0xB2] 7 9) ∧
    decode params (.op 0x75 wires) = .ok (.text [0xB1, 0xB2] 7 9) := by decide

/-- V163. -/
theorem test_decode_unlisted :
    ∀ x ∈ [0x7F, 0x00, 0x04, 0x13, 0x23, 0x35, 0x44, 0x57, 0x66, 0x76, (0xFF : Byte)],
      decode params (.op x wires) = .error (.noSuchOperation x) := by decide

/-- E6, V48, V45. -/
theorem test_decode_frames :
    decode params (.word .frame [0x23, 0x03, 0x00, 0x00, 0x01, 0x1A]) = .ok (.req 0 0x00 [0x01]) ∧
    decode params (.word .frame [0x42, 0x02, 0x70, 0x10, 0x3B]) = .ok (.rsp 7 0 0x10 []) ∧
    decode params (.word .frame [0x42, 0x03, 0x85, 0x50, 0x41, 0xB0]) = .ok (.dbg 0 5 0x50 [0x41]) := by decide +kernel

/-- R91, V42, V43, and a request whose control byte has a bit above the nibble (R87). -/
theorem test_decode_not_a_frame :
    decode params (.word .frame [0x99, 0x02, 0x00, 0x10, 0x81]) = .error (.notAWord .frame [0x99, 0x02, 0x00, 0x10, 0x81]) ∧
    decode params (.word .frame [0x42, 0x02, 0x00, 0x10, 0x80]) = .error (.notAWord .frame [0x42, 0x02, 0x00, 0x10, 0x80]) ∧
    decode params (.word .frame [0x42, 0x03, 0x00, 0x10, 0x02]) = .error (.notAWord .frame [0x42, 0x03, 0x00, 0x10, 0x02]) ∧
    decode params (.word .frame [0x23, 0x02, 0x70, 0x10, 0x3B]) =
      .error (.notAWord .frame [0x23, 0x02, 0x70, 0x10, 0x3B]) := by decide +kernel

theorem test_decode_control_bytes :
    decode params (.word .controlRequest [0x05]) = .ok (.ctrlReq 5) ∧
    decode params (.word .controlRequest [0x15]) = .error (.notAWord .controlRequest [0x15]) ∧
    decode params (.word .controlResponse [0xF5]) = .ok (.ctrlRsp true 7 5) ∧
    decode params (.word .controlResponse [0x2A]) = .ok (.ctrlRsp false 2 10) := by decide +kernel

/-- V117, V110, V115, V121, and the header of V90. -/
theorem test_decode_blocks :
    decode params (.word .blockHeader [0x0B, 0x03]) = .ok (.blockHeader 0x0B 0x03) ∧
    decode params (.word .block [0x04, 0x01, 0x00, 0x01]) = .ok (.wrap 0x00 [0x01]) ∧
    decode params (.word .block [0x04, 0x02, 0x01, 0xF4]) = .ok (.delay 500) ∧
    decode params (.word .block [0x03, 0x04, 0x02]) = .ok (.toolhead 0x02) ∧
    decode params (.word .block [0x05, 0x7E, 0xAA, 0xBB, 0xCC]) = .ok (.unknown 0x7E [0xAA, 0xBB, 0xCC]) := by decide +kernel

/-- V90 to V93. -/
theorem test_decode_blm_blocks :
    decode params (.word .block bytesNN) = .ok (.blmNN recordNN.body) ∧
    decode params (.word .block bytesNW) = .ok (.blmNW recordNW.body) ∧
    decode params (.word .block bytesWN) = .ok (.blmWN recordWN.body) ∧
    decode params (.word .block bytesWW) = .ok (.blmWW recordWW.body) := by decide +kernel

/-- V99, V119, V123. -/
theorem test_decode_not_a_block :
    decode params (.word .block [0x0A, 0x03, 0x03, 0x01, 0x00, 0x64, 0x14, 0x0A, 0x0C, 0xC8]) =
      .error (.notAWord .block [0x0A, 0x03, 0x03, 0x01, 0x00, 0x64, 0x14, 0x0A, 0x0C, 0xC8]) ∧
    decode params (.word .block [0x02, 0x01]) = .error (.notAWord .block [0x02, 0x01]) ∧
    decode params (.word .block [0x04, 0x02, 0x01]) = .error (.notAWord .block [0x04, 0x02, 0x01]) := by decide +kernel

/-- R110, R111. -/
theorem test_decode_codes :
    decode params (.word .orderCode [0x00]) = .ok .orderResume ∧
    decode params (.word .orderCode [0x0A]) = .ok .orderQueueCommandBlocks ∧
    decode params (.word .orderCode [0x0B]) = .ok .orderWriteFirmwareConfiguration ∧
    decode params (.word .orderCode [0xEE]) = .error (.notAWord .orderCode [0xEE]) ∧
    decode params (.word .replyCode [0x10]) = .ok .replyOk ∧
    decode params (.word .replyCode [0x11]) = .ok .replyGenericApplicationError ∧
    decode params (.word .replyCode [0x12]) = .ok .replyStopped ∧
    decode params (.word .replyCode [0x77]) = .error (.notAWord .replyCode [0x77]) := by decide +kernel

/-- R112. -/
theorem test_decode_sub_reasons :
    decode params (.word .subReason [0x01]) = .ok .subUnknownOrder ∧
    decode params (.word .subReason [0x02]) = .ok .subBadParameterFormat ∧
    decode params (.word .subReason [0x03]) = .ok .subBadParameterValue ∧
    decode params (.word .subReason [0x04]) = .ok .subInvalidDeviceType ∧
    decode params (.word .subReason [0x05]) = .ok .subInvalidDeviceNumber ∧
    decode params (.word .subReason [0x06]) = .ok .subIncorrectMode ∧
    decode params (.word .subReason [0x07]) = .ok .subBusy ∧ decode params (.word .subReason [0x08]) = .ok .subFailed ∧
    decode params (.word .subReason [0x09]) = .ok .subFirmwareError ∧
    decode params (.word .subReason [0x0A]) = .ok .subCannotActivateDevice ∧
    decode params (.word .subReason [0xFF]) = .error (.notAWord .subReason [0xFF]) := by decide +kernel

/-- R113. -/
theorem test_decode_stopped_payload :
    decode params (.word .replyPayload [0x41, 0x51, 0x6F, 0x6B]) = .ok (.stoppedPayload 0x41 0x51 [0x6F, 0x6B]) ∧
    decode params (.word .replyPayload [0x41]) = .error (.notAWord .replyPayload [0x41]) := by decide +kernel

/-- The table's words: a selector, a block of three bytes, a code that no selector has. -/
theorem test_table_words :
    decodeTableWord 8 0x22 = some .seqAdvance ∧ decodeTableWord 24 0x030402 = some (.toolhead 0x02) ∧
    decodeTableWord 8 0x00 = some .orderResume := by decide +kernel

/-! ## Single operations, against spec/95_test_vectors.md -/

/-- V159, V161, V160. -/
theorem test_session_open :
    outcome (exec (.sessionOpen [0x2F]) (answering closed [.ok])) = some (.ok .unit) ∧
    (after (exec (.sessionOpen [0x2F]) (answering closed [.ok]))).session = .opened ∧
    outcome (exec (.sessionOpen [0x2F]) (answering closed [.error])) = some .transportError ∧
    (after (exec (.sessionOpen [0x2F]) (answering closed [.error]))).session = .failed ∧
    outcome (exec (.sessionOpen [0x2F]) opened) = some (.refused .alreadyOpen) := by decide +kernel

/-- V162; and SESSION.CLOSE in FAILED (10_state.md R22, 20_memory.md R59). -/
theorem test_session_close :
    (after (exec .sessionClose { encoded opened with seq := 7 })).session = .closed ∧
    (after (exec .sessionClose { encoded opened with seq := 7 })).seq = 7 ∧
    (after (exec .sessionClose { encoded opened with seq := 7 })).txLen = 6 ∧
    (after (exec .sessionClose { opened with session := .failed })).session = .failed ∧
    (after (exec .sessionClose { opened with session := .failed })).line.calls = [] := by decide +kernel

/-- V157, V158; SESSION and RXSTAT as 10_state.md R36 and 60_exceptions.md R320 number them. -/
theorem test_reg_read :
    (∀ n ∈ List.range 7, outcome (exec (.regRead n) closed) = some (.ok (.nat 0))) ∧
    outcome (exec (.regRead 7) closed) = some (.refused .noSuchRegister) ∧
    outcome (exec (.regRead 5) { closed with session := .failed }) = some (.ok (.nat 2)) ∧
    outcome (exec (.regRead 1) { closed with rxStat := .rejected .debugLimit }) = some (.ok (.nat 0x16)) := by
  decide +kernel

/-- V20, V21, V22. -/
theorem test_crc_tab :
    outcome (exec (.crcTab 0x03) closed) = some (.ok (.byte 0xAA)) ∧
    outcome (exec (.crcTab 0x83) closed) = some (.ok (.byte 0x45)) ∧
    outcome (exec (.crcTab 0xD3) closed) = some (.ok (.byte 0x8A)) := by decide +kernel

/-- V18, V19. -/
theorem test_crc_step :
    outcome (exec (.crcStep 0xAA 0x00) closed) = some (.ok (.byte 0x1D)) ∧
    outcome (exec (.crcStep 0x5A 0x5A) closed) = some (.ok (.byte 0x00)) := by decide +kernel

/-- V10, V13, V15, V16. -/
theorem test_crc_range :
    outcome (exec (.crcRange [0x23, 0x03, 0x00, 0x00, 0x01, 0x1A] 1 4) closed) = some (.ok (.byte 0x1A)) ∧
    outcome (exec (.crcRange [0x31, 0x32, 0x33, 0x34, 0x35, 0x36, 0x37, 0x38, 0x39] 0 9) closed) =
      some (.ok (.byte 0xBC)) ∧
    outcome (exec (.crcRange [0x01, 0x02] 1 2) closed) = some (.refused .crcRange) ∧
    outcome (exec (.crcRange [0x01, 0x02] 2 0) closed) = some (.ok (.byte 0x00)) := by decide +kernel

/-- V23, V24, V25. -/
theorem test_seq :
    (after (exec .seqInit { closed with seq := 9 })).seq = 0 ∧
    (after (exec .seqAdvance { closed with seq := 14 })).seq = 15 ∧
    (after (exec .seqAdvance { closed with seq := 15 })).seq = 0 ∧
    outcome (exec .seqCurrent { closed with seq := 9 }) = some (.ok (.nat 9)) := by decide +kernel

/-- V30, V28, V29. -/
theorem test_tx_encode :
    outcome (exec (.txEncode 0x0A [0x04, 0x02, 0x01, 0xF4, 0x03, 0x04, 0x02]) { closed with seq := 1 }) =
      some (.ok (.bytes [0x23, 0x09, 0x01, 0x0A, 0x04, 0x02, 0x01, 0xF4, 0x03, 0x04, 0x02, 0x4A])) ∧
    outcome (exec (.txEncode 0x55 (List.replicate 253 0xAA)) closed) =
      some (.ok (.bytes ([0x23, 0xFF, 0x00, 0x55] ++ List.replicate 253 0xAA ++ [0x78]))) ∧
    outcome (exec (.txEncode 0x55 (List.replicate 254 0xAA)) closed) = some (.refused .txTooLong) := by decide +kernel

/-- V26, E6, V27. -/
theorem test_tx_orders :
    outcome (exec (.txOrder0 0x00) { closed with seq := 5 }) = some (.ok (.bytes [0x23, 0x02, 0x05, 0x00, 0xF4])) ∧
    outcome (exec (.txOrder1 0x00 0x01) closed) = some (.ok (.bytes [0x23, 0x03, 0x00, 0x00, 0x01, 0x1A])) ∧
    outcome (exec (.txOrder5 0x13 0x02 123456) { closed with seq := 3 }) =
      some (.ok (.bytes [0x23, 0x07, 0x03, 0x13, 0x02, 0x00, 0x01, 0xE2, 0x40, 0x64])) := by decide +kernel

/-- V32 to V36. -/
theorem test_tx_send :
    (after (exec .txSend (answering (encoded opened) [.ok]))).line.lineOut = [0x23, 0x03, 0x00, 0x00, 0x01, 0x1A] ∧
    (after (exec .txSend (answering (encoded opened) [.ok]))).busy = true ∧
    outcome (exec .txSend { encoded opened with busy := true }) = some (.refused .busy) ∧
    outcome (exec .txSend opened) = some (.refused .nothingEncoded) ∧
    outcome (exec .txSend (encoded closed)) = some (.refused .noSession) ∧
    (after (exec .txSend (answering (encoded opened) [.error]))).session = .failed := by decide +kernel

/-- V60a and V70, V61, V63, V67. -/
theorem test_rx_assemble :
    outcome (exec .rxAssemble (hearing opened (answers [0x42, 0x02, 0x00, 0x10, 0x81, 0x42]))) =
      some (.ok (.bytes [0x42, 0x02, 0x00, 0x10, 0x81])) ∧
    (after (exec .rxAssemble (hearing opened (answers [0x42, 0x02, 0x00, 0x10, 0x81, 0x42])))).line.lineIn = [.byte 0x42] ∧
    outcome (exec .rxAssemble opened) = some (.ok (.bytes [])) ∧
    outcome (exec .rxAssemble (hearing opened [.byte 0x42, .timeout])) = some (.ok (.bytes [0x42])) ∧
    outcome (exec .rxAssemble (hearing opened [.byte 0x42, .error])) = some .transportError := by decide +kernel

/-- V62. -/
theorem test_rx_assemble_bad_sync :
    outcome (exec .rxAssemble (hearing opened [.byte 0x99])) = some (.noFrame .badSync) ∧
    (after (exec .rxAssemble (hearing opened [.byte 0x99]))).rxBuf = [(0, 0x99)] ∧
    (after (exec .rxAssemble (hearing opened [.byte 0x99]))).line.calls = [.readByte 100] := by decide +kernel

/-- V49, V52, V41, V42, V43, V44, V46. -/
theorem test_rx_validate :
    outcome (exec (.rxValidate [0x42, 0x04, 0x01, 0x10, 0x00, 0x07, 0xAF]) { closed with seq := 1 }) =
      some (.ok (.reply 0x10 [0x00, 0x07])) ∧
    outcome (exec (.rxValidate [0x99, 0x01, 0x02]) closed) = some (.noFrame .tooShort) ∧
    outcome (exec (.rxValidate [0x23, 0x02, 0x00, 0x10, 0x81]) closed) = some (.noFrame .badSync) ∧
    outcome (exec (.rxValidate [0x42, 0x02, 0x00, 0x10, 0x80]) closed) = some (.noFrame .badCrc) ∧
    outcome (exec (.rxValidate [0x42, 0x03, 0x00, 0x10, 0x02]) closed) = some (.noFrame .badLength) ∧
    outcome (exec (.rxValidate [0x42, 0x02, 0x01, 0x10, 0x8A]) closed) = some (.noFrame .badSeq) ∧
    outcome (exec (.rxValidate [0x42, 0x03, 0x80, 0x50, 0x41, 0x40]) closed) = some (.ok .debug) := by decide +kernel

/-- V56: the cut falls where the CRC happens to fit. -/
theorem test_rx_validate_truncated :
    outcome (exec (.rxValidate [0x42, 0x05, 0x00, 0x10, 0xA2]) closed) = some (.noFrame .badLength) := by decide +kernel

/-- The line of V60: a debug frame, then the reply. -/
def debugThenReply : List ReadAnswer :=
  answers [0x42, 0x03, 0x85, 0x50, 0x41, 0xB0, 0x42, 0x02, 0x00, 0x10, 0x81]

/-- V60, V71, V72. -/
theorem test_rx_receive :
    outcome (exec .rxReceive (hearing opened debugThenReply)) = some (.ok (.reply 0x10 [])) ∧
    (after (exec .rxReceive (hearing opened debugThenReply))).dbgCnt = 1 ∧
    outcome (exec .rxReceive (hearing opened (answers [0x42, 0x03, 0x85, 0x50, 0x41, 0xB1]))) =
      some (.noFrame .badCrc) ∧
    outcome (exec .rxReceive (hearing opened (answers [0x42, 0x03, 0x80, 0x50, 0x41, 0x40]))) =
      some (.noFrame .tooShort) := by decide +kernel

/-- V75, with the bound at 0; and a transport error after a skipped debug frame, which leaves `RXSTAT` as it was (60_exceptions.md
R320, R327). -/
theorem test_rx_receive_bounded :
    outcome (exec .rxReceive (hearing (bounded opened 0) debugThenReply)) = some (.noFrame .debugLimit) ∧
    (after (exec .rxReceive (hearing (bounded opened 0) debugThenReply))).line.lineIn =
      answers [0x42, 0x02, 0x00, 0x10, 0x81] ∧
    (after (exec .rxReceive (hearing opened (answers [0x42, 0x03, 0x85, 0x50, 0x41, 0xB0] ++ [.error])))).rxStat = .none := by
  decide +kernel

/-- V79, V80. -/
theorem test_xchg :
    outcome (exec .xchg (hearing (answering (encoded opened) [.ok]) debugThenReply)) = some (.ok (.reply 0x10 [])) ∧
    (after (exec .xchg (hearing (answering (encoded opened) [.ok]) debugThenReply))).busy = false ∧
    (after (exec .xchg (hearing (answering (encoded opened) [.ok]) debugThenReply))).line.lineOut =
      [0x23, 0x03, 0x00, 0x00, 0x01, 0x1A] ∧
    outcome (exec .xchg opened) = some (.refused .nothingEncoded) := by decide +kernel

/-- V131, V135, V132, V134. -/
theorem test_mb_scan :
    outcome (exec (.mbScan [0x04, 0x02, 0x01, 0xF4, 0x03, 0x04, 0x02]) closed) =
      some (.ok (.blocks [.delay 500 5000, .toolhead 2] .complete)) ∧
    outcome (exec (.mbScan [0x04, 0x02, 0x01, 0xF4, 0x03]) closed) =
      some (.ok (.blocks [.delay 500 5000, .malformed .headerTruncated [0x03]] .stopped)) ∧
    outcome (exec (.mbScan [0x01, 0x02]) closed) =
      some (.ok (.blocks [.malformed .lengthTooSmall [0x01, 0x02]] .stopped)) ∧
    outcome (exec (.mbScan [0x04, 0x02, 0x01]) closed) =
      some (.ok (.blocks [.malformed .overrun [0x04, 0x02, 0x01]] .stopped)) := by decide +kernel

/-- V121, V123. -/
theorem test_mb_dec :
    outcome (exec (.mbDec [0x05, 0x7E, 0xAA, 0xBB, 0xCC]) closed) =
      some (.ok (.block (.unknown 0x7E [0x05, 0x7E, 0xAA, 0xBB, 0xCC]))) ∧
    outcome (exec (.mbDec [0x04, 0x02, 0x01]) closed) = some (.refused .blockOperand) := by decide +kernel

/-- V118, V119. -/
theorem test_mb_dec_wrapper :
    outcome (exec (.mbDecWrapper [0x03, 0x01, 0x22]) closed) = some (.ok (.block (.wrapper 0x22 []))) ∧
    outcome (exec (.mbDecWrapper [0x02, 0x01]) closed) =
      some (.ok (.block (.malformed .lengthMismatch [0x02, 0x01]))) := by decide +kernel

/-- V112, V114. -/
theorem test_mb_dec_delay :
    outcome (exec (.mbDecDelay [0x04, 0x02, 0xFF, 0xFF]) closed) = some (.ok (.block (.delay 65535 655350))) ∧
    outcome (exec (.mbDecDelay [0x05, 0x02, 0x01, 0xF4, 0x00]) closed) =
      some (.ok (.block (.malformed .lengthMismatch [0x05, 0x02, 0x01, 0xF4, 0x00]))) := by decide +kernel

/-- V91, V92, V93, V98. -/
theorem test_mb_dec_blm :
    outcome (exec (.mbDecBlm bytesWW) closed) = some (.ok (.block (.blm recordWW))) ∧
    outcome (exec (.mbDecBlm bytesNW) closed) = some (.ok (.block (.blm recordNW))) ∧
    outcome (exec (.mbDecBlm bytesWN) closed) = some (.ok (.block (.blm recordWN))) ∧
    outcome (exec (.mbDecBlm [0x0D, 0x03, 0x80, 0x03, 0x00, 0x01, 0x00, 0x64, 0x14, 0x0A, 0x0C, 0xC8, 0x32]) closed) =
      some (.ok (.block (.blm { recordNN with wideMask := true }))) := by decide +kernel

/-- V99, V100. -/
theorem test_mb_dec_blm_malformed :
    outcome (exec (.mbDecBlm [0x0A, 0x03, 0x03, 0x01, 0x00, 0x64, 0x14, 0x0A, 0x0C, 0xC8]) closed) =
      some (.ok (.block (.malformed .fieldOverrun [0x0A, 0x03, 0x03, 0x01, 0x00, 0x64, 0x14, 0x0A, 0x0C, 0xC8]))) ∧
    outcome (exec (.mbDecBlm [0x0C, 0x03, 0x03, 0x01, 0x00, 0x64, 0x14, 0x0A, 0x0C, 0xC8, 0x32, 0x99]) closed) =
      some (.ok (.block (.malformed .lengthMismatch
        [0x0C, 0x03, 0x03, 0x01, 0x00, 0x64, 0x14, 0x0A, 0x0C, 0xC8, 0x32, 0x99]))) := by decide +kernel

/-- V116, V122. -/
theorem test_mb_dec_others :
    outcome (exec (.mbDecToolhead [0x03, 0x04, 0xFF]) closed) = some (.ok (.block (.toolhead 0xFF))) ∧
    outcome (exec (.mbDecUnknown [0x02, 0x7E]) closed) = some (.ok (.block (.unknown 0x7E [0x02, 0x7E]))) := by
  decide +kernel

/-- V117, V110, V113, V115, V121. -/
theorem test_mb_encoders :
    outcome (exec (.mbEncWrapper 0x00 [0x01]) closed) = some (.ok (.bytes [0x04, 0x01, 0x00, 0x01])) ∧
    outcome (exec (.mbEncDelay 500) closed) = some (.ok (.bytes [0x04, 0x02, 0x01, 0xF4])) ∧
    outcome (exec (.mbEncDelay 65536) closed) = some (.refused .fieldRange) ∧
    outcome (exec (.mbEncToolhead 2) closed) = some (.ok (.bytes [0x03, 0x04, 0x02])) ∧
    outcome (exec (.mbEncRaw 0x7E [0xAA, 0xBB, 0xCC]) closed) =
      some (.ok (.bytes [0x05, 0x7E, 0xAA, 0xBB, 0xCC])) := by decide +kernel

/-- V90, V91, V92, V93, V102. -/
theorem test_mb_enc_blm :
    outcome (exec (.mbEncBlm recordNN) closed) = some (.ok (.bytes bytesNN)) ∧
    outcome (exec (.mbEncBlm recordWW) closed) = some (.ok (.bytes bytesWW)) ∧
    outcome (exec (.mbEncBlm recordNW) closed) = some (.ok (.bytes bytesNW)) ∧
    outcome (exec (.mbEncBlm recordWN) closed) = some (.ok (.bytes bytesWN)) ∧
    outcome (exec (.mbEncBlm ⟨false, false, ⟨0x80, 0, 0, false, 0, 0, 0, 0, [⟨7, 0, false⟩]⟩⟩) closed) =
      some (.refused .illFormedRecord) := by decide +kernel

/-- V96: the largest BLM. -/
theorem test_mb_enc_blm_largest :
    outcome (exec (.mbEncBlm ⟨true, true, ⟨0x7FFF, 0x5555, 15, true, 255, 255, 65535, 65535,
      (List.range 15).map (fun k => ⟨k, 1000 * k + 1, k % 2 == 0⟩)⟩⟩) closed) =
      some (.ok (.bytes ([0x2B, 0x03, 0xFF, 0xFF, 0xD5, 0x55, 0x1F, 0xFF, 0xFF, 0xFF, 0xFF, 0xFF, 0xFF, 0x00, 0x01] ++
        [0x03, 0xE9, 0x07, 0xD1, 0x0B, 0xB9, 0x0F, 0xA1, 0x13, 0x89, 0x17, 0x71, 0x1B, 0x59, 0x1F, 0x41] ++
        [0x23, 0x29, 0x27, 0x11, 0x2A, 0xF9, 0x2E, 0xE1, 0x32, 0xC9, 0x36, 0xB1]))) := by decide +kernel

/-- V141, V143, V144. -/
theorem test_mb_pack :
    outcome (exec (.mbPack [[0x04, 0x02, 0x01, 0xF4], [0x03, 0x04, 0x02]]) closed) =
      some (.ok (.bytes [0x04, 0x02, 0x01, 0xF4, 0x03, 0x04, 0x02])) ∧
    outcome (exec (.mbPack [[0x04, 0x02, 0x01]]) closed) = some (.refused .blockOperand) ∧
    outcome (exec (.mbPack (List.replicate 64 [0x04, 0x02, 0x01, 0xF4])) closed) = some (.refused .areaTooLong) := by
  decide +kernel

/-- V150, V151, V152, V153. -/
theorem test_catalog :
    outcome (exec (.catOrder 0x00) closed) = some (.ok (.order (.known ⟨.resume, .byte, 0⟩))) ∧
    outcome (exec (.catOrder 0xEE) closed) = some (.ok (.order (.unrecognized 0xEE))) ∧
    outcome (exec (.catReply 0x11) closed) =
      some (.ok (.replyEntry (.known ⟨.genericApplicationError, .errReason⟩))) ∧
    outcome (exec (.catReply 0x77) closed) = some (.ok (.replyEntry (.unrecognized 0x77))) ∧
    outcome (exec (.errReason 0x03) closed) = some (.ok (.reason (.known .badParameterValue))) ∧
    outcome (exec (.errReason 0x0B) closed) = some (.ok (.reason (.unrecognized 0x0B))) := by decide +kernel

/-- V154. -/
theorem test_stopped_dec :
    outcome (exec (.stoppedDec [0x41, 0x51, 0x6F, 0x6B]) closed) =
      some (.ok (.stopped ⟨some (.known .cleared), some (.known .reset), [0x6F, 0x6B], false⟩)) ∧
    outcome (exec (.stoppedDec [0x41]) closed) = some (.ok (.stopped ⟨some (.known .cleared), none, [], true⟩)) := by
  decide +kernel

/-- V155, V156. -/
theorem test_helpers :
    outcome (exec (.beUint [0x00, 0x01, 0xE2, 0x40] 0 4) closed) = some (.ok (.uint 123456 false)) ∧
    outcome (exec (.beUint [0x01, 0xF4] 0 4) closed) = some (.ok (.uint 500 true)) ∧
    outcome (exec (.beUint [0xAA] 3 2) closed) = some (.ok (.uint 0 true)) ∧
    outcome (exec (.text [0x6F, 0x6B] 1 5) closed) = some (.ok (.text [0x6B] true)) ∧
    outcome (exec (.text [0x6F, 0x6B] 3 1) closed) = some (.ok (.text [] true)) := by decide +kernel

/-- E6, V48, V45, R87, R88: the frame and control-byte rows. -/
theorem test_frame_rows :
    outcome (exec (.req 0 0x00 [0x01]) closed) = some (.noFrame .badSync) ∧
    outcome (exec (.rsp 7 0 0x10 []) closed) = some (.ok (.reply 0x10 [])) ∧
    outcome (exec (.dbg 0 5 0x50 [0x41]) closed) = some (.ok .debug) ∧
    outcome (exec (.ctrlReq 5) closed) = some (.ok (.control false 5)) ∧
    outcome (exec (.ctrlRsp true 7 5) closed) = some (.ok (.control true 5)) := by decide +kernel

/-- R94, V117, V110, V115, V90 to V93, V121: the block rows. -/
theorem test_block_rows :
    outcome (exec (.blockHeader 0x0B 0x03) closed) = some (.ok (.header 11 .blm)) ∧
    outcome (exec (.wrap 0x00 [0x01]) closed) = some (.ok (.block (.wrapper 0x00 [0x01]))) ∧
    outcome (exec (.delay 500) closed) = some (.ok (.block (.delay 500 5000))) ∧
    outcome (exec (.toolhead 2) closed) = some (.ok (.block (.toolhead 2))) ∧
    outcome (exec (.blmNN recordNN.body) closed) = some (.ok (.block (.blm recordNN))) ∧
    outcome (exec (.blmNW recordNW.body) closed) = some (.ok (.block (.blm recordNW))) ∧
    outcome (exec (.blmWN recordWN.body) closed) = some (.ok (.block (.blm recordWN))) ∧
    outcome (exec (.blmWW recordWW.body) closed) = some (.ok (.block (.blm recordWW))) ∧
    outcome (exec (.unknown 0x7E [0xAA]) closed) = some (.ok (.block (.unknown 0x7E [0x03, 0x7E, 0xAA]))) := by
  decide +kernel

/-- R110, R111, R112 in list order, R113: the code rows. -/
theorem test_code_rows :
    outcome (exec .orderQueueCommandBlocks closed) =
      some (.ok (.order (.known ⟨.queueCommandBlocks, .general, 1⟩))) ∧
    outcome (exec .orderWriteFirmwareConfiguration closed) =
      some (.ok (.order (.known ⟨.writeFirmwareConfiguration, .general, 2⟩))) ∧
    outcome (exec .replyStopped closed) = some (.ok (.replyEntry (.known ⟨.stopped, .stopped⟩))) ∧
    outcome (exec .subIncorrectMode closed) = outcome (exec (.errReason 0x06) closed) ∧
    outcome (exec .subCannotActivateDevice closed) = outcome (exec (.errReason 0x0A) closed) ∧
    outcome (exec (.stoppedPayload 0x43 0x5A [0x6F]) closed) =
      some (.ok (.stopped ⟨some (.known .unrecoverable), some (.known .other), [0x6F], false⟩)) := by decide +kernel

/-- A step takes the HOST's command from the port. -/
theorem test_step :
    (after (step (closed.withFetchWord 8 0x22))).seq = 1 ∧ (after (step (closed.withFetchWord 8 0x22))).program = [] ∧
    outcome (step (closed.withFetchWord 8 0x7F)) = some (.refused .noSuchOperation) := by decide +kernel

/-! ## Witnesses: for each statement with hypotheses, a state and operands that meet them -/

theorem endsOnly_of {i : Instr} {s : State} {o : OpOutcome} (ha : answersOnly i = true)
    (h : outcome (exec i s) = some o) : EndsOnly i s o := by
  obtain ⟨o', he, -, -⟩ := exec_answersOnly i s ha
  rw [he] at h
  cases h
  exact he

/-- The debug frame of V45. -/
def debugFrame : Bytes := [0x42, 0x03, 0x85, 0x50, 0x41, 0xB0]

theorem isDebugFrame : IsDebugFrame params.crcTab debugFrame := ⟨0, 5, 0x50, [0x41], by decide, by decide +kernel⟩

/-- The reply of V40. -/
def replyFrame : Bytes := [0x42, 0x02, 0x00, 0x10, 0x81]

theorem isReplyFrame : replyFrame = responseFrame params.crcTab false 0 0 0x10 [] := by decide +kernel

theorem isBlock_delay : IsBlock [0x04, 0x02, 0x01, 0xF4] := ⟨0x04, 0x02, [0x01, 0xF4], rfl, rfl⟩

theorem fitsNN : blmFits recordNN := (blmWellFormed_iff _).1 (by decide)
theorem fitsNW : blmFits recordNW := (blmWellFormed_iff _).1 (by decide)
theorem fitsWN : blmFits recordWN := (blmWellFormed_iff _).1 (by decide +kernel)
theorem fitsWW : blmFits recordWW := (blmWellFormed_iff _).1 (by decide +kernel)

theorem typesDiffer : blockTypesDiffer params := by
  unfold blockTypesDiffer
  decide

/-- A line that delivers debug frames for ever. -/
def flooded : State :=
  issuing { opened with line := { opened.line with lineInCycle := answers debugFrame } } [.op 0x42 wires]

theorem witness_StepRunsDecodedCommand :
    (issuing closed [.op 0x22 wires]).program = .op 0x22 wires :: [] ∧
    decode (issuing closed [.op 0x22 wires]).params (.op 0x22 wires) = .ok .seqAdvance := by decide

theorem witness_UnlistedSelectorRefused :
    (issuing closed [.op 0x00 wires]).program = .op 0x00 wires :: [] ∧ (0x00 : Byte) ∉ listedSelectors ∧
    (issuing closed [.op 0xFF wires]).program = .op 0xFF wires :: [] ∧ (0xFF : Byte) ∉ listedSelectors := by decide

theorem witness_DecodeOfEncode :
    params.wellFormed = true ∧ (Instr.rsp 5 9 0x10 (List.replicate 253 0xAA)).wellFormed params = true ∧
    (Instr.blmWW recordWW.body).wellFormed params = true ∧ (Instr.subBusy).wellFormed params = true := by decide +kernel

theorem witness_DecodedWordReencodes :
    Format.frame ≠ .block ∧ decode params (.word .frame replyFrame) = .ok (.rsp 0 0 0x10 []) := by decide +kernel

theorem witness_Inv_closed : closed.Inv := ⟨rfl, by decide, rfl, .inl rfl, nofun, nofun⟩

theorem witness_Inv_encoded : (answering (encoded opened) [.ok]).Inv :=
  ⟨rfl, by decide, (writeBytes_nil_covers _).1, .inr ⟨0, 0x00, [0x01], by decide, by decide +kernel⟩, nofun, nofun⟩

theorem witness_InvariantKeptByStep :
    ∃ t, (issuing (answering (encoded opened) [.ok]) [.op 0x34 wires]).Inv ∧
      step (issuing (answering (encoded opened) [.ok]) [.op 0x34 wires]) = .next t ∧ t.busy = true :=
  ⟨_, ⟨rfl, by decide, (writeBytes_nil_covers _).1, .inr ⟨0, 0x00, [0x01], by decide, by decide +kernel⟩, nofun, nofun⟩,
    next_after (o := .ok .unit) (by decide +kernel), by decide +kernel⟩

def faultOf (r : StepResult) : Option Fault :=
  match r with
  | .next _ => none
  | .fault f => some f
  | .refused _ => none

theorem fault_of {r : StepResult} {f : Fault} (h : faultOf r = some f) : r = .fault f := by
  cases r with
  | next t => cases h
  | fault g =>
    cases h
    rfl
  | refused x => cases h

theorem witness_OnlyDebugFloodStops :
    closed.Inv ∧ (∃ t, step closed = .next t) ∧ flooded.Inv ∧ step flooded = .fault .stuck :=
  ⟨witness_Inv_closed, ⟨closed, rfl⟩, ⟨rfl, by decide, rfl, .inl rfl, nofun, nofun⟩,
    fault_of (by decide +kernel)⟩

theorem witness_ParametersNeverWritten : ∃ t, step (issuing closed [.op 0x22 wires]) = .next t :=
  ⟨_, next_after (o := .ok .unit) (by decide +kernel)⟩

theorem witness_SessionOpenEffect :
    (closed.busy = true → closed.session = .opened) ∧
    ((encoded { opened with busy := true }).busy = true → (encoded { opened with busy := true }).session = .opened) := by
  decide

theorem witness_SessionLifeCycle :
    (∃ t, exec .rxAssemble (hearing opened [.error]) = .next t ∧ t.session = .failed) ∧
    (∃ t, exec (.sessionOpen []) (answering closed [.ok]) = .next t ∧ t.session = .opened) ∧
    closed.session ≠ .opened ∧ usesTransport .seqAdvance = false ∧ (∀ n, Instr.seqAdvance ≠ .regRead n) :=
  ⟨⟨_, next_after (o := .transportError) (by decide +kernel), by decide +kernel⟩,
    ⟨_, next_after (o := .ok .unit) (by decide +kernel), by decide +kernel⟩, by decide, rfl, nofun⟩

theorem witness_FailedUntilOpened :
    (∃ t, exec .sessionClose { opened with session := .failed } = .next t) ∧
    (∃ t, exec .rxReceive { opened with session := .failed } = .next t) ∧ ∀ d, Instr.sessionClose ≠ .sessionOpen d :=
  ⟨⟨_, rfl⟩, ⟨_, rfl⟩, nofun⟩

theorem witness_RefusedChangesNothing :
    (∃ t, exec .txSend closed = .next t ∧ t.outcome = some (.refused .noSession)) ∧
    ∃ t, (issuing closed [.op 0x7F wires]).program = [.op 0x7F wires] ∧ step (issuing closed [.op 0x7F wires]) = .next t ∧
      t.outcome = some (.refused .noSuchOperation) :=
  ⟨⟨_, next_after (o := .refused .noSession) (by decide +kernel), by decide +kernel⟩,
    ⟨_, rfl, next_after (o := .refused .noSuchOperation) (by decide +kernel), by decide +kernel⟩⟩

theorem witness_OutcomeTable :
    (∃ t, decodeOp 0x34 wires = .ok .txSend ∧ exec .txSend opened = .next t ∧
      t.outcome = some (.refused .nothingEncoded)) ∧
    (issuing closed [.op 0x7F wires]).program = [.op 0x7F wires] ∧
    decodeOp 0x7F wires = .error (.noSuchOperation 0x7F) :=
  ⟨⟨_, by decide, next_after (o := .refused .nothingEncoded) (by decide +kernel), by decide +kernel⟩, rfl, by decide⟩

theorem witness_RegisterPort :
    (RxStat.rejected .debugLimit, 0x16) ∈ [(RxStat.none, 0x00), (.accepted, 0x01), (.debug, 0x02), (.rejected .tooShort, 0x11),
      (.rejected .badSync, 0x12), (.rejected .badCrc, 0x13), (.rejected .badLength, 0x14), (.rejected .badSeq, 0x15),
      (.rejected .debugLimit, 0x16)] ∧
    (after (exec .rxReceive (hearing (bounded opened 0) debugThenReply))).rxStat = .rejected .debugLimit ∧
    opened.rxStat = .none ∧ 6 < 7 := by decide +kernel

theorem witness_TransportErrorEffect :
    (∃ t, exec (.sessionOpen [0x2F]) (answering closed [.error]) = .next t ∧ t.outcome = some .transportError) ∧
    (∃ t, exec .txSend (answering (encoded opened) [.error]) = .next t ∧ t.outcome = some .transportError) ∧
    (∃ t, exec .rxAssemble (hearing opened (answers [0x42, 0x02] ++ [.error])) = .next t ∧
      t.outcome = some .transportError) ∧
    (∃ t, exec .rxReceive (hearing opened (answers debugFrame ++ [.byte 0x42, .error])) = .next t ∧
      t.outcome = some .transportError) ∧
    (∃ t, exec .xchg (answering (encoded opened) [.error]) = .next t ∧ t.outcome = some .transportError) ∧
    ∃ t, exec .xchg (hearing (answering (encoded opened) [.ok]) (answers debugFrame ++ [.error])) = .next t ∧
      t.outcome = some .transportError :=
  ⟨⟨_, next_after (o := .transportError) (by decide +kernel), by decide +kernel⟩,
    ⟨_, next_after (o := .transportError) (by decide +kernel), by decide +kernel⟩,
    ⟨_, next_after (o := .transportError) (by decide +kernel), by decide +kernel⟩,
    ⟨_, next_after (o := .transportError) (by decide +kernel), by decide +kernel⟩,
    ⟨_, next_after (o := .transportError) (by decide +kernel), by decide +kernel⟩,
    ⟨_, next_after (o := .transportError) (by decide +kernel), by decide +kernel⟩⟩

/-- The registers the two statements speak of, behind one debug frame and after a byte that an error or a silence follows
(60_exceptions.md R324, R326, R327). -/
theorem test_receive_stops_behind_debug_frame :
    let failed := after (exec .rxReceive (hearing opened (answers debugFrame ++ [.byte 0x42, .error])))
    let cut := after (exec .rxReceive (hearing opened (answers debugFrame ++ [.byte 0x42])))
    (failed.rxBuf, failed.rxPos, failed.dbgCnt, failed.rxStat) = ([(0, 0x42)], 1, 1, .none) ∧
    (cut.rxBuf, cut.rxPos, cut.dbgCnt, cut.rxStat) = ([(0, 0x42)], 1, 1, .rejected .tooShort) := by decide +kernel

theorem witness_RejectionEffect :
    (∃ t, exec .rxReceive opened = .next t ∧ t.outcome = some (.noFrame .tooShort)) ∧
    (∃ t, exec .rxReceive (hearing (bounded opened 0) debugThenReply) = .next t ∧ t.outcome = some (.noFrame .debugLimit)) ∧
    (∃ t, exec .xchg (hearing (answering (encoded opened) [.ok]) (answers (debugFrame ++ [0x42, 0x02]))) = .next t ∧
      t.outcome = some (.noFrame .tooShort)) ∧
    (∃ t, exec .rxAssemble (hearing opened [.byte 0x99]) = .next t ∧ t.outcome = some (.noFrame .badSync)) ∧
    ∃ t, exec (.rxValidate []) opened = .next t ∧ t.outcome = some (.noFrame .tooShort) :=
  ⟨⟨_, next_after (o := .noFrame .tooShort) (by decide +kernel), by decide +kernel⟩,
    ⟨_, next_after (o := .noFrame .debugLimit) (by decide +kernel), by decide +kernel⟩,
    ⟨_, next_after (o := .noFrame .tooShort) (by decide +kernel), by decide +kernel⟩,
    ⟨_, next_after (o := .noFrame .badSync) (by decide +kernel), by decide +kernel⟩,
    ⟨_, next_after (o := .noFrame .tooShort) (by decide +kernel), by decide +kernel⟩⟩

theorem witness_TransportCallBounds :
    (∃ t, exec .txSend (answering (encoded opened) [.ok]) = .next t) ∧
    (∃ t, exec .rxAssemble opened = .next t ∧ opened.session = .opened) ∧
    (∃ t, exec .rxAssemble closed = .next t ∧ closed.session ≠ .opened) ∧
    (∃ t, exec .rxReceive (hearing opened debugThenReply) = .next t) ∧
    (∃ t, exec .xchg (hearing (answering (encoded opened) [.ok]) debugThenReply) = .next t) ∧
    (∃ t, exec (.sessionOpen [0x2F]) (answering closed [.ok]) = .next t) ∧ (∃ t, exec .sessionClose opened = .next t) ∧
    ∃ t, exec .seqInit opened = .next t ∧ usesTransport .seqInit = false :=
  ⟨⟨_, next_after (o := .ok .unit) (by decide +kernel)⟩, ⟨_, next_after (o := .ok (.bytes [])) (by decide +kernel), rfl⟩,
    ⟨_, rfl, by decide⟩,
    ⟨_, next_after (o := .ok (.reply 0x10 [])) (by decide +kernel)⟩,
    ⟨_, next_after (o := .ok (.reply 0x10 [])) (by decide +kernel)⟩,
    ⟨_, next_after (o := .ok .unit) (by decide +kernel)⟩, ⟨_, rfl⟩, ⟨_, rfl, rfl⟩⟩

theorem witness_SequencePeriod :
    (issuing closed (List.replicate 16 (.op 0x22 wires))).program = List.replicate 16 (.op 0x22 wires) ++ [] ∧
    (issuing closed (List.replicate 16 (.op 0x22 wires))).seq = 0 := by decide

theorem witness_OnlySequenceOperationsWriteSeq : ∃ t, exec .seqAdvance closed = .next t ∧ t.seq ≠ closed.seq :=
  ⟨_, rfl, by decide⟩

theorem witness_CrcTableAndStep :
    ∀ i : Byte, closed.params.crcTab[i.toNat]'i.isLt = crcGenerate 0xD5 i := by decide +kernel

theorem witness_CrcRangeFold :
    1 + 1 ≤ ([0x01, 0x02] : Bytes).length ∧ 2 + 0 ≤ ([0x01, 0x02] : Bytes).length ∧
    ([0x01, 0x02] : Bytes).length < 1 + 2 := by decide

theorem witness_CrcComposition : EndsOnly (.crcRange [0x01] 0 ([0x01] : Bytes).length) closed (.ok (.byte 0xD5)) :=
  endsOnly_of rfl (by decide +kernel)

/-- A table that is plainly a permutation. -/
def identityTable : Vector Byte 256 := ⟨⟨(List.range 256).map (BitVec.ofNat 8)⟩, by simp⟩

theorem witness_ByteChangeChangesCrc :
    ({ closed with params := { params with crcTab := identityTable } } : State).params.crcTab.toList.Nodup ∧
    (0x00 : Byte) ≠ 0x01 := by
  refine ⟨?_, by decide⟩
  show ((List.range 256).map (BitVec.ofNat 8)).Nodup
  refine List.Nodup.map_on ?_ List.nodup_range
  intro a ha b hb h
  have := congrArg BitVec.toNat h
  simp at ha hb this
  omega

theorem witness_EncodeBuildsTheFrame :
    (List.replicate 253 (0xAA : Byte)).length ≤ 253 ∧ 253 < (List.replicate 254 (0xAA : Byte)).length := by decide +kernel

theorem holds_encoded (s : State) : (encoded s).txBuf.Holds [0x23, 0x03, 0x00, 0x00, 0x01, 0x1A] := writeBytes_holds _

theorem witness_SendEffect :
    (encoded opened).txBuf.Holds [0x23, 0x03, 0x00, 0x00, 0x01, 0x1A] ∧
    ([0x23, 0x03, 0x00, 0x00, 0x01, 0x1A] : Bytes).length = (encoded opened).txLen ∧ (encoded opened).txLen ≤ 258 ∧
    opened.txBuf.Holds [] ∧ ([] : Bytes).length = opened.txLen :=
  ⟨holds_encoded _, by decide, by decide, fun _ => rfl, rfl⟩

theorem witness_SendDeliversWhatWasEncoded :
    ∃ t u v, (answering opened [.ok]).session = .opened ∧ (answering opened [.ok]).busy = false ∧
      (answering opened [.ok]).line.sendAnswers = .ok :: [] ∧
      exec (.txEncode 0x00 []) (answering opened [.ok]) = .next t ∧ ([] : Bytes).length ≤ 253 ∧
      exec .seqAdvance t = .next u ∧ exec .txSend u = .next v ∧ u.seq ≠ t.seq :=
  ⟨_, _, _, rfl, rfl, rfl, rfl, by decide, rfl, next_after (o := .ok .unit) (by decide +kernel), by decide +kernel⟩

theorem witness_AssembleCompleteFrame :
    opened.session = .opened ∧ ([0x00] : Bytes).length = (0x00 : Byte).toNat + 1 ∧
    (hearing opened (answers [0x42, 0x00, 0x00])).line.lineIn = answers (0x42 :: 0x00 :: [0x00]) ++ [] ∧
    (List.replicate 256 (0x00 : Byte)).length = (0xFF : Byte).toNat + 1 := by decide +kernel

theorem witness_AssembleEndsEarly :
    opened.session = .opened ∧ IsCutShort [] ∧ (hearing opened [.timeout]).line.lineIn = answers [] ++ .timeout :: [] ∧
    IsCutShort [0x42] ∧ (hearing opened [.byte 0x42, .error]).line.lineIn = answers [0x42] ++ .error :: [] ∧
    IsCutShort [0x42, 0x00] ∧ IsCutShort [0x42, 0x02, 0x00, 0x10] ∧ (0x99 : Byte) ≠ 0x42 ∧
    (hearing opened [.byte 0x99]).line.lineIn = .byte 0x99 :: [] :=
  ⟨rfl, trivial, rfl, rfl, rfl, ⟨rfl, by decide⟩, ⟨rfl, by decide⟩, by decide, rfl⟩

theorem witness_ValidateChecksInOrder :
    ([0x99, 0x01, 0x02, 0x03] : Bytes).length < 5 ∧ replyFrame = [0x42, 0x02, 0x00, 0x10] ++ [] ++ [0x81] := by decide

theorem witness_AcceptedAndDebugFrames :
    (∃ t, exec (.rxValidate replyFrame) closed = .next t ∧ t.outcome = some (.ok (.reply 0x10 []))) ∧
    ∃ t, exec (.rxValidate debugFrame) closed = .next t ∧ t.outcome = some (.ok .debug) :=
  ⟨⟨_, rfl, by decide +kernel⟩, ⟨_, rfl, by decide +kernel⟩⟩

theorem witness_TruncatedCandidateRejected :
    ([0x42, 0x05, 0x00, 0x10, 0xA2] : Bytes) = 0x42 :: 0x05 :: [0x00, 0x10, 0xA2] ∧
    ([0x42, 0x05, 0x00, 0x10, 0xA2] : Bytes).length < (0x05 : Byte).toNat + 3 := by decide

theorem witness_LoopBack :
    ∃ t, ([0x01] : Bytes).length ≤ 253 ∧ exec (.txEncode 0x00 [0x01]) closed = .next t ∧
      t.outcome = some (.ok (.bytes [0x23, 0x03, 0x00, 0x00, 0x01, 0x1A])) :=
  ⟨_, by decide, rfl, by decide +kernel⟩

theorem witness_ReceiveIsAssembleThenValidate :
    (∃ t u, opened.session = .opened ∧ exec .rxAssemble (hearing opened (answers replyFrame)) = .next t ∧
      t.outcome = some (.ok (.bytes replyFrame)) ∧ exec (.rxValidate replyFrame) t = .next u ∧
      u.outcome ≠ some (.ok .debug)) ∧
    ∃ t, exec .rxAssemble (hearing opened [.byte 0x99]) = .next t ∧ ∀ c, t.outcome ≠ some (.ok (.bytes c)) := by
  refine ⟨⟨_, _, rfl, next_after (o := .ok (.bytes replyFrame)) (by decide +kernel), by decide +kernel, rfl,
    by decide +kernel⟩, _, next_after (o := .noFrame .badSync) (by decide +kernel), ?_⟩
  have h : (after (exec .rxAssemble (hearing opened [.byte 0x99]))).outcome = some (.noFrame .badSync) := by decide +kernel
  rw [h]
  nofun

theorem witness_ReceiveSkipsDebugFrames :
    (hearing (bounded opened 1) debugThenReply).session = .opened ∧
    (∀ d ∈ [debugFrame], IsDebugFrame (hearing (bounded opened 1) debugThenReply).params.crcTab d) ∧
    ([] : Bytes).length ≤ 253 ∧
    (∀ k, (hearing (bounded opened 1) debugThenReply).params.debugSkipLimit = some k → [debugFrame].length ≤ k) ∧
    (hearing (bounded opened 1) debugThenReply).line.lineIn =
      answers ([debugFrame].flatten ++ responseFrame params.crcTab false 0 0 0x10 []) ++ [] := by
  refine ⟨rfl, ?_, by decide, ?_, ?_⟩
  · intro d hd
    rw [List.mem_singleton.1 hd]
    exact isDebugFrame
  · intro k hk
    cases hk
    decide
  · rw [← isReplyFrame]
    decide

theorem witness_ReceiveStopsAtDebugLimit :
    (hearing (bounded opened 1) (answers (debugFrame ++ debugFrame))).params.debugSkipLimit = some [debugFrame].length ∧
    (∀ d ∈ [debugFrame], IsDebugFrame params.crcTab d) ∧ IsDebugFrame params.crcTab debugFrame ∧
    (hearing (bounded opened 1) (answers (debugFrame ++ debugFrame))).line.lineIn =
      answers ([debugFrame].flatten ++ debugFrame) ++ [] := by
  refine ⟨rfl, ?_, isDebugFrame, by decide⟩
  intro d hd
  rw [List.mem_singleton.1 hd]
  exact isDebugFrame

/-- A line that repeats a debug frame for ever, after one such frame and a silence. -/
def pausing : State :=
  { opened with line := { opened.line with lineIn := answers debugFrame ++ [.timeout], lineInCycle := answers debugFrame } }

theorem debugRunEnds_pausing : DebugRunEnds params.crcTab pausing.line := by
  refine ⟨[debugFrame], ⟨fun d hd => by rw [List.mem_singleton.1 hd]; exact isDebugFrame, ?_⟩, fun d hd => ?_⟩
  · intro k a hk
    have hlt : k < 6 := (List.getElem?_eq_some_iff.1 hk).1
    interval_cases k <;> exact Option.some.inj hk
  · obtain ⟨l, rest, rfl, -⟩ := (hd.1 d (by simp)).parts
    have h := hd.2 6 (.byte rspSync) rfl
    rw [show pausing.line.answer 6 = .timeout from rfl] at h
    cases h

theorem witness_ReceiveEnds :
    (bounded flooded 3).params.debugSkipLimit ≠ none ∧ DebugRunEnds pausing.params.crcTab pausing.line ∧
    pausing.line.lineInCycle ≠ [] ∧ (hearing opened debugThenReply).line.lineInCycle = [] :=
  ⟨by decide, debugRunEnds_pausing, by decide, by decide⟩

theorem witness_DebugFloodIsStuck :
    flooded.session = .opened ∧ flooded.params.debugSkipLimit = none ∧ (∀ d ∈ ([] : List Bytes), IsDebugFrame params.crcTab d) ∧
    (∀ d ∈ [debugFrame], IsDebugFrame flooded.params.crcTab d) ∧ [debugFrame] ≠ [] ∧
    flooded.line.lineIn = answers ([] : List Bytes).flatten ∧ flooded.line.lineInCycle = answers [debugFrame].flatten := by
  refine ⟨rfl, rfl, nofun, ?_, nofun, rfl, by decide⟩
  intro d hd
  rw [List.mem_singleton.1 hd]
  exact isDebugFrame

theorem witness_ExchangeIsSendThenReceive :
    (∃ t, exec .txSend (answering (encoded opened) [.ok]) = .next t ∧ t.outcome = some (.ok .unit)) ∧
    ∃ t, exec .txSend opened = .next t ∧ t.outcome ≠ some (.ok .unit) :=
  ⟨⟨_, next_after (o := .ok .unit) (by decide +kernel), by decide +kernel⟩,
    ⟨_, next_after (o := .refused .nothingEncoded) (by decide +kernel), by decide +kernel⟩⟩

theorem witness_OneExchange :
    let s := hearing (answering (encoded opened) [.ok]) debugThenReply
    s.session = .opened ∧ s.busy = false ∧ s.txBuf.Holds [0x23, 0x03, 0x00, 0x00, 0x01, 0x1A] ∧
    ([0x23, 0x03, 0x00, 0x00, 0x01, 0x1A] : Bytes).length = s.txLen ∧ s.txLen ≠ 0 ∧ s.txLen ≤ 258 ∧
    s.line.sendAnswers = .ok :: [] ∧ (∀ d ∈ [debugFrame], IsDebugFrame s.params.crcTab d) ∧
    (∀ k, s.params.debugSkipLimit = some k → [debugFrame].length ≤ k) ∧
    s.line.lineIn = answers ([debugFrame].flatten ++ responseFrame s.params.crcTab false 0 s.seq 0x10 []) ++ [] := by
  refine ⟨rfl, rfl, holds_encoded opened, by decide, by decide, by decide, rfl, ?_, nofun, ?_⟩
  · intro d hd
    rw [List.mem_singleton.1 hd]
    exact isDebugFrame
  · show debugThenReply = answers ([debugFrame].flatten ++ responseFrame params.crcTab false 0 0 0x10 []) ++ []
    rw [← isReplyFrame]
    decide

theorem witness_ScanWalksTheArea :
    (0x01 : Byte).toNat < 2 ∧ 2 ≤ (0x02 : Byte).toNat ∧ ([0x04, 0x02, 0x01] : Bytes).length < (0x04 : Byte).toNat ∧
    IsBlock [0x04, 0x02, 0x01, 0xF4] ∧ EndsOnly (.mbDec [0x04, 0x02, 0x01, 0xF4]) closed (.ok (.block (.delay 500 5000))) ∧
    ScansTo closed [0x03, 0x04, 0x02] [.toolhead 0x02] .complete :=
  ⟨by decide, by decide, by decide, isBlock_delay, endsOnly_of rfl (by decide +kernel), endsOnly_of rfl (by decide +kernel)⟩

theorem witness_DecodeByType :
    ¬ IsBlock [0x04, 0x02, 0x01] ∧ (0x02 : Byte).toNat = ([] : Bytes).length + 2 ∧
    (0x03 : Byte).toNat = ([0x22] : Bytes).length + 2 ∧ (0x04 : Byte).toNat = ([0x01, 0xF4] : Bytes).length + 2 ∧
    (0x7E : Byte) ∉ [params.btWrapper, params.btDelay, params.btBlm, params.btToolhead] := by
  refine ⟨?_, by decide, by decide, by decide, by decide⟩
  rw [← isWholeBlock_iff]
  decide

theorem witness_BlmDecodesItsLayout :
    (0x0B : Byte).toNat = (bytesNN.drop 2).length + 2 ∧ blmFits recordNN ∧ bytesNN.drop 2 = blmLayout recordNN 0 ∧
    (0x0A : Byte).toNat = ((bytesNN.drop 2).take 8).length + 2 ∧ (bytesNN.drop 2).take 8 <+: blmLayout recordNN 0 ∧
    (bytesNN.drop 2).take 8 ≠ blmLayout recordNN 0 ∧ (0x0C : Byte).toNat = (bytesNN.drop 2 ++ [0x99]).length + 2 ∧
    blmLayout recordNN 0 <+: bytesNN.drop 2 ++ [0x99] ∧ bytesNN.drop 2 ++ [0x99] ≠ blmLayout recordNN 0 ∧
    EndsOnly (.mbDecBlm (0x0B :: 0x03 :: bytesNN.drop 2)) closed (.ok (.block (.blm recordNN))) :=
  ⟨by decide, fitsNN, by decide, by decide, ⟨[0x32], by decide⟩, by decide, by decide, ⟨[0x99], by decide⟩, by decide,
    endsOnly_of rfl (by decide +kernel)⟩

theorem witness_EncodeFixedFormats :
    (∃ b ∈ [[0x04, 0x02, 0x01, 0xF4], [0x04, 0x02, 0x01]], ¬ IsBlock b) ∧
    ∀ b ∈ [[0x04, 0x02, 0x01, 0xF4], [0x04, 0x02, 0x01, 0xF4]], IsBlock b := by
  refine ⟨⟨[0x04, 0x02, 0x01], by decide, ?_⟩, ?_⟩
  · rw [← isWholeBlock_iff]
    decide
  · intro b hb
    simp at hb
    subst hb
    exact isBlock_delay

theorem witness_BlmEncodesItsLayout : blmFits recordWW ∧ ¬ blmFits { recordWW with wideMask := false } := by
  refine ⟨fitsWW, ?_⟩
  rw [← blmWellFormed_iff]
  decide +kernel

theorem witness_BlockDecodesAfterEncode :
    blockTypesDiffer closed.params ∧ EndsOnly (.mbEncWrapper 0x00 [0x01]) closed (.ok (.bytes [0x04, 0x01, 0x00, 0x01])) ∧
    EndsOnly (.mbEncDelay 500) closed (.ok (.bytes [0x04, 0x02, 0x01, 0xF4])) ∧
    EndsOnly (.mbEncToolhead 2) closed (.ok (.bytes [0x03, 0x04, 0x02])) ∧
    EndsOnly (.mbEncBlm recordNW) closed (.ok (.bytes bytesNW)) ∧
    EndsOnly (.mbEncRaw 0x7E [0xAA]) closed (.ok (.bytes [0x03, 0x7E, 0xAA])) ∧
    (0x7E : Byte) ∉ [closed.params.btWrapper, closed.params.btDelay, closed.params.btBlm, closed.params.btToolhead] :=
  ⟨typesDiffer, endsOnly_of rfl (by decide +kernel), endsOnly_of rfl (by decide +kernel),
    endsOnly_of rfl (by decide +kernel), endsOnly_of rfl (by decide +kernel), endsOnly_of rfl (by decide +kernel), by decide⟩

/-- V97: reserved bits set in the packing byte. -/
theorem witness_BlockReencodesAfterDecode :
    EndsOnly (.mbDec [0x04, 0x01, 0x00, 0x01]) closed (.ok (.block (.wrapper 0x00 [0x01]))) ∧
    EndsOnly (.mbDec [0x04, 0x02, 0x01, 0xF4]) closed (.ok (.block (.delay 500 5000))) ∧
    EndsOnly (.mbDec [0x03, 0x04, 0x02]) closed (.ok (.block (.toolhead 0x02))) ∧
    EndsOnly (.mbDec [0x02, 0x7E]) closed (.ok (.block (.unknown 0x7E [0x02, 0x7E]))) ∧
    EndsOnly (.mbDec [0x0A, 0x03, 0x01, 0x01, 0xE5, 0x64, 0x14, 0x0A, 0x0C, 0xC8]) closed
      (.ok (.block (.blm ⟨false, false, ⟨1, 1, 5, false, 100, 20, 10, 12, [⟨0, 200, true⟩]⟩⟩))) ∧
    EndsOnly (.mbDec bytesWW) closed (.ok (.block (.blm recordWW))) :=
  ⟨endsOnly_of rfl (by decide +kernel), endsOnly_of rfl (by decide +kernel), endsOnly_of rfl (by decide +kernel),
    endsOnly_of rfl (by decide +kernel), endsOnly_of rfl (by decide +kernel), endsOnly_of rfl (by decide +kernel)⟩

theorem witness_ScanAndPack :
    EndsOnly (.mbPack [[0x04, 0x02, 0x01, 0xF4], [0x03, 0x04, 0x02]]) closed
      (.ok (.bytes [0x04, 0x02, 0x01, 0xF4, 0x03, 0x04, 0x02])) ∧
    List.Forall₂ (fun b blk => EndsOnly (.mbDec b) closed (.ok (.block blk)))
      [[0x04, 0x02, 0x01, 0xF4], [0x03, 0x04, 0x02]] [.delay 500 5000, .toolhead 0x02] ∧
    ScansTo closed [0x04, 0x02, 0x01, 0xF4, 0x03, 0x04, 0x02] [.delay 500 5000, .toolhead 0x02] .complete :=
  ⟨endsOnly_of rfl (by decide +kernel),
    .cons (endsOnly_of rfl (by decide +kernel)) (.cons (endsOnly_of rfl (by decide +kernel)) .nil),
    endsOnly_of rfl (by decide +kernel)⟩

theorem witness_MotionCodecIsPure :
    isMotionOp (.mbScan [0x04, 0x02, 0x01, 0xF4]) = true ∧ closed.params.btWrapper = 0x01 ∧ closed.params.btDelay = 0x02 ∧
    closed.params.btBlm = 0x03 ∧ closed.params.btToolhead = 0x04 := by decide

theorem witness_CatalogLookups :
    closed.params.wellFormed = true ∧ ((0x20 : Byte), (⟨.catalogued 7, .byteU32, 3⟩ : OrderEntry)) ∈ closed.params.moreOrders ∧
    ((0x30 : Byte), (⟨.catalogued 8, .noSub⟩ : ReplyEntry)) ∈ closed.params.moreReplies ∧
    (0xEE : Byte) ∉ [0x00, closed.params.orderQueueCommandBlocks, closed.params.orderWriteFirmwareConfiguration] ++
      closed.params.moreOrders.map Prod.fst ∧
    (0x77 : Byte) ∉ [0x10, 0x11, closed.params.replyStopped] ++ closed.params.moreReplies.map Prod.fst ∧
    Names (subReasonCodes closed.params) subReasonList 0x0A (.known .cannotActivateDevice) ∧
    Names (subReasonCodes closed.params) subReasonList 0xFF (.unrecognized 0xFF) ∧
    closed.params.otherSubReasons = #v[0x01, 0x02, 0x04, 0x05, 0x06, 0x07, 0x08, 0x09, 0x0A] ∧
    subReasonList[9]? = some .cannotActivateDevice ∧ (0x0A : Byte).toNat = 9 + 1 ∧ 10 < (0x0B : Byte).toNat :=
  ⟨by decide +kernel, by decide, by decide, by decide, by decide, .inl ⟨_, by decide, rfl⟩, .inr ⟨by decide, rfl⟩, by decide,
    by decide, by decide, by decide⟩

/-- The last code of each list and a code of neither. -/
theorem named_stopped_codes :
    Names params.stopRecovery.toList recoveryList 0x43 (.known .unrecoverable) ∧
    Names params.stopRecovery.toList recoveryList 0x44 (.unrecognized 0x44) ∧
    Names params.stopCause.toList causeList 0x5A (.known .other) ∧
    Names params.stopCause.toList causeList 0x5B (.unrecognized 0x5B) :=
  ⟨.inl ⟨_, by decide, rfl⟩, .inr ⟨by decide, rfl⟩, .inl ⟨_, by decide, rfl⟩, .inr ⟨by decide, rfl⟩⟩

theorem witness_StoppedAndHelpers :
    closed.params.wellFormed = true ∧ Names closed.params.stopRecovery.toList recoveryList 0x43 (.known .unrecoverable) ∧
    Names closed.params.stopCause.toList causeList 0x5A (.known .other) ∧ ([0x6B] : Bytes).length < 5 ∧
    ([] : Bytes).length < 1 ∧ ([0xAA] : Bytes).length < 2 :=
  ⟨by decide +kernel, named_stopped_codes.1, named_stopped_codes.2.2.1, by decide, by decide, by decide⟩

/-- An empty range beyond the buffer (46_catalog_helpers.md R305: `cnt == 0` gives `(0, 0)`). -/
theorem witness_StoppedAndHelpers_empty :
    ([0xAA] : Bytes).length < 3 ∧ EndsOnly (.beUint [0xAA] 3 0) closed (.ok (.uint 0 false)) :=
  ⟨by decide, endsOnly_of rfl (by decide +kernel)⟩

theorem witness_FrameAndControlWords : (List.replicate 253 (0x00 : Byte)).length ≤ 253 := by decide +kernel

theorem witness_BlockWords :
    blockTypesDiffer closed.params ∧ (List.replicate 252 (0x00 : Byte)).length ≤ 252 ∧
    blmFits ⟨false, false, recordNN.body⟩ ∧ blmFits ⟨false, true, recordNW.body⟩ ∧ blmFits ⟨true, false, recordWN.body⟩ ∧
    blmFits ⟨true, true, recordWW.body⟩ ∧
    (0x7E : Byte) ∉ [closed.params.btWrapper, closed.params.btDelay, closed.params.btBlm, closed.params.btToolhead] ∧
    (List.replicate 253 (0x00 : Byte)).length ≤ 253 :=
  ⟨typesDiffer, by decide +kernel, fitsNN, fitsNW, fitsWN, fitsWW, by decide, by decide +kernel⟩

theorem witness_CodeWords :
    closed.params.wellFormed = true ∧ Names closed.params.stopRecovery.toList recoveryList 0x44 (.unrecognized 0x44) ∧
    Names closed.params.stopCause.toList causeList 0x5A (.known .other) :=
  ⟨by decide +kernel, named_stopped_codes.2.1, named_stopped_codes.2.2.1⟩

end Sys2Proof.Tests
end

/-! The state of the engine: its values after reset, the invariant along every step, the parameters, and a session that
has failed (spec/10_state.md). The shape of a next state comes from `step_next` and `exec_next`; what each shape keeps is
said once, as a lemma over `NextOf`. -/

namespace Sys2Proof.Machine

/-! ## What one step can do -/

/-- The engine idles, runs the instruction that the HOST's next command decodes to, or refuses a command that decodes to
none (47_session.md R316, 30_encoding.md R120). -/
theorem step_next {s t : State} (h : step s = .next t) :
    t = s ∨
    (∃ rest i, NextOf i (takeCommand s rest) t) ∨
    ∃ rest, t = finish (takeCommand s rest) (.refused .noSuchOperation) := by
  unfold step at h
  split at h
  case h_1 =>
    cases h
    exact .inl rfl
  case h_2 c rest _ =>
    split at h
    case h_1 i _ => exact .inr (.inl ⟨rest, i, exec_next h⟩)
    case h_2 =>
      cases h
      exact .inr (.inr ⟨rest, rfl⟩)

/-! ## Reset -/

/-- Settles O7: the reset state is written out, and an empty byte space holds no value at any index. -/
theorem resetValues : Obligations.ResetValues :=
  ⟨rfl, rfl, rfl, rfl, rfl, rfl, rfl, fun _ => ⟨rfl, rfl⟩⟩

/-- Settles O8: both byte spaces are empty, nothing is outstanding and no debug frame has been counted. -/
theorem invariantAtReset : Obligations.InvariantAtReset where
  rxCovers := covers_nil
  rxBound := Nat.zero_le _
  txCovers := covers_nil
  txFrame := .inl rfl
  busyOpen := nofun
  dbgBound _ _ := Nat.zero_le _

/-! ## What the state updates keep of the invariant -/

/-- Every register starts afresh, whatever it held (47_session.md R312). -/
theorem openSession_inv (s : State) : (openSession s).Inv where
  rxCovers := covers_nil
  rxBound := Nat.zero_le _
  txCovers := covers_nil
  txFrame := .inl rfl
  busyOpen := nofun
  dbgBound _ _ := Nat.zero_le _

section

variable {s : State} (h : s.Inv)
include h

theorem State.Inv.finish (o : OpOutcome) : (finish s o).Inv := { h with }

theorem State.Inv.takeCommand (rest : List Command) : (takeCommand s rest).Inv := { h with }

theorem State.Inv.withSeq (q : Nibble) : State.Inv { s with seq := q } := { h with }

theorem State.Inv.withRxStat (st : RxStat) : State.Inv { s with rxStat := st } := { h with }

/-- With nothing outstanding, any session value and any line will do. -/
theorem State.Inv.idle (l : Line) (sess : Session) : State.Inv { s with line := l, session := sess, busy := false } :=
  { h with busyOpen := nofun }

/-- A request goes out only while the session is open (42_frame_tx.md R167). -/
theorem State.Inv.sent (hs : s.session = .opened) (l : Line) : State.Inv { s with line := l, busy := true } :=
  { h with busyOpen := fun _ => hs }

/-- `TXBUF` then holds exactly the frame encoded (42_frame_tx.md R161). -/
theorem State.Inv.storeTx {f : Bytes} (hf : IsRequestFrame s.params.crcTab f) : (storeTx s f).Inv :=
  have ⟨hcovers, hbytes⟩ := writeBytes_nil_covers f
  { h with
    txCovers := hcovers
    txFrame := .inr (hbytes.symm ▸ hf) }

/-- What an assembly or a receive leaves: the candidate in `RXBUF[0..RXPOS)`, and the two registers the invariant bounds
within their bounds (43_frame_rx.md R183, R197). -/
theorem State.Inv.received {m : Memory} {k : Nat} (hm : m.covers k) (hk : k ≤ maxFrame) (l : Line) (st : RxStat)
    {d : Nat} (hd : ∀ n, s.params.debugSkipLimit = some n → d ≤ n + 1)
    {sess : Session} {bz : Bool} (hb : bz = true → sess = .opened) : (receivedState s m k l st d sess bz).Inv :=
  { h with
    rxCovers := hm
    rxBound := hk
    busyOpen := hb
    dbgBound := hd }

end

/-- However a receive ends, the exchange is over (10_state.md R23). -/
theorem ReceiveEnd.not_busy {s : State} {o : OpOutcome} (h : ReceiveEnd s o) : s.busy = false := by
  rcases h with ⟨_, _, -, -, hb⟩ | ⟨_, -, -, hb⟩ | ⟨-, -, hb⟩
  all_goals exact hb

/-! ## What every instruction keeps -/

/-- Every instruction keeps the invariant. -/
theorem NextOf.inv {i : Instr} {s t : State} (hn : NextOf i s t) (h : s.Inv) : t.Inv := by
  cases hn with
  | answer | refused => exact h.finish _
  | opened _ l => exact (openSession_inv { s with line := l }).finish _
  | openFailed _ l | sendFailed l => exact (h.idle l .failed).finish _
  | closed => exact (h.idle (trClose s).line .closed).finish _
  | notOpen => exact (h.idle s.line s.session).finish _
  | seqInit | seqAdvance => exact (h.withSeq _).finish _
  | encoded code params _ hp => exact (h.storeTx ⟨s.seq, code, params, hp, rfl⟩).finish _
  | sent l _ hs => exact (h.sent hs l).finish _
  | assembled m k l _ _ hm hk | badSync m k l _ _ hm hk =>
    exact (h.received hm hk l _ h.dbgBound h.busyOpen).finish _
  | readFailed m k l _ _ hm hk =>
    exact (h.received (sess := .failed) (bz := false) hm hk l s.rxStat h.dbgBound nofun).finish _
  | validated => exact (h.withRxStat _).finish _
  | received m k l _ st d sess bz _ _ _ _ hof =>
    have hd : ∀ n, s.params.debugSkipLimit = some n → d ≤ n + 1 := fun n hlim => hof.limit n hlim (Nat.zero_le n)
    have hb : bz = false := hof.ends.not_busy
    exact (h.received hof.covers hof.bound l st hd (by simp [hb])).finish _

/-- No instruction writes a parameter (10_state.md R31). -/
theorem NextOf.params_eq {i : Instr} {s t : State} (hn : NextOf i s t) : t.params = s.params := by
  cases hn
  all_goals rfl

/-- A failed session stays failed under every instruction but SESSION.OPEN, and the line is left alone: an instruction that
would call the Transport needs the session open (10_state.md R22, 20_memory.md R59). -/
theorem NextOf.failed_stays {i : Instr} {s t : State} (hn : NextOf i s t) (hf : s.session = .failed)
    (hi : ∀ d, i ≠ .sessionOpen d) : t.session = .failed ∧ t.line = s.line := by
  have hopen : s.session ≠ .opened := by simp [hf]
  cases hn with
  | answer | refused | notOpen | seqInit | seqAdvance | encoded | validated => exact ⟨hf, rfl⟩
  | opened d _ he | openFailed d _ he => exact absurd he (hi d)
  | closed _ hs | sent _ _ hs | sendFailed _ _ hs => exact absurd hs hopen
  | assembled _ _ _ _ hs | badSync _ _ _ _ hs | readFailed _ _ _ _ hs => exact absurd hs hopen
  | received _ _ _ _ _ _ _ _ _ _ _ hs => exact absurd hs hopen

/-! ## The statements -/

/-- Settles O9: taking the command keeps the invariant, and then so does the instruction, by `NextOf.inv`. -/
theorem invariantKeptByStep : Obligations.InvariantKeptByStep := by
  intro s t h hstep
  rcases step_next hstep with rfl | ⟨rest, i, hn⟩ | ⟨rest, rfl⟩
  · exact h
  · exact hn.inv (h.takeCommand rest)
  · exact (h.takeCommand rest).finish _

/-- Settles O11, by `NextOf.params_eq`. -/
theorem parametersNeverWritten : Obligations.ParametersNeverWritten := by
  intro s t hstep
  rcases step_next hstep with rfl | ⟨rest, i, hn⟩ | ⟨rest, rfl⟩
  · rfl
  · exact hn.params_eq
  · rfl

/-- Settles O60, by `NextOf.failed_stays`. -/
theorem failedUntilOpened : Obligations.FailedUntilOpened :=
  fun _ _ _ hf hexec hi => (exec_next hexec).failed_stays hf hi

end Sys2Proof.Machine

/-! The encoding (spec/30_encoding.md): the selector table, and that decoding and encoding undo each other. A frame is
taken apart by `decodeFrame_some` and `decodeFrame_buildFrame`, a block is followed through its encoder by `EncodesTo`,
a code through its table by `lookupCode_of_mem`; the format rows of the dispatch rest on the same three. -/

namespace Sys2Proof.Machine

/-! ## Selectors (R120) -/

/-- A selector outside R120's list falls through every row of the table. -/
theorem decodeOp_unlisted {opsel : Byte} (h : opsel ∉ listedSelectors) (a : Operands) :
    decodeOp opsel a = .error (.noSuchOperation opsel) := by
  have unlisted {n : Nat} (hn : opsel.toNat = n) : BitVec.ofNat 8 n ∉ listedSelectors := by
    rwa [← hn, BitVec.ofNat_toNat, BitVec.setWidth_eq]
  unfold decodeOp
  split
  case h_38 => rfl
  all_goals next hn => exact absurd (by decide) (unlisted hn)

/-! ## Frames (R80 to R92) -/

@[simp] theorem seqNibble_request : ∀ sq : Nibble, seqNibble (requestControl sq) = sq := by decide

@[simp] theorem debugFlag_request : ∀ sq : Nibble, debugFlag (requestControl sq) = false := by decide

theorem controlReserved_response (d : Bool) (r : BitVec 3) (sq : Nibble) :
    controlReserved (responseControl d r sq) = r := by
  revert r sq
  cases d <;> decide +kernel

theorem buildFrame_fields (tab : Vector Byte 256) (sync c code : Byte) (params : Bytes) :
    buildFrame tab sync c code params = [sync, BitVec.ofNat 8 (params.length + 2), c, code] ++ params ++
      [crc8 tab ([BitVec.ofNat 8 (params.length + 2), c, code] ++ params)] := by
  simp [buildFrame, frameBody]

/-- What the sync byte and the control byte of a sound frame make of it (R81, R82, R87, R88). -/
def frameInstr (sync c code : Byte) (params : Bytes) : Option Instr :=
  if sync = reqSync then
    if c = requestControl (seqNibble c) then some (.req (seqNibble c) code params) else none
  else if sync = rspSync then
    if debugFlag c then some (.dbg (controlReserved c) (seqNibble c) code params)
    else some (.rsp (controlReserved c) (seqNibble c) code params)
  else none

/-- The frame decoder field by field: the length byte and the CRC, then sync and control. -/
theorem decodeFrame_fields (p : Params) (sync l c code k : Byte) (params : Bytes) :
    decodeFrame p ([sync, l, c, code] ++ params ++ [k]) =
      if l.toNat ≠ params.length + 2 ∨ k ≠ crc8 p.crcTab ([l, c, code] ++ params) then none
      else frameInstr sync c code params := by
  have hlen : ([sync, l, c, code] ++ params ++ [k]).length = params.length + 5 := by simp
  have hlast : byteAt ([sync, l, c, code] ++ params ++ [k]) (params.length + 5 - 1) = k := by
    rw [byteAt, List.getD_eq_getElem?_getD, List.getElem?_append_right (by simp)]
    simp
  have hbody : slice ([sync, l, c, code] ++ params ++ [k]) 1 (params.length + 5 - 1) = [l, c, code] ++ params := by
    simp [slice]
  have hparams : slice ([sync, l, c, code] ++ params ++ [k]) 4 (params.length + 5 - 1) = params := by
    simp [slice]
  have hmin : ¬ params.length + 5 < minFrame := by simp [minFrame]
  have hcount : params.length + 5 - 3 = params.length + 2 := by omega
  unfold decodeFrame
  rw [hlen, hlast, hbody, hparams, hcount]
  simp only [hmin, false_or]
  rfl

theorem decodeFrame_buildFrame (p : Params) (sync c code : Byte) {params : Bytes} (h : params.length ≤ maxParams) :
    decodeFrame p (buildFrame p.crcTab sync c code params) = frameInstr sync c code params := by
  have hl : (BitVec.ofNat 8 (params.length + 2)).toNat = params.length + 2 := by
    simp [maxParams] at h ⊢
    omega
  rw [buildFrame_fields, decodeFrame_fields, if_neg (by simp [hl])]

/-- A word that decodes as a frame is the frame built of its fields. -/
theorem decodeFrame_some {p : Params} {f : Bytes} {i : Instr} (h : decodeFrame p f = some i) :
    ∃ sync c code params, f = buildFrame p.crcTab sync c code params ∧ frameInstr sync c code params = some i := by
  have hlen : 5 ≤ f.length := by
    by_contra hshort
    rw [decodeFrame, if_pos (.inl (by simpa [minFrame] using hshort))] at h
    cases h
  obtain ⟨sync, l, c, code, params, k, rfl⟩ := fields_of_length hlen
  rw [decodeFrame_fields] at h
  split at h
  · cases h
  · next hsound =>
    obtain ⟨hl, rfl⟩ : l.toNat = params.length + 2 ∧ k = crc8 p.crcTab ([l, c, code] ++ params) := by
      simpa [not_or] using hsound
    have hl : l = BitVec.ofNat 8 (params.length + 2) := by rw [← hl, BitVec.ofNat_toNat, BitVec.setWidth_eq]
    exact ⟨sync, c, code, params, by rw [buildFrame_fields, ← hl], h⟩

/-- The fields an instruction is made of are the fields it is encoded from: `control_split` puts the control byte of a
response together again. -/
theorem encode_of_frameInstr {p : Params} {sync c code : Byte} {params : Bytes} {i : Instr}
    (h : frameInstr sync c code params = some i) :
    encode p i = .word .frame (buildFrame p.crcTab sync c code params) := by
  unfold frameInstr at h
  split at h
  · next hreq =>
    split at h
    · next hc =>
      cases h
      rw [encode, requestFrame, ← hc, hreq]
    · cases h
  · split at h
    · next hrsp =>
      have hc := control_split c
      split at h
      · next hd =>
        cases h
        rw [hd] at hc
        rw [encode, responseFrame, ← hc, hrsp]
      · next hd =>
        cases h
        rw [Bool.eq_false_iff.2 hd] at hc
        rw [encode, responseFrame, ← hc, hrsp]
    · cases h

theorem decodeFrame_request (p : Params) (sq : Nibble) (code : Byte) {params : Bytes} (h : params.length ≤ maxParams) :
    decodeFrame p (requestFrame p.crcTab sq code params) = some (.req sq code params) := by
  rw [requestFrame, decodeFrame_buildFrame p _ _ _ h, frameInstr, if_pos rfl, seqNibble_request, if_pos rfl]

theorem decodeFrame_response (p : Params) (d : Bool) (r : BitVec 3) (sq : Nibble) (code : Byte) {params : Bytes}
    (h : params.length ≤ maxParams) :
    decodeFrame p (responseFrame p.crcTab d r sq code params) =
      some (if d then .dbg r sq code params else .rsp r sq code params) := by
  have hsync : rspSync ≠ reqSync := by decide
  rw [responseFrame, decodeFrame_buildFrame p _ _ _ h, frameInstr, if_neg hsync, if_pos rfl, debugFlag_response,
    controlReserved_response, seqNibble_response]
  cases d <;> rfl

/-- A request handed to the validator is a bad sync like any other (R91). -/
theorem validateFrame_request (tab : Vector Byte 256) (sq sq' : Nibble) (code : Byte) (params : Bytes) :
    validateFrame tab sq (requestFrame tab sq' code params) = .reject .badSync := by
  rw [requestFrame, buildFrame_fields, validateFrame_fields, if_pos (by decide)]

theorem validateOp_eq {f : Bytes} {s : State} {v : Verdict} (h : validateFrame s.params.crcTab s.seq f = v) :
    validateOp f s = .next { s with rxStat := v.rxStat, outcome := some v.outcome } := by
  subst h
  rfl

/-! ## Blocks (R94 to R106) -/

theorem blockKind_btWrapper (p : Params) : blockKind p p.btWrapper = .wrapper := by simp [blockKind]

section

variable {p : Params} (h : blockTypesDiffer p)
include h

theorem blockTypes_ne :
    p.btDelay ≠ p.btWrapper ∧ (p.btBlm ≠ p.btWrapper ∧ p.btBlm ≠ p.btDelay) ∧
    (p.btToolhead ≠ p.btWrapper ∧ p.btToolhead ≠ p.btDelay ∧ p.btToolhead ≠ p.btBlm) := by
  simp only [blockTypesDiffer, List.nodup_cons, List.mem_cons, List.not_mem_nil, or_false, not_or] at h
  obtain ⟨⟨hwd, hwb, hwt⟩, ⟨hdb, hdt⟩, hbt, -⟩ := h
  exact ⟨Ne.symm hwd, ⟨Ne.symm hwb, Ne.symm hdb⟩, Ne.symm hwt, Ne.symm hdt, Ne.symm hbt⟩

theorem blockKind_btDelay : blockKind p p.btDelay = .delay := by
  obtain ⟨hdelay, -, -⟩ := blockTypes_ne h
  simp [blockKind, hdelay]

theorem blockKind_btBlm : blockKind p p.btBlm = .blm := by
  obtain ⟨-, hblm, -⟩ := blockTypes_ne h
  simp [blockKind, hblm]

theorem blockKind_btToolhead : blockKind p p.btToolhead = .toolhead := by
  obtain ⟨-, -, htoolhead⟩ := blockTypes_ne h
  simp [blockKind, htoolhead]

end

theorem blockKind_unknown {p : Params} {t : Byte} (h : t ∉ [p.btWrapper, p.btDelay, p.btBlm, p.btToolhead]) :
    blockKind p t = .unknown := by
  simp only [List.mem_cons, List.not_mem_nil, or_false, not_or] at h
  simp [blockKind, h]

theorem blockTypesDiffer_of_wellFormed {p : Params} (h : p.wellFormed = true) : blockTypesDiffer p := by
  simp only [Params.wellFormed, Bool.and_eq_true, decide_eq_true_eq] at h
  obtain ⟨⟨⟨⟨⟨⟨⟨hdiffer, -⟩, -⟩, -⟩, -⟩, -⟩, -⟩, -⟩ := h
  exact hdiffer

/-- The word an encoder makes is one whole block, and `blk` is what it decodes to. -/
def EncodesTo (p : Params) (r : Except RefusedWhy Bytes) (blk : Block) : Prop :=
  ∃ b, r = .ok b ∧ IsBlock b ∧ decodeBlock p b = blk

theorem encodesTo_of_header (p : Params) (t : Byte) {body : Bytes} (h : body.length ≤ 253) {n : Nat}
    (hn : n = body.length + 2) :
    EncodesTo p (.ok (BitVec.ofNat 8 n :: t :: body)) (decodeBlock p (BitVec.ofNat 8 n :: t :: body)) :=
  ⟨_, rfl, ⟨_, t, body, rfl, by simp; omega⟩, rfl⟩

section

variable {p : Params}

theorem encodeWrapper_encodesTo (order : Byte) {params : Bytes} (h : params.length ≤ 252) :
    EncodesTo p (encodeWrapper p order params) (.wrapper order params) := by
  have hdec (n : Byte) : decodeBlock p (n :: p.btWrapper :: order :: params) = .wrapper order params := by
    simp [decodeBlock, byteAt, blockKind_btWrapper, decodeWrapper, slice]
  rw [encodeWrapper, if_neg (by omega), ← hdec]
  exact encodesTo_of_header p _ (by simp; omega) (by simp; omega)

theorem encodeDelay_encodesTo (hp : blockTypesDiffer p) (ticks : BitVec 16) :
    EncodesTo p (encodeDelay p ticks.toNat) (.delay ticks.toNat (ticks.toNat * delayScale)) := by
  have hlt := ticks.isLt
  have hticks : beNat (bytesBe 2 ticks.toNat) = ticks.toNat := beNat_stepLayout (wide := true) hlt
  have hdec (n : Byte) : decodeBlock p (n :: p.btDelay :: bytesBe 2 ticks.toNat) =
      .delay ticks.toNat (ticks.toNat * delayScale) := by
    have hslice : slice (n :: p.btDelay :: bytesBe 2 ticks.toNat) 2 4 = bytesBe 2 ticks.toNat := rfl
    have hlen : (n :: p.btDelay :: bytesBe 2 ticks.toNat).length = 4 := rfl
    simp only [decodeBlock, byteAt, List.getD_cons_succ, List.getD_cons_zero, blockKind_btDelay hp, decodeDelay, hlen,
      hslice, hticks, ne_eq, not_true_eq_false, if_false]
  rw [encodeDelay, if_neg (by omega), ← hdec]
  exact encodesTo_of_header p _ (body := bytesBe 2 _) (by simp [bytesBe]) (by simp [bytesBe])

theorem encodeToolhead_encodesTo (hp : blockTypesDiffer p) (index : Byte) :
    EncodesTo p (.ok (encodeToolhead p index)) (.toolhead index) := by
  have hdec (n : Byte) : decodeBlock p [n, p.btToolhead, index] = .toolhead index := by
    simp [decodeBlock, byteAt, blockKind_btToolhead hp, decodeToolhead]
  rw [← hdec]
  exact encodesTo_of_header p _ (body := [index]) (by simp) (by simp)

/-- The widest layout, sixteen axes with every field wide, still fits a block (R104). -/
theorem blmBlockLength_le (r : BlmRecord) : blmBlockLength r ≤ 45 := by
  have haxes : ((List.range 16).filter (fun k => r.body.sel.testBit k)).length ≤ 16 := List.length_filter_le _ _
  unfold blmBlockLength
  cases r.wideMask <;> cases r.wideSteps <;> simp <;> omega

theorem encodeBlm_encodesTo (hp : blockTypesDiffer p) {r : BlmRecord} (h : blmFits r) :
    EncodesTo p (encodeBlm p r) (.blm r) := by
  have hlen := blmLayout_length r 0 h
  have hmax := blmBlockLength_le r
  have hfields : decodeBlmFields (blmLayout r 0) = some (r, []) := by
    simpa using decodeBlmFields_layout r 0 [] h
  have hdec (n : Byte) : decodeBlock p (n :: p.btBlm :: blmLayout r 0) = .blm r := by
    have hdrop : (n :: p.btBlm :: blmLayout r 0).drop 2 = blmLayout r 0 := rfl
    have hkind : blockKind p (byteAt (n :: p.btBlm :: blmLayout r 0) 1) = .blm := blockKind_btBlm hp
    simp only [decodeBlock, hkind, decodeBlm, hdrop, hfields, if_true]
  rw [encodeBlm, if_pos ((blmWellFormed_iff r).2 h), blmBodyBytes_layout r h, ← hdec]
  exact encodesTo_of_header p _ (body := blmLayout r 0) (by omega) rfl

theorem encodeRaw_encodesTo {typ : Byte} (ht : blockKind p typ = .unknown) {body : Bytes} (h : body.length ≤ 253) :
    EncodesTo p (encodeRaw typ body) (.unknown typ ([BitVec.ofNat 8 (body.length + 2), typ] ++ body)) := by
  have hdec (n : Byte) : decodeBlock p (n :: typ :: body) = .unknown typ (n :: typ :: body) := by
    simp [decodeBlock, byteAt, ht, decodeUnknown]
  rw [encodeRaw, if_neg (by omega), List.cons_append, List.cons_append, List.nil_append, ← hdec]
  exact encodesTo_of_header p _ h rfl

end

/-- The row a decoded block stands for; a malformed one stands for none. -/
def blockInstr : Block → Option Instr
  | .wrapper order params => some (.wrap order params)
  | .delay ticks _ => some (.delay (BitVec.ofNat 16 ticks))
  | .toolhead index => some (.toolhead index)
  | .blm ⟨false, false, body⟩ => some (.blmNN body)
  | .blm ⟨false, true, body⟩ => some (.blmNW body)
  | .blm ⟨true, false, body⟩ => some (.blmWN body)
  | .blm ⟨true, true, body⟩ => some (.blmWW body)
  | .unknown typ raw => some (.unknown typ (raw.drop 2))
  | .malformed _ _ => none

theorem decodeBlockWord_of_isBlock (p : Params) {b : Bytes} (h : IsBlock b) :
    decodeBlockWord p b = blockInstr (decodeBlock p b) := by
  rw [decodeBlockWord, if_pos ((isWholeBlock_iff b).2 h)]
  rfl

theorem decode_word_ok_iff {p : Params} {format : Format} {w : Bytes} {i : Instr} :
    decode p (.word format w) = .ok i ↔ decodeWord p format w = some i := by
  rw [decode]
  cases decodeWord p format w <;> simp

theorem EncodesTo.decode_blockWord {p : Params} {r : Except RefusedWhy Bytes} {blk : Block} {i : Instr}
    (h : EncodesTo p r blk) (hi : blockInstr blk = some i) : decode p (blockWord r) = .ok i := by
  obtain ⟨b, rfl, hb, rfl⟩ := h
  exact decode_word_ok_iff.2 ((decodeBlockWord_of_isBlock p hb).trans hi)

theorem EncodesTo.decodeEncoded_eq {s : State} {r : Except RefusedWhy Bytes} {blk : Block}
    (h : EncodesTo s.params r blk) : decodeEncoded r s = .next { s with outcome := some (.ok (.block blk)) } := by
  obtain ⟨b, rfl, hb, rfl⟩ := h
  rw [decodeEncoded, decodeOne, if_pos ((isWholeBlock_iff b).2 hb)]
  rfl

/-! ## Codes (R110 to R113) -/

/-- Where the codes are pairwise different, the lookup finds what the byte stands for. -/
theorem lookupCode_of_names {codes : List Byte} {ms : List α} (hn : codes.Nodup) (hl : codes.length = ms.length)
    {v : Byte} {x : Lookup α} (h : Names codes ms v x) : lookupCode (codes.zip ms) v = x :=
  names_unique hn (lookup_names hl v) h

/-- In a table whose codes are pairwise different, the lookup of an entry's code finds that entry. -/
theorem lookupCode_of_mem {table : List (Byte × α)} (hn : (table.map Prod.fst).Nodup) {v : Byte} {a : α}
    (h : (v, a) ∈ table) : lookupCode table v = .known a := by
  have hz : (table.map Prod.fst).zip (table.map Prod.snd) = table := (List.zip_of_prod rfl rfl).symm
  have := lookupCode_of_names hn (ms := table.map Prod.snd) (by simp) (.inl ⟨a, hz.symm ▸ h, rfl⟩)
  rwa [hz] at this

theorem lookup_of_lookupCode {table : List (Byte × α)} {v : Byte} {a : α} (h : lookupCode table v = .known a) :
    table.lookup v = some a := by
  unfold lookupCode at h
  split at h
  · next hv => cases h; exact hv
  · cases h

/-- Every sub-reason is found under its own code (R112). -/
theorem lookupCode_subReason {p : Params} (hp : p.wellFormed = true) (r : SubReason) :
    lookupCode (subReasonTable p) (subReasonCode p r) = .known r := by
  obtain ⟨-, -, hn, -, -⟩ := wellFormed_parts hp
  have hkeys : (subReasonTable p).map Prod.fst = subReasonCodes p := by
    rw [subReasonTable_zip, List.map_fst_zip (by simp [subReasonCodes, subReasonList])]
  refine lookupCode_of_mem (hkeys ▸ hn) (List.mem_map.2 ⟨r, ?_, rfl⟩)
  cases r <;> decide

theorem lookupCode_orderCatalog {p : Params} (hp : p.wellFormed = true) {v : Byte} {e : OrderEntry}
    (h : (v, e) ∈ orderCatalog p) : lookupCode (orderCatalog p) v = .known e := by
  obtain ⟨hn, -, -, -, -⟩ := wellFormed_parts hp
  exact lookupCode_of_mem (by simpa [orderCatalog] using hn) h

theorem lookupCode_replyCatalog {p : Params} (hp : p.wellFormed = true) {v : Byte} {e : ReplyEntry}
    (h : (v, e) ∈ replyCatalog p) : lookupCode (replyCatalog p) v = .known e := by
  obtain ⟨-, hn, -, -, -⟩ := wellFormed_parts hp
  exact lookupCode_of_mem (by simpa [replyCatalog] using hn) h

theorem encode_subReasonInstr (p : Params) (r : SubReason) :
    encode p (subReasonInstr r) = .word .subReason [subReasonCode p r] := by
  cases r <;> rfl

theorem decode_encode_subReason {p : Params} (hp : p.wellFormed = true) (r : SubReason) :
    decode p (encode p (subReasonInstr r)) = .ok (subReasonInstr r) := by
  rw [encode_subReasonInstr, decode_word_ok_iff, decodeWord, lookup_of_lookupCode (lookupCode_subReason hp r)]
  rfl

/-- The code a lookup finds a sub-reason under is that sub-reason's code. -/
theorem subReasonCode_of_lookup {p : Params} {v : Byte} {r : SubReason} (h : (subReasonTable p).lookup v = some r) :
    subReasonCode p r = v := by
  obtain ⟨l₁, l₂, htable, -⟩ := List.lookup_eq_some_iff.1 h
  have hmem : (v, r) ∈ subReasonTable p := by simp [htable]
  obtain ⟨r', -, he⟩ := List.mem_map.1 hmem
  cases he
  rfl

theorem orderCodes_ne {p : Params} (hp : p.wellFormed = true) :
    p.orderQueueCommandBlocks ≠ orderResumeCode ∧
    (p.orderWriteFirmwareConfiguration ≠ orderResumeCode ∧
      p.orderWriteFirmwareConfiguration ≠ p.orderQueueCommandBlocks) := by
  obtain ⟨hn, -, -, -, -⟩ := wellFormed_parts hp
  simp only [List.cons_append, List.nodup_cons, List.mem_cons, not_or] at hn
  obtain ⟨⟨hrq, hrw, -⟩, ⟨hqw, -⟩, -⟩ := hn
  exact ⟨Ne.symm hrq, Ne.symm hrw, Ne.symm hqw⟩

theorem replyStopped_ne {p : Params} (hp : p.wellFormed = true) :
    p.replyStopped ≠ replyOkCode ∧ p.replyStopped ≠ replyGenericApplicationErrorCode := by
  obtain ⟨-, hn, -, -, -⟩ := wellFormed_parts hp
  simp only [List.cons_append, List.nodup_cons, List.mem_cons, not_or] at hn
  obtain ⟨⟨-, hos, -⟩, ⟨hgs, -⟩, -⟩ := hn
  exact ⟨Ne.symm hos, Ne.symm hgs⟩

/-! ## What a lookup of a listed code ends with -/

section

variable {s : State} (hp : s.params.wellFormed = true)
include hp

theorem catalogOrder_of_mem {v : Byte} {e : OrderEntry} (h : (v, e) ∈ orderCatalog s.params) :
    catalogOrder v s = .next { s with outcome := some (.ok (.order (.known e))) } := by
  rw [catalogOrder, lookupCode_orderCatalog hp h]
  rfl

theorem catalogReply_of_mem {v : Byte} {e : ReplyEntry} (h : (v, e) ∈ replyCatalog s.params) :
    catalogReply v s = .next { s with outcome := some (.ok (.replyEntry (.known e))) } := by
  rw [catalogReply, lookupCode_replyCatalog hp h]
  rfl

theorem reasonOf_subReasonCode (r : SubReason) :
    reasonOf (subReasonCode s.params r) s = .next { s with outcome := some (.ok (.reason (.known r))) } := by
  rw [reasonOf, lookupCode_subReason hp r]
  rfl

end

/-! ## The statements -/

/-- Settles O5: an operation's operands come back from the wires as they were put there; a frame, a block or a code goes
through the lemma of its format. -/
theorem decodeOfEncode : Obligations.DecodeOfEncode := by
  intro p i hp hi
  have htypes := blockTypesDiffer_of_wellFormed hp
  cases i with
  | req sq code params =>
    exact decode_word_ok_iff.2 (decodeFrame_request p sq code (of_decide_eq_true hi))
  | rsp reserved sq code params =>
    exact decode_word_ok_iff.2 (decodeFrame_response p false reserved sq code (of_decide_eq_true hi))
  | dbg reserved sq code params =>
    exact decode_word_ok_iff.2 (decodeFrame_response p true reserved sq code (of_decide_eq_true hi))
  | ctrlReq sq => simp [encode, decode_word_ok_iff, decodeWord]
  | ctrlRsp debug reserved sq =>
    simp [encode, decode_word_ok_iff, decodeWord, debugFlag_response, controlReserved_response, seqNibble_response]
  | wrap order params => exact (encodeWrapper_encodesTo order (of_decide_eq_true hi)).decode_blockWord rfl
  | delay ticks => exact (encodeDelay_encodesTo htypes ticks).decode_blockWord (by simp [blockInstr])
  | toolhead index => exact (encodeToolhead_encodesTo htypes index).decode_blockWord rfl
  | blmNN body => exact (encodeBlm_encodesTo htypes ((blmWellFormed_iff _).1 hi)).decode_blockWord rfl
  | blmNW body => exact (encodeBlm_encodesTo htypes ((blmWellFormed_iff _).1 hi)).decode_blockWord rfl
  | blmWN body => exact (encodeBlm_encodesTo htypes ((blmWellFormed_iff _).1 hi)).decode_blockWord rfl
  | blmWW body => exact (encodeBlm_encodesTo htypes ((blmWellFormed_iff _).1 hi)).decode_blockWord rfl
  | unknown typ body =>
    obtain ⟨hkind, hlen⟩ : blockKind p typ = .unknown ∧ body.length ≤ 253 := by simpa [Instr.wellFormed] using hi
    exact (encodeRaw_encodesTo hkind hlen).decode_blockWord rfl
  | orderQueueCommandBlocks =>
    obtain ⟨hq, -⟩ := orderCodes_ne hp
    simp [encode, decode_word_ok_iff, decodeWord, hq]
  | orderWriteFirmwareConfiguration =>
    obtain ⟨-, hw⟩ := orderCodes_ne hp
    simp [encode, decode_word_ok_iff, decodeWord, hw]
  | replyStopped => simp [encode, decode_word_ok_iff, decodeWord, replyStopped_ne hp]
  | subUnknownOrder => exact decode_encode_subReason hp .unknownOrder
  | subBadParameterFormat => exact decode_encode_subReason hp .badParameterFormat
  | subBadParameterValue => exact decode_encode_subReason hp .badParameterValue
  | subInvalidDeviceType => exact decode_encode_subReason hp .invalidDeviceType
  | subInvalidDeviceNumber => exact decode_encode_subReason hp .invalidDeviceNumber
  | subIncorrectMode => exact decode_encode_subReason hp .incorrectMode
  | subBusy => exact decode_encode_subReason hp .busy
  | subFailed => exact decode_encode_subReason hp .failed
  | subFirmwareError => exact decode_encode_subReason hp .firmwareError
  | subCannotActivateDevice => exact decode_encode_subReason hp .cannotActivateDevice
  | _ => rfl

/-- Settles O6, format by format, in the order of `decodeWord`. -/
theorem decodedWordReencodes : Obligations.DecodedWordReencodes := by
  intro p format w i hformat h
  rw [decode_word_ok_iff] at h
  unfold decodeWord at h
  split at h
  case h_1 =>
    obtain ⟨sync, c, code, params, rfl, hi⟩ := decodeFrame_some h
    exact encode_of_frameInstr hi
  case h_2 c =>
    split at h
    · next hc =>
      cases h
      rw [encode, ← hc]
    · cases h
  case h_3 c =>
    cases h
    rw [encode, ← control_split c]
  case h_4 | h_9 =>
    cases h
    rfl
  case h_5 => exact absurd rfl hformat
  case h_6 | h_7 =>
    split at h
    · next hc => cases h; rw [encode, hc]
    split at h
    · next hc => cases h; rw [encode, hc]
    split at h
    · next hc => cases h; rw [encode, hc]
    · cases h
  case h_8 c =>
    obtain ⟨r, hr, rfl⟩ := Option.map_eq_some_iff.1 h
    rw [encode_subReasonInstr, subReasonCode_of_lookup hr]
  case h_10 => cases h

/-- Settles O57: the validator on the three frame rows, and the fields of the two control bytes. -/
theorem frameAndControlWords : Obligations.FrameAndControlWords := by
  intro s reserved sq code params debug hparams
  refine ⟨?req, ?rsp, ?dbg, ?ctrlReq, ?ctrlRsp⟩
  case req => exact validateOp_eq (validateFrame_request _ _ sq code params)
  case rsp =>
    have hverdict := validateFrame_response s.params.crcTab s.seq sq false reserved code params hparams
    refine (validateOp_eq hverdict).trans ?_
    by_cases hsq : sq = s.seq
    · simp [hsq, Verdict.rxStat, Verdict.outcome]
    · simp [hsq, Verdict.rxStat, Verdict.outcome]
  case dbg => exact validateOp_eq (validateFrame_response s.params.crcTab s.seq sq true reserved code params hparams)
  case ctrlReq =>
    show execCtrlReq sq s = _
    rw [execCtrlReq, debugFlag_request, seqNibble_request]
    rfl
  case ctrlRsp =>
    show execCtrlRsp debug reserved sq s = _
    rw [execCtrlRsp, debugFlag_response, seqNibble_response]
    rfl

/-- Settles O58: each encoder's word is a block that decodes to what was encoded, by the `EncodesTo` lemma of its row. -/
theorem blockWords : Obligations.BlockWords := by
  intro s htypes
  refine ⟨?header, ?wrap, ?delay, ?toolhead, ?nn, ?nw, ?wn, ?ww, ?unknown⟩
  case header =>
    intro bl t
    show execBlockHeader bl t s = _
    unfold execBlockHeader
    by_cases hbl : bl.toNat < 2
    · rw [if_pos hbl, if_pos hbl]
      rfl
    · rw [if_neg hbl, if_neg hbl]
      rfl
  case wrap => exact fun order params hlen => (encodeWrapper_encodesTo order hlen).decodeEncoded_eq
  case delay => exact fun ticks => (encodeDelay_encodesTo htypes ticks).decodeEncoded_eq
  case toolhead => exact fun index => (encodeToolhead_encodesTo htypes index).decodeEncoded_eq
  case nn | nw | wn | ww => exact fun body hfits => (encodeBlm_encodesTo htypes hfits).decodeEncoded_eq
  case unknown => exact fun typ body htyp hlen => (encodeRaw_encodesTo (blockKind_unknown htyp) hlen).decodeEncoded_eq

/-- Settles O59: in well-formed parameters each code is in its table once, so the lookup finds its member. -/
theorem codeWords : Obligations.CodeWords := by
  intro s recovery cause reason hp
  have order {v e} := catalogOrder_of_mem (s := s) (v := v) (e := e) hp
  have reply {v e} := catalogReply_of_mem (s := s) (v := v) (e := e) hp
  have reason_of := reasonOf_subReasonCode hp
  refine ⟨order (by simp [orderCatalog]), order (by simp [orderCatalog]), order (by simp [orderCatalog]),
    reply (by simp [replyCatalog]), reply (by simp [replyCatalog]), reply (by simp [replyCatalog]),
    reason_of _, reason_of _, reason_of _, reason_of _, reason_of _, reason_of _, reason_of _, reason_of _, reason_of _,
    reason_of _, ?stopped⟩
  case stopped =>
    intro x y hx hy
    obtain ⟨-, -, -, hrecovery, hcause⟩ := wellFormed_parts hp
    show execStoppedPayload recovery cause reason s = _
    rw [execStoppedPayload, decodeStopped, recoveryTable_zip, causeTable_zip,
      lookupCode_of_names hrecovery (by simp [recoveryList]) hx, lookupCode_of_names hcause (by simp [causeList]) hy]
    rfl

/-- Settles O2: each row is the table's own, whatever the parameters and the operand wires. -/
theorem selectorTable : Obligations.SelectorTable := by
  unfold Obligations.SelectorTable
  repeat' apply And.intro
  all_goals exact fun _ _ => rfl

/-- Settles O3, by `decodeOp_unlisted`: the step takes the command and refuses it. -/
theorem unlistedSelectorRefused : Obligations.UnlistedSelectorRefused := by
  intro s opsel a rest hprogram hunlisted
  rw [step, hprogram]
  simp only [decode, decodeOp_unlisted hunlisted]
  rfl

/-- Settles O4: each word is evaluated. None of the words reads an OPEN parameter, so the opaque constants of the
default record do not stand in the way. -/
theorem knownWordsDecode : Obligations.KnownWordsDecode := by
  refine ⟨?_, ?_, ?_, ?_, ?_, ?_, ?_, ?_⟩
  all_goals decide +kernel

end Sys2Proof.Machine

/-! The CRC engine (spec/40_crc8.md): what one fold and a whole fold do over any table, and what each of the three
operations answers. That a byte change shows in the CRC rests on `crcFold_left_injective` and `crcFold_right_injective`;
that the default table is a permutation rests on `crcShift_injective`, not on a comparison of its entries. -/

namespace Sys2Proof.Machine

section

variable (tab : Vector Byte 256)

/-! ## One fold (R135) -/

theorem crcFold_zero_left (b : Byte) : crcFold tab 0 b = crcEntry tab b :=
  congrArg (crcEntry tab) BitVec.zero_xor

theorem crcFold_self (x : Byte) : crcFold tab x x = crcEntry tab 0 :=
  congrArg (crcEntry tab) BitVec.xor_self

/-! ## The fold of a sequence (R136, R138) -/

/-- R138, item 3. -/
theorem crc8_append (a b : Bytes) : crc8 tab (a ++ b) = b.foldl (crcFold tab) (crc8 tab a) :=
  List.foldl_append

/-- R138, item 4. -/
theorem crc8_append_crc8 (a : Bytes) : crc8 tab (a ++ [crc8 tab a]) = crcEntry tab 0 := by
  rw [crc8_append, List.foldl_cons, crcFold_self, List.foldl_nil]

end

/-! ## Tables that are permutations (R138, item 2) -/

/-- Entries pairwise different: the lookup takes different indices to different bytes. -/
theorem crcEntry_injective_iff {tab : Vector Byte 256} : Function.Injective (crcEntry tab) ↔ tab.toList.Nodup := by
  rw [List.nodup_iff_injective_getElem]
  constructor
  · intro hinj i j hij
    have hi : i.val < 2 ^ 8 := by simpa using i.isLt
    have hj : j.val < 2 ^ 8 := by simpa using j.isLt
    have hindex := @hinj (BitVec.ofFin ⟨i, hi⟩) (BitVec.ofFin ⟨j, hj⟩) (by simpa [crcEntry] using hij)
    exact Fin.ext (by simpa using hindex)
  · intro hinj i j hij
    have hindex := @hinj ⟨i.toNat, by simpa using i.isLt⟩ ⟨j.toNat, by simpa using j.isLt⟩
      (by simpa [crcEntry] using hij)
    exact BitVec.eq_of_toNat_eq (by simpa using hindex)

section

variable {tab : Vector Byte 256} (htab : Function.Injective (crcEntry tab))
include htab

theorem crcFold_right_injective (acc : Byte) : Function.Injective (crcFold tab acc) :=
  fun _ _ h => (BitVec.xor_right_inj acc).1 (htab h)

theorem crcFold_left_injective (b : Byte) : Function.Injective (crcFold tab · b) :=
  fun _ _ h => (BitVec.xor_left_inj b).1 (htab h)

/-- What follows keeps two running checksums apart. -/
theorem foldl_crcFold_injective (bytes : Bytes) : Function.Injective (bytes.foldl (crcFold tab)) := by
  induction bytes with
  | nil => exact fun _ _ h => h
  | cons b bytes ih => exact fun _ _ h => crcFold_left_injective htab b (ih h)

theorem crc8_byte_injective (pre post : Bytes) : Function.Injective (fun x => crc8 tab (pre ++ x :: post)) := by
  intro x y h
  simp only [crc8_append, List.foldl_cons] at h
  exact crcFold_right_injective htab _ (foldl_crcFold_injective htab post h)

end

/-! ## The generator of a table (R133) -/

theorem crcShift_of_low {poly c : Byte} (h : c.getLsbD 7 = false) : crcShift poly c = c <<< 1 :=
  if_neg (by rw [h]; exact Bool.false_ne_true)

theorem crcShift_of_high {poly c : Byte} (h : c.getLsbD 7 = true) : crcShift poly c = c <<< 1 ^^^ poly :=
  if_pos h

theorem crcGenerate_eq_iterate (poly : Byte) : crcGenerate poly = (crcShift poly)^[8] :=
  funext fun i => List.foldl_const (crcShift poly) i (List.range 8)

theorem crcGenerate_zero (poly : Byte) : crcGenerate poly 0 = 0 := by
  rw [crcGenerate_eq_iterate]
  exact Function.iterate_fixed (crcShift_of_low rfl) 8

/-- The one bit of the index reaches bit 7 after seven shifts, and the eighth trades it for the polynomial. -/
theorem crcGenerate_one (poly : Byte) : crcGenerate poly 1 = poly := by
  have hlow : (crcShift poly)^[7] 1 = 0x80 := by
    simp [crcShift]
  calc crcGenerate poly 1 = crcShift poly ((crcShift poly)^[7] 1) := by
        rw [crcGenerate_eq_iterate, Function.iterate_succ_apply']
    _ = (0x80 : Byte) <<< 1 ^^^ poly := by rw [hlow, crcShift_of_high rfl]
    _ = poly := BitVec.zero_xor

/-- With bit 0 set in the polynomial, bit 0 after a shift says which way the shift went. -/
theorem getLsbD_zero_crcShift {poly : Byte} (hpoly : poly.getLsbD 0 = true) (c : Byte) :
    (crcShift poly c).getLsbD 0 = c.getLsbD 7 := by
  cases h : c.getLsbD 7 with
  | false => simp [crcShift_of_low h]
  | true =>
    rw [crcShift_of_high h]
    simpa using hpoly

/-- A shift loses no bit but the highest. -/
theorem eq_of_shiftLeft_one_eq {c d : Byte} (htop : c.getLsbD 7 = d.getLsbD 7) (h : c <<< 1 = d <<< 1) : c = d := by
  apply BitVec.eq_of_getLsbD_eq
  intro i hi
  by_cases h7 : i = 7
  · rw [h7, htop]
  · have hbit := congrArg (BitVec.getLsbD · (i + 1)) h
    have hlt : i + 1 < 8 := by omega
    simpa [hlt, BitVec.getLsbD_eq_getElem hi] using hbit

theorem crcShift_injective {poly : Byte} (hpoly : poly.getLsbD 0 = true) : Function.Injective (crcShift poly) := by
  intro c d h
  have htop : c.getLsbD 7 = d.getLsbD 7 := by
    rw [← getLsbD_zero_crcShift hpoly c, h, getLsbD_zero_crcShift hpoly d]
  apply eq_of_shiftLeft_one_eq htop
  cases hc : c.getLsbD 7 with
  | false => rwa [crcShift_of_low hc, crcShift_of_low (htop ▸ hc)] at h
  | true =>
    rw [crcShift_of_high hc, crcShift_of_high (htop ▸ hc)] at h
    exact (BitVec.xor_left_inj poly).1 h

theorem crcGenerate_injective {poly : Byte} (hpoly : poly.getLsbD 0 = true) : Function.Injective (crcGenerate poly) := by
  rw [crcGenerate_eq_iterate]
  exact (crcShift_injective hpoly).iterate 8

/-! ## What the operations answer -/

theorem crcTab_endsOnly (i : Byte) (s : State) : EndsOnly (.crcTab i) s (.ok (.byte (crcEntry s.params.crcTab i))) := rfl

theorem crcStep_endsOnly (acc b : Byte) (s : State) :
    EndsOnly (.crcStep acc b) s (.ok (.byte (crcFold s.params.crcTab acc b))) := rfl

section

variable {buf : Bytes} {offset length : Nat} (s : State)

theorem crcRange_endsOnly (h : offset + length ≤ buf.length) :
    EndsOnly (.crcRange buf offset length) s
      (.ok (.byte (crc8 s.params.crcTab (slice buf offset (offset + length))))) :=
  if_neg (Nat.not_lt.2 h)

theorem crcRange_endsOnly_refused (h : buf.length < offset + length) :
    EndsOnly (.crcRange buf offset length) s (.refused .crcRange) :=
  if_pos h

theorem crcRange_whole_endsOnly (buf : Bytes) :
    EndsOnly (.crcRange buf 0 buf.length) s (.ok (.byte (crc8 s.params.crcTab buf))) := by
  have hslice : slice buf 0 (0 + buf.length) = buf := by simp [slice]
  have h := crcRange_endsOnly s (Nat.le_of_eq (Nat.zero_add buf.length))
  rwa [hslice] at h

end

/-- An instruction ends a state with one outcome only. -/
theorem EndsOnly.outcome_unique {i : Instr} {s : State} {o o' : OpOutcome} (h : EndsOnly i s o) (h' : EndsOnly i s o') :
    o = o' := by
  rw [EndsOnly, h] at h'
  injection h' with hstate
  exact Option.some.inj (congrArg State.outcome hstate)

/-- The indices of a range that stays inside the buffer, in ascending order. -/
theorem slice_eq_map_getD {buf : Bytes} {offset length : Nat} (h : offset + length ≤ buf.length) :
    slice buf offset (offset + length) = (List.range length).map (fun k => buf.getD (offset + k) 0) := by
  apply List.ext_getElem
  · simp only [slice, List.length_take, List.length_drop, List.length_map, List.length_range]
    omega
  · intro k _ hk
    have hlt : k < length := by simpa using hk
    have hin : offset + k < buf.length := by omega
    simp [slice, hin]

/-! ## The statements -/

/-- Settles O25: the slice lists the indices of the range in ascending order, and the fold runs along that list. -/
theorem crcRangeFold : Obligations.CrcRangeFold := by
  refine ⟨fun _ _ => rfl, fun s buf offset length => ⟨fun hin => ?_, crcRange_endsOnly_refused s⟩⟩
  have h := crcRange_endsOnly s hin
  rwa [slice_eq_map_getD hin, crc8, List.foldl_map] at h

/-- Settles O26, by `crc8_append` and `crc8_append_crc8`: the outcome assumed is the CRC of the first part. -/
theorem crcComposition : Obligations.CrcComposition := by
  intro s a b c hfirst
  obtain rfl : crc8 s.params.crcTab a = c := by
    simpa using (crcRange_whole_endsOnly s a).outcome_unique hfirst
  constructor
  · have h := crcRange_whole_endsOnly s (a ++ b)
    rwa [crc8_append] at h
  · have h := crcRange_whole_endsOnly s (a ++ [crc8 s.params.crcTab a])
    rwa [crc8_append_crc8, List.length_append] at h

/-- Settles O28, by `crc8_byte_injective`. -/
theorem byteChangeChangesCrc : Obligations.ByteChangeChangesCrc := by
  intro s pre post x y hnodup hne
  have hinj := crc8_byte_injective (crcEntry_injective_iff.2 hnodup) pre post
  exact ⟨_, _, hinj.ne hne, crcRange_whole_endsOnly s _, crcRange_whole_endsOnly s _⟩

/-- Settles O24: the two lookups, with `crcFold_zero_left` and `crcFold_self` for the corner cases of the step and
`crcGenerate_zero` and `crcGenerate_one` for those of a generated table. -/
theorem crcTableAndStep : Obligations.CrcTableAndStep := by
  refine ⟨fun _ _ => rfl, fun _ _ => rfl, fun s x b => ?_⟩
  refine ⟨crcTab_endsOnly x s, crcStep_endsOnly x b s, ?zero, ?self, ?generated⟩
  case zero =>
    have h := crcStep_endsOnly 0 b s
    rwa [crcFold_zero_left] at h
  case self =>
    have h := crcStep_endsOnly x x s
    rwa [crcFold_self] at h
  case generated =>
    intro poly hgen
    have hentry (i : Byte) : EndsOnly (.crcTab i) s (.ok (.byte (crcGenerate poly i))) := hgen i ▸ crcTab_endsOnly i s
    have h0 := hentry 0
    have h1 := hentry 1
    rw [crcGenerate_zero] at h0
    rw [crcGenerate_one] at h1
    exact ⟨h0, h1⟩

theorem defaultCrcTab_eq_generate : crcEntry defaultCrcTab = crcGenerate crcPoly := by
  have h : ∀ i : Byte, crcEntry defaultCrcTab i = crcGenerate crcPoly i := by decide +kernel
  exact funext h

/-- Settles O27: the entries and the check value are evaluated; the entries differ because the polynomial 0xD5 has bit 0
set, by `crcGenerate_injective`. -/
theorem defaultCrcTable : Obligations.DefaultCrcTable := by
  refine ⟨congrFun defaultCrcTab_eq_generate, ?distinct, ?check⟩
  case distinct =>
    rw [← crcEntry_injective_iff, defaultCrcTab_eq_generate]
    exact crcGenerate_injective rfl
  case check => decide +kernel

end Sys2Proof.Machine

/-! The sequence counter (spec/41_sequence_counter.md): what one SEQ.ADVANCE does, as an instruction and as a step, and the
state that `k` of them lead to. The counter's arithmetic is the 4-bit word's own; it becomes a remainder of 16 only in the
statements. -/

namespace Sys2Proof.Machine

/-! ## A command taken from the port (47_session.md R316) -/

theorem step_of_decode {s : State} {c : Command} {rest : List Command} {i : Instr} (hprogram : s.program = c :: rest)
    (hdecode : decode s.params c = .ok i) : step s = exec i (takeCommand s rest) := by
  rw [step, hprogram]
  simp only [hdecode]

theorem run_succ_of_next {M : Host.Core} {s t : M.State} (k : Nat) (h : M.step s = .next t) :
    M.run (k + 1) s = M.run k t := by
  rw [Host.Core.run, h]

/-! ## Advances of the counter (R153, R155) -/

/-- The selector row of SEQ.ADVANCE (R120). -/
theorem selects_seqAdvance : Selects 0x22 (fun _ => .seqAdvance) := fun _ _ => rfl

theorem exec_seqAdvance (s : State) : exec .seqAdvance s = .next (finish { s with seq := s.seq + 1 } (.ok .unit)) := rfl

/-- The state that `k` advances lead to, with `rest` then left on the port. -/
def advanced (s : State) (k : Nat) (rest : List Command) : State :=
  { s with
    seq := s.seq + BitVec.ofNat 4 k
    program := rest
    outcome := if k = 0 then s.outcome else some (.ok .unit) }

theorem advanced_zero (s : State) : advanced s 0 s.program = s := by
  simp [advanced]

/-- One advance and then `k` more are `k + 1` of them. -/
theorem advanced_advanced_one (s : State) (k : Nat) (next rest : List Command) :
    advanced (advanced s 1 next) k rest = advanced s (k + 1) rest := by
  have hseq : s.seq + BitVec.ofNat 4 1 + BitVec.ofNat 4 k = s.seq + BitVec.ofNat 4 (k + 1) := by
    rw [BitVec.add_assoc, ← BitVec.ofNat_add, Nat.add_comm 1 k]
  simp [advanced, hseq]

theorem advanced_seq_toNat (s : State) (k : Nat) (rest : List Command) :
    (advanced s k rest).seq.toNat = (s.seq.toNat + k) % 16 := by
  simp [advanced]

theorem step_advance {s : State} {a : Operands} {rest : List Command} (h : s.program = .op 0x22 a :: rest) :
    step s = .next (advanced s 1 rest) := by
  rw [step_of_decode h (selects_seqAdvance s.params a), exec_seqAdvance]
  rfl

/-- Each step of the run takes one advance from the port and leaves the others to the induction. -/
theorem run_advances {a : Operands} {rest : List Command} (k : Nat) {s : State}
    (h : s.program = List.replicate k (.op 0x22 a) ++ rest) : Sys2Proof.core.run k s = .next (advanced s k rest) := by
  induction k generalizing s with
  | zero =>
    obtain rfl : s.program = rest := h
    rw [advanced_zero]
    rfl
  | succ k ih =>
    rw [List.replicate_succ, List.cons_append] at h
    calc Sys2Proof.core.run (k + 1) s
        = Sys2Proof.core.run k (advanced s 1 (List.replicate k (.op 0x22 a) ++ rest)) :=
          run_succ_of_next (M := Sys2Proof.core) k (step_advance h)
      _ = .next (advanced (advanced s 1 _) k rest) := ih rfl
      _ = .next (advanced s (k + 1) rest) := by rw [advanced_advanced_one]

/-! ## The statements -/

/-- Settles O22: the run ends in `advanced`, whose counter is the remainder; the period from 0 is arithmetic. -/
theorem sequencePeriod : Obligations.SequencePeriod := by
  intro k s a rest hprogram
  have hseq := advanced_seq_toNat s k rest
  refine ⟨advanced s k rest, run_advances k hprogram, hseq, ?passed, ?returns, rfl⟩
  case passed =>
    intro hzero hk
    have hstart : s.seq.toNat = 0 := congrArg BitVec.toNat hzero
    rw [hseq, hstart, Nat.zero_add, Nat.mod_eq_of_lt hk]
  case returns =>
    rintro hzero rfl
    apply BitVec.eq_of_toNat_eq
    rw [hseq, hzero]
    rfl

/-- Settles O21: the carry that the 4-bit increment drops is the multiple of 16 that the remainder drops. -/
theorem sequenceOperations : Obligations.SequenceOperations := by
  refine ⟨fun _ _ => rfl, fun _ _ => rfl, selects_seqAdvance, fun s => ⟨rfl, rfl, ?advance⟩⟩
  have hseq : s.seq + 1 = BitVec.ofNat 4 ((s.seq.toNat + 1) % 16) := by
    apply BitVec.eq_of_toNat_eq
    simp
  rw [exec_seqAdvance, hseq]
  rfl

end Sys2Proof.Machine

/-! The request encoder (spec/42_frame_tx.md): the frame byte by byte, what the encode procedure stores, and what a send
does once the encoded frame has been read back. What the four encode operations do is `encodeRequest_stores`; what a send
does is `sendRequest_of_read`, and a send behind an encoding meets its premise whatever `SEQ` has become. -/

namespace Sys2Proof.Machine

/-! ## The request frame (30_encoding.md R81 to R87) -/

/-- Bits 7..4 of the control byte of a request are zero (R87). -/
theorem requestControl_eq_append (sq : Nibble) : requestControl sq = (0 : BitVec 4) ++ sq :=
  BitVec.setWidth_eq_append (by decide)

theorem requestFrame_eq (tab : Vector Byte 256) (sq : Nibble) (code : Byte) (params : Bytes) :
    requestFrame tab sq code params =
      [0x23] ++ ([BitVec.ofNat 8 (params.length + 2), (0 : BitVec 4) ++ sq, code] ++ params) ++
        [crc8 tab ([BitVec.ofNat 8 (params.length + 2), (0 : BitVec 4) ++ sq, code] ++ params)] := by
  rw [requestFrame, buildFrame, frameBody, requestControl_eq_append]
  rfl

@[simp] theorem requestFrame_length (tab : Vector Byte 256) (sq : Nibble) (code : Byte) (params : Bytes) :
    (requestFrame tab sq code params).length = params.length + 5 := by
  simp [requestFrame, buildFrame_fields]

/-- The big-endian bytes of a 32-bit word are its four byte fields, the uppermost first (R166). -/
theorem bytesBe_four (v : BitVec 32) :
    bytesBe 4 v.toNat = [v.extractLsb' 24 8, v.extractLsb' 16 8, v.extractLsb' 8 8, v.extractLsb' 0 8] := by
  have hbyte (k : Nat) : BitVec.ofNat 8 (v.toNat / 2 ^ k) = v.extractLsb' k 8 := by
    rw [BitVec.extractLsb', Nat.shiftRight_eq_div_pow]
  rw [← hbyte 24, ← hbyte 16, ← hbyte 8, ← hbyte 0]
  simp [bytesBe, Nat.div_div_eq_div_mul]

/-! ## Encoding (R161, R163) -/

theorem encodeRequest_of_le {params : Bytes} (h : params.length ≤ 253) (code : Byte) (s : State) :
    encodeRequest code params s =
      .next (finish (storeTx s (requestFrame s.params.crcTab s.seq code params))
        (.ok (.bytes (requestFrame s.params.crcTab s.seq code params)))) :=
  if_neg (Nat.not_lt.2 h)

theorem encodeRequest_of_lt {params : Bytes} (h : 253 < params.length) (code : Byte) (s : State) :
    encodeRequest code params s = .next (finish s (.refused .txTooLong)) :=
  if_pos h

theorem exec_txEncode (code : Byte) (params : Bytes) (s : State) :
    exec (.txEncode code params) s = encodeRequest code params s := rfl

/-- The encode procedure through the registers: `TXBUF` then holds the frame and nothing beyond it (R161). -/
theorem encodeRequest_stores {s : State} {code : Byte} {params f : Bytes} (h : params.length ≤ 253)
    (hf : requestFrame s.params.crcTab s.seq code params = f) :
    ∃ m : Memory, m.Holds f ∧ encodeRequest code params s =
      .next { s with txBuf := m, txLen := params.length + 5, outcome := some (.ok (.bytes f)) } := by
  refine ⟨_, writeBytes_holds f, ?_⟩
  rw [encodeRequest_of_le h, hf, ← requestFrame_length s.params.crcTab s.seq code params, hf]
  rfl

/-- Settles O29, by `encodeRequest_stores` and `encodeRequest_of_lt`. -/
theorem encodeBuildsTheFrame : Obligations.EncodeBuildsTheFrame :=
  ⟨fun _ _ => rfl, fun s code params =>
    ⟨fun h => encodeRequest_stores h (requestFrame_eq s.params.crcTab s.seq code params),
      fun h => encodeRequest_of_lt h code s⟩⟩

theorem exec_txOrder5 (code b : Byte) (v : BitVec 32) (s : State) :
    exec (.txOrder5 code b v) s =
      encodeRequest code [b, v.extractLsb' 24 8, v.extractLsb' 16 8, v.extractLsb' 8 8, v.extractLsb' 0 8] s := by
  rw [← bytesBe_four]
  rfl

/-- Settles O30: the three operations are the encode procedure on blocks of no, one and five bytes, whose frame
`requestFrame_eq` writes out. -/
theorem orderShapesEncode : Obligations.OrderShapesEncode := by
  refine ⟨fun _ _ => rfl, fun _ _ => rfl, fun _ _ => rfl, fun s code b v => ?_⟩
  have hframe := requestFrame_eq s.params.crcTab s.seq code
  have h5 := exec_txOrder5 code b v s
  refine ⟨?order0, ?order1, ?order5, rfl, rfl, h5⟩
  case order0 => exact encodeRequest_stores (Nat.zero_le _) (hframe [])
  case order1 => exact encodeRequest_stores (by simp) (hframe [b])
  case order5 =>
    rw [h5]
    exact encodeRequest_stores (by simp) (hframe _)

/-! ## Sending (R167) -/

/-- The line after `TrSend` was given `f` (30_encoding.md R121; log 7, log 8). -/
def lineAfterSend (l : Line) (f : Bytes) : Line :=
  { l with
    lineOut := l.lineOut ++ f
    sendAnswers := l.sendAnswers.tail
    drawn := if l.sendAnswers = [] then l.drawn + 1 else l.drawn
    calls := .sendBytes :: l.calls }

/-- The answer of the next `TrSend`: the next scheduled one, or the free value (log 7). -/
def sendAnswer (l : Line) : IoAnswer := l.sendAnswers.headD (Config.freeSendAnswer l.drawn)

theorem trSend_eq (f : Bytes) (s : State) :
    trSend f s = (sendAnswer s.line, { s with line := lineAfterSend s.line f }) := by
  cases h : s.line.sendAnswers with
  | nil => simp [trSend, sendAnswer, lineAfterSend, h]
  | cons a more => simp [trSend_scheduled f h, sendAnswer, lineAfterSend, h]

/-- The send procedure where the encoded frame reads back without a fault: the refusals in their order, then the
Transport's answer. A failure finds nothing outstanding, so `BUSY` stays as it is. -/
theorem sendRequest_of_read {s : State} {f : Bytes} (hread : readTxBytes s 0 s.txLen = .ok f) (next : State → StepResult) :
    sendRequest s next =
      if s.session ≠ .opened then refuse s .noSession
      else if s.busy then refuse s .busy
      else if s.txLen = 0 then refuse s .nothingEncoded
      else if sendAnswer s.line = .error then
        done { s with session := .failed, line := lineAfterSend s.line f } .transportError
      else next { s with busy := true, line := lineAfterSend s.line f } := by
  unfold sendRequest
  split
  · rfl
  split
  · rfl
  next hidle =>
  split
  · rfl
  simp only [hread, trSend_eq]
  cases sendAnswer s.line with
  | error => simp [failTransport, hidle]
  | ok => rfl

theorem exec_txSend {s : State} {f : Bytes} (hread : readTxBytes s 0 s.txLen = .ok f) :
    exec .txSend s = .next (
      if s.session ≠ .opened then finish s (.refused .noSession)
      else if s.busy then finish s (.refused .busy)
      else if s.txLen = 0 then finish s (.refused .nothingEncoded)
      else if sendAnswer s.line = .error then
        finish { s with session := .failed, line := lineAfterSend s.line f } .transportError
      else finish { s with busy := true, line := lineAfterSend s.line f } (.ok .unit)) := by
  simp only [apply_ite Host.Outcome.next]
  exact sendRequest_of_read hread (fun s => succeed s .unit)

/-- Settles O31: `readTx_holds` reads the encoded frame back, and `exec_txSend` is then the statement. -/
theorem sendEffect : Obligations.SendEffect :=
  ⟨fun _ _ => rfl, fun _ _ hholds hlen hcap => exec_txSend (readTx_holds hholds hlen hcap)⟩

/-! ## From encoding to sending (R160; 70_reset_and_hazards.md R366) -/

/-- What an encoding leaves for a send, whatever `SEQ` and the outcome have become since: a send reads neither. -/
def encodedThen (s : State) (f : Bytes) (q : Nibble) (o : Option OpOutcome) : State :=
  { storeTx s f with seq := q, outcome := o }

theorem readTxBytes_encodedThen (s : State) {f : Bytes} (h : f.length ≤ 258) (q : Nibble) (o : Option OpOutcome) :
    readTxBytes (encodedThen s f q o) 0 (encodedThen s f q o).txLen = .ok f :=
  readTx_holds (writeBytes_holds f) rfl h

theorem exec_txSend_encodedThen {s : State} {f : Bytes} {more : List IoAnswer} (hopen : s.session = .opened)
    (hidle : s.busy = false) (hanswer : s.line.sendAnswers = .ok :: more) (hpos : f.length ≠ 0) (hcap : f.length ≤ 258)
    (q : Nibble) (o : Option OpOutcome) :
    exec .txSend (encodedThen s f q o) = .next (finish
      { encodedThen s f q o with busy := true, line := lineAfterSend s.line f } (.ok .unit)) := by
  rw [exec_txSend (readTxBytes_encodedThen s hcap q o)]
  simp [encodedThen, hopen, hidle, hpos, sendAnswer, hanswer]

/-- Settles O32: with or without an advance in between, the send meets `encodedThen`, whose `TXBUF` holds the frame that was
built with the old `SEQ`. -/
theorem sendDeliversWhatWasEncoded : Obligations.SendDeliversWhatWasEncoded := by
  intro s t u v code params more hopen hidle hanswer hencode hfits hbetween hsend
  have hlen := requestFrame_length s.params.crcTab s.seq code params
  rw [exec_txEncode, encodeRequest_of_le hfits] at hencode
  generalize requestFrame s.params.crcTab s.seq code params = f at hlen hencode ⊢
  cases hencode
  obtain ⟨q, o, rfl⟩ : ∃ q o, u = encodedThen s f q o := by
    rcases hbetween with rfl | hadvance
    · exact ⟨s.seq, _, rfl⟩
    · rw [exec_seqAdvance] at hadvance
      cases hadvance
      exact ⟨s.seq + 1, _, rfl⟩
  rw [exec_txSend_encodedThen hopen hidle hanswer (by omega) (by omega)] at hsend
  cases hsend
  exact ⟨rfl, rfl, rfl⟩

end Sys2Proof.Machine

/-! The synchronizer and the validator (spec/43_frame_rx.md): what an assembly makes of a line that it can read to the end of a
frame and of one that is cut short, what the six checks let through, and a receive as an assembly and a validation per
candidate. An assembly neither reads nor writes `DBGCNT` and the outcome (`assemble_beside`); on that rest both the refinement
of a receive and that of an exchange. -/

namespace Sys2Proof.Machine

/-! ## The sequence counter (R199) -/

theorem NextOf.seq_eq {i : Instr} {s t : State} (hn : NextOf i s t) :
    t.seq = s.seq ∨ i = .seqInit ∨ i = .seqAdvance ∨
      ∃ d, i = .sessionOpen d ∧ t.seq = 0 ∧ t.outcome = some (.ok .unit) := by
  cases hn with
  | seqInit hi => exact .inr (.inl hi)
  | seqAdvance hi => exact .inr (.inr (.inl hi))
  | opened d _ hi => exact .inr (.inr (.inr ⟨d, hi, rfl, rfl⟩))
  | answer | refused | openFailed | closed | notOpen | encoded | sent | sendFailed => exact .inl rfl
  | assembled | badSync | readFailed | validated | received => exact .inl rfl

/-- Settles O23, by `NextOf.seq_eq`. -/
theorem onlySequenceOperationsWriteSeq : Obligations.OnlySequenceOperationsWriteSeq :=
  fun _ _ _ hexec => (exec_next hexec).seq_eq

/-! ## RX.ASSEMBLE (R183 to R186) -/

/-- How an assembly that ends answers (R183, R184, R186). -/
def assembleAnswer : AssembleEnd × State → StepResult
  | (.candidate, s) => succeed s (.bytes (candidate s))
  | (.badSync, s) => done s (.noFrame .badSync)
  | (.failed, s) => done s .transportError

theorem exec_rxAssemble {s : State} (h : s.session = .opened) : exec .rxAssemble s = assembleAnswer (assemble s) :=
  if_neg (not_not.2 h)

/-- Settles O33: `assemble_frame` collects the frame and `writeBytes_holds` is the buffer. -/
theorem assembleCompleteFrame : Obligations.AssembleCompleteFrame := by
  refine ⟨fun _ _ => rfl, fun s l rest more hopen hlen hline => ⟨_, writeBytes_holds _, ?_⟩⟩
  rw [exec_rxAssemble hopen, assemble_frame s l rest more hlen hline, assembleAnswer, candidate, bytes_writeBytes]
  rfl

/-- One read of an assembly: a byte goes on to `go`, silence leaves what has been collected, an error fails the session
(R183, R186). -/
def afterRead (go : Byte → State → AssembleEnd × State) : ReadAnswer × State → AssembleEnd × State
  | (.error, s) => (.failed, failTransport s)
  | (.timeout, s) => (.candidate, s)
  | (.byte b, s) => go b s

theorem assembleBody_succ (n : Nat) (s : State) :
    assembleBody (n + 1) s = afterRead (fun b u => assembleBody n (storeRx u b)) (trRead s.params.tShort s) := rfl

theorem assembleLength_eq (s : State) :
    assembleLength s = afterRead (fun l u => assembleBody (l.toNat + 1) (storeRx u l)) (trRead s.params.tShort s) := rfl

theorem assemble_eq (s : State) :
    assemble s = afterRead
      (fun b u => if b = rspSync then assembleLength (storeRx u b) else (.badSync, rejectWith (storeRx u b) .badSync))
      (trRead s.params.tLong (clearRx s)) := rfl

/-- How an assembly ends at a timeout or an error, wherever it stands (R183, R186); what would become of a byte plays no part. -/
def cutBy (a : ReadAnswer) (s : State) : AssembleEnd × State := afterRead (fun _ u => (.candidate, u)) (a, s)

theorem afterRead_of_no_byte {a : ReadAnswer} (ha : ∀ b, a ≠ .byte b) (go : Byte → State → AssembleEnd × State)
    (s : State) : afterRead go (a, s) = cutBy a s := by
  cases a with
  | byte b => exact absurd rfl (ha b)
  | timeout | error => rfl

/-- An assembly has gone on from `s` by the bytes `got`: the reads `calls` were made for them, newest first, and `more` is left
of the schedule (R183). -/
def afterReads (s : State) (got : Bytes) (more : List ReadAnswer) (calls : List TrCall) : State :=
  { s with
    rxBuf := s.rxBuf.writeBytes s.rxPos got
    rxPos := s.rxPos + got.length
    line := { s.line with lineIn := more, calls := calls ++ s.line.calls } }

/-- A byte and then more bytes are one run of bytes. -/
theorem afterReads_afterReads (s : State) (b : Byte) (got : Bytes) (more more' : List ReadAnswer)
    (calls calls' : List TrCall) :
    afterReads (afterReads s [b] more calls) got more' calls' = afterReads s (b :: got) more' (calls' ++ calls) := by
  simp [afterReads, Memory.writeBytes, Nat.add_assoc, Nat.add_comm 1]

/-- A byte on the schedule is stored, and the assembly goes on from there. -/
theorem afterRead_byte {s : State} {b : Byte} {more : List ReadAnswer} (hline : s.line.lineIn = .byte b :: more)
    (ticks : Nat) (go : State → AssembleEnd × State) (go' : Byte → State → AssembleEnd × State)
    (hgo : ∀ u, go' b u = go (storeRx u b)) :
    afterRead go' (trRead ticks s) = go (afterReads s [b] more [.readByte ticks]) := by
  rw [trRead_scheduled ticks hline]
  exact hgo _

section

variable {a : ReadAnswer} (ha : ∀ b, a ≠ .byte b)
include ha

theorem afterRead_cut {s : State} {more : List ReadAnswer} (hline : s.line.lineIn = a :: more) (ticks : Nat)
    (go : Byte → State → AssembleEnd × State) :
    afterRead go (trRead ticks s) = cutBy a (afterReads s [] more [.readByte ticks]) := by
  rw [trRead_scheduled ticks hline, afterRead_of_no_byte ha]
  rfl

theorem assembleBody_cut {got : Bytes} {n : Nat} (hlt : got.length < n) {s : State} {more : List ReadAnswer}
    (hline : s.line.lineIn = answers got ++ a :: more) :
    ∃ calls, calls.length = got.length + 1 ∧ assembleBody n s = cutBy a (afterReads s got more calls) := by
  induction got generalizing n s with
  | nil =>
    obtain ⟨n, rfl⟩ := Nat.exists_eq_add_one.2 hlt
    exact ⟨[.readByte s.params.tShort], rfl, afterRead_cut ha hline _ _⟩
  | cons b got ih =>
    obtain ⟨n, rfl⟩ := Nat.exists_eq_add_one.2 (Nat.zero_lt_of_lt hlt)
    obtain ⟨calls, hcalls, hrest⟩ := ih (n := n) (Nat.lt_of_succ_lt_succ hlt)
      (s := afterReads s [b] (answers got ++ a :: more) [.readByte s.params.tShort]) rfl
    refine ⟨calls ++ [.readByte s.params.tShort], by simp [hcalls], ?_⟩
    rw [assembleBody_succ, afterRead_byte (more := answers got ++ a :: more) hline _ (assembleBody n) _ (fun _ => rfl), hrest,
      afterReads_afterReads]

theorem assembleLength_cut {rest : Bytes} (hcut : IsCutShort (rspSync :: rest)) {s : State} {more : List ReadAnswer}
    (hline : s.line.lineIn = answers rest ++ a :: more) :
    ∃ calls, calls.length = rest.length + 1 ∧ assembleLength s = cutBy a (afterReads s rest more calls) := by
  cases rest with
  | nil => exact ⟨[.readByte s.params.tShort], rfl, afterRead_cut ha hline _ _⟩
  | cons l rest =>
    obtain ⟨calls, hcalls, hrest⟩ := assembleBody_cut ha hcut.2
      (s := afterReads s [l] (answers rest ++ a :: more) [.readByte s.params.tShort]) rfl
    refine ⟨calls ++ [.readByte s.params.tShort], by simp [hcalls], ?_⟩
    rw [assembleLength_eq, afterRead_byte (more := answers rest ++ a :: more) hline _ (assembleBody (l.toNat + 1)) _
      (fun _ => rfl), hrest, afterReads_afterReads]

/-- A line that stops bringing bytes before the frame is complete: the assembly has made one read more than it has
collected bytes (R183, R186). -/
theorem assemble_cut {got : Bytes} (hcut : IsCutShort got) {s : State} {more : List ReadAnswer}
    (hline : s.line.lineIn = answers got ++ a :: more) :
    ∃ calls, calls.length = got.length + 1 ∧ assemble s = cutBy a (afterReads (clearRx s) got more calls) := by
  have hline' : (clearRx s).line.lineIn = answers got ++ a :: more := hline
  cases got with
  | nil => exact ⟨[.readByte s.params.tLong], rfl, afterRead_cut ha hline' _ _⟩
  | cons b rest =>
    obtain rfl : b = rspSync := by
      cases rest with
      | nil => exact hcut
      | cons => exact hcut.1
    obtain ⟨calls, hcalls, hrest⟩ := assembleLength_cut ha hcut
      (s := afterReads (clearRx s) [rspSync] (answers rest ++ a :: more) [.readByte s.params.tLong]) rfl
    refine ⟨calls ++ [.readByte s.params.tLong], by simp [hcalls], ?_⟩
    rw [assemble_eq, afterRead_byte (more := answers rest ++ a :: more) hline' _ assembleLength _ (fun _ => if_pos rfl), hrest,
      afterReads_afterReads]

end

/-- A first byte that is not the sync byte: it is kept and the line is left alone (R184). -/
theorem assemble_badSync {s : State} {b : Byte} (hb : b ≠ rspSync) {more : List ReadAnswer}
    (hline : s.line.lineIn = .byte b :: more) :
    assemble s = (.badSync, rejectWith (afterReads (clearRx s) [b] more [.readByte s.params.tLong]) .badSync) := by
  have hline' : (clearRx s).line.lineIn = .byte b :: more := hline
  rw [assemble_eq, afterRead_byte hline' _ (fun u => (.badSync, rejectWith u .badSync)) _ (fun _ => if_neg hb)]

/-- Settles O34: `assemble_cut` with the timeout and with the error, and `assemble_badSync`. -/
theorem assembleEndsEarly : Obligations.AssembleEndsEarly := by
  intro s got more hopen
  refine ⟨fun hcut hline => ?timeout, fun hcut hline => ?error, fun b hb hline => ?badSync⟩
  case timeout =>
    obtain ⟨calls, hcalls, h⟩ := assemble_cut (a := .timeout) nofun hcut hline
    have hbytes : candidate (afterReads (clearRx s) got more calls) = got := bytes_writeBytes got
    refine ⟨_, calls, writeBytes_holds got, hcalls, ?_⟩
    rw [exec_rxAssemble hopen, h, cutBy, afterRead, assembleAnswer, hbytes]
    simp [afterReads, finish, clearRx]
  case error =>
    obtain ⟨calls, hcalls, h⟩ := assemble_cut (a := .error) nofun hcut hline
    refine ⟨_, calls, writeBytes_holds got, hcalls, ?_⟩
    rw [exec_rxAssemble hopen, h, cutBy, afterRead, assembleAnswer]
    simp [afterReads, finish, failTransport, clearRx]
  case badSync =>
    rw [exec_rxAssemble hopen, assemble_badSync hb hline]
    rfl

/-! ## RX.VALIDATE (R188 to R196) -/

/-- What a verdict leaves: it is recorded in `RXSTAT` and answered (R189). -/
def withVerdict (s : State) (v : Verdict) : State := { s with rxStat := v.rxStat, outcome := some v.outcome }

theorem exec_rxValidate (f : Bytes) (s : State) :
    exec (.rxValidate f) s = .next (withVerdict s (validateFrame s.params.crcTab s.seq f)) := rfl

theorem validateFrame_short {tab : Vector Byte 256} {sq : Nibble} {f : Bytes} (h : f.length < 5) :
    validateFrame tab sq f = .reject .tooShort :=
  if_pos h

/-- Settles O35: `validateFrame_fields` is the chain of checks, and the verdict goes into each branch. -/
theorem validateChecksInOrder : Obligations.ValidateChecksInOrder := by
  refine ⟨fun _ _ => rfl, fun s f => ⟨fun hshort => ?_, fun b0 l c code k params hf => ?_⟩⟩
  · rw [exec_rxValidate, validateFrame_short hshort]
    rfl
  · rw [exec_rxValidate, hf, validateFrame_fields]
    simp only [apply_ite (withVerdict s)]
    rfl

/-- A right length byte and a right CRC make a response frame, whatever the control byte (R82, R88). -/
theorem responseFrame_of_fields {tab : Vector Byte 256} {l c code k : Byte} {params : Bytes}
    (hl : l.toNat = params.length + 2) (hk : k = crc8 tab ([l, c, code] ++ params)) :
    params.length ≤ 253 ∧ [rspSync, l, c, code] ++ params ++ [k] =
      responseFrame tab (debugFlag c) (controlReserved c) (seqNibble c) code params := by
  have hlt := l.isLt
  have hl' : l = BitVec.ofNat 8 (params.length + 2) := by rw [← hl, BitVec.ofNat_toNat, BitVec.setWidth_eq]
  refine ⟨by omega, ?_⟩
  rw [responseFrame, ← control_split, buildFrame_fields, ← hl', hk]

theorem validateFrame_reply_iff {tab : Vector Byte 256} {sq : Nibble} {f : Bytes} {code : Byte} {params : Bytes} :
    validateFrame tab sq f = .reply code params ↔
      ∃ reserved : BitVec 3, params.length ≤ 253 ∧ f = responseFrame tab false reserved sq code params := by
  constructor
  · intro h
    by_cases hlen : f.length < 5
    · rw [validateFrame_short hlen] at h
      cases h
    · obtain ⟨b0, l, c, code', params', k, rfl⟩ := fields_of_length (Nat.not_lt.1 hlen)
      rw [validateFrame_fields] at h
      split_ifs at h with hsync hcrc hlength hdebug hseq
      cases h
      obtain ⟨hfit, hframe⟩ := responseFrame_of_fields (by omega) (not_not.1 hcrc)
      rw [not_not.1 hsync]
      exact ⟨controlReserved c, hfit, by rw [hframe, Bool.eq_false_iff.2 hdebug, not_not.1 hseq]⟩
  · rintro ⟨reserved, hfit, rfl⟩
    rw [validateFrame_response _ _ _ _ _ _ _ hfit]
    simp

theorem validateFrame_debug_iff {tab : Vector Byte 256} {sq : Nibble} {f : Bytes} :
    validateFrame tab sq f = .debug ↔ IsDebugFrame tab f := by
  refine ⟨validateFrame_debug, ?_⟩
  rintro ⟨reserved, sq', code, params, hfit, rfl⟩
  rw [validateFrame_response _ _ _ _ _ _ _ hfit]
  rfl

/-- The answer tells the verdict. -/
theorem Verdict.outcome_reply_iff (v : Verdict) (code : Byte) (params : Bytes) :
    v.outcome = .ok (.reply code params) ↔ v = .reply code params := by
  cases v <;> simp [Verdict.outcome]

theorem Verdict.outcome_debug_iff (v : Verdict) : v.outcome = .ok .debug ↔ v = .debug := by
  cases v <;> simp [Verdict.outcome]

/-- Settles O36, by `validateFrame_reply_iff` and `validateFrame_debug_iff`. -/
theorem acceptedAndDebugFrames : Obligations.AcceptedAndDebugFrames := by
  intro s t f hexec
  cases hexec
  refine ⟨fun code params => ?_, ?_⟩
  · rw [← validateFrame_reply_iff, ← Verdict.outcome_reply_iff]
    exact Option.some_inj
  · rw [← validateFrame_debug_iff (sq := s.seq), ← Verdict.outcome_debug_iff]
    exact Option.some_inj

/-- A candidate whose length byte promises more bytes than there are does not get past the length check (R200). -/
theorem validateFrame_truncated {tab : Vector Byte 256} {sq : Nibble} {l : Byte} {rest : Bytes}
    (h5 : 5 ≤ (rspSync :: l :: rest).length) (hcut : (rspSync :: l :: rest).length < l.toNat + 3) :
    validateFrame tab sq (rspSync :: l :: rest) = .reject .badCrc ∨
      validateFrame tab sq (rspSync :: l :: rest) = .reject .badLength := by
  obtain ⟨b0, l', c, code, params, k, hf⟩ := fields_of_length h5
  rw [hf] at hcut ⊢
  simp only [List.cons_append, List.nil_append, List.cons.injEq] at hf
  obtain ⟨rfl, rfl, -⟩ := hf
  have hlength : l = 0 ∨ l = 1 ∨ l.toNat ≠ params.length + 2 := by
    simp at hcut
    omega
  rw [validateFrame_fields, if_neg (not_not.2 rfl), if_pos hlength]
  split
  · exact .inl rfl
  · exact .inr rfl

/-- Settles O37: below five bytes the first check decides, and `validateFrame_truncated` from there on. -/
theorem truncatedCandidateRejected : Obligations.TruncatedCandidateRejected := by
  intro s f hcut
  by_cases hshort : f.length < 5
  · refine ⟨.tooShort, ?_, iff_of_true rfl hshort, .inl rfl⟩
    rw [exec_rxValidate, validateFrame_short hshort]
    rfl
  · have hreject : validateFrame s.params.crcTab s.seq f = .reject .badCrc ∨
        validateFrame s.params.crcTab s.seq f = .reject .badLength := by
      rcases hcut with rfl | rfl | ⟨l, rest, rfl, hcut⟩
      · exact absurd (by decide) hshort
      · exact absurd (by decide) hshort
      · exact validateFrame_truncated (Nat.not_lt.1 hshort) hcut
    rcases hreject with h | h
    · exact ⟨.badCrc, by rw [exec_rxValidate, h]; rfl, iff_of_false nofun hshort, .inr (.inl rfl)⟩
    · exact ⟨.badLength, by rw [exec_rxValidate, h]; rfl, iff_of_false nofun hshort, .inr (.inr rfl)⟩

/-- The control byte of a request is that of a response with the debug flag and the reserved bits clear (R87, R88). -/
theorem requestControl_eq_response : ∀ sq : Nibble, requestControl sq = responseControl false 0 sq := by decide

/-- So a request with its sync byte replaced is a response (R203). -/
theorem requestFrame_tail (tab : Vector Byte 256) (sq : Nibble) (code : Byte) (params : Bytes) :
    0x42 :: (requestFrame tab sq code params).tail = responseFrame tab false 0 sq code params := by
  rw [requestFrame, responseFrame, requestControl_eq_response]
  rfl

/-- Settles O38: `requestFrame_tail` makes it a response that validates, `validateFrame_request` is the literal reading. -/
theorem loopBack : Obligations.LoopBack := by
  intro s t code params f hfit hencode hf
  rw [exec_txEncode, encodeRequest_of_le hfit] at hencode
  have ht := Host.Outcome.next.inj hencode
  obtain rfl : f = requestFrame t.params.crcTab t.seq code params := by
    subst ht
    cases hf
    rfl
  exact ⟨validateOp_eq (validateFrame_reply_iff.2 ⟨0, hfit, requestFrame_tail ..⟩),
    validateOp_eq (validateFrame_request ..)⟩

/-! ## What a receive does not read (R197) -/

/-- `DBGCNT` and the outcome of the operation before, which an assembly neither reads nor writes. -/
def beside (s : State) (d : Nat) (o : Option OpOutcome) : State := { s with dbgCnt := d, outcome := o }

section

variable (d : Nat) (o : Option OpOutcome)

theorem trRead_beside (ticks : Nat) (s : State) :
    trRead ticks (beside s d o) = ((trRead ticks s).1, beside (trRead ticks s).2 d o) := by
  cases hl : s.line.lineIn with
  | cons a more =>
    rw [trRead_scheduled (s := beside s d o) ticks hl, trRead_scheduled ticks hl]
    rfl
  | nil =>
    cases hc : s.line.lineInCycle with
    | cons a more =>
      rw [trRead_repeats (s := beside s d o) ticks hl hc, trRead_repeats ticks hl hc]
      rfl
    | nil =>
      rw [trRead_silent (s := beside s d o) ticks hl hc, trRead_silent ticks hl hc]
      rfl

theorem afterRead_beside {go : Byte → State → AssembleEnd × State}
    (hgo : ∀ b u, go b (beside u d o) = ((go b u).1, beside (go b u).2 d o)) (ticks : Nat) (s : State) :
    afterRead go (trRead ticks (beside s d o)) =
      ((afterRead go (trRead ticks s)).1, beside (afterRead go (trRead ticks s)).2 d o) := by
  rw [trRead_beside]
  rcases trRead ticks s with ⟨a, u⟩
  cases a with
  | byte b => exact hgo b u
  | timeout | error => rfl

theorem assembleBody_beside (n : Nat) (s : State) :
    assembleBody n (beside s d o) = ((assembleBody n s).1, beside (assembleBody n s).2 d o) := by
  induction n generalizing s with
  | zero => rfl
  | succ n ih => exact afterRead_beside d o (fun b u => ih (storeRx u b)) s.params.tShort s

theorem assembleLength_beside (s : State) :
    assembleLength (beside s d o) = ((assembleLength s).1, beside (assembleLength s).2 d o) :=
  afterRead_beside d o (fun l u => assembleBody_beside d o (l.toNat + 1) (storeRx u l)) s.params.tShort s

theorem assemble_beside (s : State) : assemble (beside s d o) = ((assemble s).1, beside (assemble s).2 d o) := by
  refine afterRead_beside d o (fun b u => ?_) s.params.tLong (clearRx s)
  split
  · exact assembleLength_beside d o (storeRx u b)
  · rfl

end

theorem validate_beside (s : State) (d : Nat) (o : Option OpOutcome) :
    validate (beside s d o) (candidate (beside s d o)) = validate s (candidate s) := rfl

/-- A receive does not read the outcome of the operation before it. -/
theorem receiveLoop_beside (n : Nat) (s : State) (d : Nat) (o o' : Option OpOutcome) :
    receiveLoop n (beside s d o) = receiveLoop n (beside s d o') := by
  induction n generalizing s d with
  | zero => rfl
  | succ n ih =>
    simp only [receiveLoop, assemble_beside]
    rcases assemble s with ⟨e, u⟩
    cases e with
    | badSync | failed => rfl
    | candidate =>
      simp only [validate_beside]
      cases validate u (candidate u) with
      | reply | reject => rfl
      | debug => exact ite_congr rfl (fun _ => rfl) (fun _ => ih u (d + 1))

theorem receive_finish (s : State) (o : OpOutcome) : receive (finish s o) = receive s :=
  ite_congr rfl (fun _ => rfl) (fun _ => receiveLoop_beside (receiveRounds s) s 0 (some o) s.outcome)

theorem exec_rxReceive {s : State} (h : s.session = .opened) :
    exec .rxReceive s = receiveLoop (receiveRounds s) (beside s 0 s.outcome) :=
  if_neg (not_not.2 h)

/-- Settles O44: in `xchg_cases` the receive starts from the state that the send leaves, but for the send's outcome, which
a receive does not read. -/
theorem exchangeIsSendThenReceive : Obligations.ExchangeIsSendThenReceive := by
  refine ⟨fun _ _ => rfl, fun s t hsend => ?_⟩
  rcases xchg_cases s with ⟨r, hxchg, hsame, hnotOk⟩ | ⟨-, l, -, -, hsent, hxchg⟩
  · have hr : r = .next t := hsame.symm.trans hsend
    exact ⟨fun hok => absurd hok (hnotOk t hr), fun _ => hxchg.trans hr⟩
  · rw [hsent] at hsend
    cases hsend
    exact ⟨fun _ => hxchg.trans (receive_finish _ _).symm, fun hne => absurd rfl hne⟩

/-! ## RX.RECEIVE (R197) -/

theorem assemble_failed_not_busy {s u : State} (h : assemble s = (.failed, u)) : u.busy = false := by
  obtain ⟨m, k, l, -, -, -, -, -, hres⟩ := assemble_cases s
  rcases hres with ⟨he, -⟩ | ⟨he, -⟩ | he
  all_goals rw [he] at h; cases h
  rfl

/-- Settles O39: the first round of the loop is the assembly, which does not mind that `DBGCNT` starts at 0, and what
validation says of its candidate ends the loop unless it is a debug frame. -/
theorem receiveIsAssembleThenValidate : Obligations.ReceiveIsAssembleThenValidate := by
  intro s t hopen hassemble
  rw [exec_rxAssemble hopen] at hassemble
  obtain ⟨n, hn⟩ : ∃ n, receiveRounds s = n + 1 := ⟨_, rfl⟩
  rw [exec_rxReceive hopen, hn]
  simp only [receiveLoop, assemble_beside]
  rcases h : assemble s with ⟨e, v⟩
  rw [h] at hassemble
  cases e with
  | candidate =>
    cases hassemble
    refine ⟨fun c u hc hvalidate hskip => ?_, fun hno => absurd rfl (hno _)⟩
    cases hc
    have hverdict : exec (.rxValidate (candidate v)) (finish v (.ok (.bytes (candidate v)))) =
      .next (withVerdict (finish v (.ok (.bytes (candidate v)))) (validate v (candidate v))) := rfl
    obtain rfl := Host.Outcome.next.inj (hverdict.symm.trans hvalidate)
    simp only [validate_beside]
    cases hv : validate v (candidate v) with
    | reply | reject => rfl
    | debug => exact absurd (by rw [hv]; rfl) hskip
  | badSync =>
    cases hassemble
    exact ⟨fun _ _ hc => absurd hc nofun, fun _ => rfl⟩
  | failed =>
    cases hassemble
    refine ⟨fun _ _ hc => absurd hc nofun, fun _ => ?_⟩
    have hb := assemble_failed_not_busy h
    simp [beside, finish, hb]

/-- A frame that validates, at the front of the line, ends the loop (R196, R197). -/
theorem receiveLoop_reply (n : Nat) {s : State} {f : Bytes} {code : Byte} {params : Bytes} {more : List ReadAnswer}
    (haccept : validateFrame s.params.crcTab s.seq f = .reply code params)
    (hline : s.line.lineIn = answers f ++ more) :
    ∃ (m : Memory) (calls : List TrCall), m.Holds f ∧ receiveLoop (n + 1) s = .next
      { s with
        rxBuf := m
        rxPos := params.length + 5
        rxStat := .accepted
        busy := false
        line := { s.line with lineIn := more, calls := calls ++ s.line.calls }
        outcome := some (.ok (.reply code params)) } := by
  obtain ⟨reserved, hfit, rfl⟩ := validateFrame_reply_iff.1 haccept
  obtain ⟨calls, ha⟩ := assemble_response s false reserved s.seq code params more hfit hline
  refine ⟨_, calls, writeBytes_holds _, ?_⟩
  simp only [receiveLoop, ha, candidate, bytes_writeBytes, validate, haccept]
  rfl

/-- Every debug frame on the line is worth a round, and there is one more (log 10). -/
theorem exists_receiveRounds_eq {s : State} {frames : List Bytes} {rest : List ReadAnswer}
    (hframes : ∀ d ∈ frames, IsDebugFrame s.params.crcTab d) (hline : s.line.lineIn = answers frames.flatten ++ rest) :
    ∃ n, receiveRounds s = frames.length + (n + 1) := by
  have hle := frames_le_answers frames hframes
  have hlen : s.line.lineIn.length = (answers frames.flatten).length + rest.length := by
    rw [hline, List.length_append]
  exact ⟨receiveRounds s - frames.length - 1, by rw [receiveRounds]; omega⟩

/-- Settles O40: `receiveLoop_skips` gets past the debug frames, for which the rounds suffice, and `receiveLoop_reply` is the
last round. -/
theorem receiveSkipsDebugFrames : Obligations.ReceiveSkipsDebugFrames := by
  refine ⟨fun _ _ => rfl, fun s frames reserved code params more hopen hframes hfit hlimit hline => ?_⟩
  have haccept := validateFrame_reply_iff.2 ⟨reserved, hfit, Eq.refl (responseFrame s.params.crcTab _ _ s.seq code _)⟩
  generalize responseFrame s.params.crcTab false reserved s.seq code params = f at haccept hline ⊢
  rw [answers, List.map_append, List.append_assoc] at hline
  obtain ⟨n, hn⟩ := exists_receiveRounds_eq hframes hline
  obtain ⟨m₀, k₀, skipped, hskip⟩ := receiveLoop_skips frames (n + 1) (beside s 0 s.outcome) (answers f ++ more) hframes
    (fun k hk => (Nat.zero_add _).trans_le (hlimit k hk)) hline
  obtain ⟨m, calls, hm, hreply⟩ := receiveLoop_reply n (f := f) (more := more) haccept
    (s := { beside s (0 + frames.length) s.outcome with
      rxBuf := m₀, rxPos := k₀, line := { s.line with lineIn := answers f ++ more, calls := skipped ++ s.line.calls } }) rfl
  refine ⟨m, calls ++ skipped, hm, ?_⟩
  rw [exec_rxReceive hopen, hn]
  refine hskip.trans (hreply.trans ?_)
  simp [beside]

/-- Settles O45: the send goes out and leaves `BUSY` set (`exec_txSend`), the exchange is then a receive
(`exchangeIsSendThenReceive`), which skips the debug frames and takes the reply (`receiveSkipsDebugFrames`). -/
theorem oneExchange : Obligations.OneExchange := by
  intro s f sent frames reserved code params more hopen hidle hholds hlen hpos hcap hanswer hframes hfit hlimit hline
  have hsend : exec .txSend s =
      .next (finish { s with busy := true, line := lineAfterSend s.line f } (.ok .unit)) := by
    rw [exec_txSend (readTx_holds hholds hlen hcap)]
    simp [hopen, hidle, hpos, sendAnswer, hanswer]
  obtain ⟨m, calls, hm, hreceive⟩ := receiveSkipsDebugFrames.2
    (finish { s with busy := true, line := lineAfterSend s.line f } (.ok .unit)) frames reserved code params more hopen
    hframes hfit hlimit hline
  refine ⟨m, calls ++ [.sendBytes], hm, ?_⟩
  rw [(exchangeIsSendThenReceive.2 s _ hsend).1 rfl, hreceive]
  simp [finish, lineAfterSend, hanswer]

end Sys2Proof.Machine

/-! The motion-block decoder (spec/44_motion_decode.md): a decode operation is its decoder after one operand check
(`decodeOne`), so the statements rest on an equation per format, on the layout of a record and its bytes determining each
other, on the scan of a block and an area after it, and on the codec reading the four block types and nothing else. -/

namespace Sys2Proof.Machine

/-! ## The operand check (R224) -/

theorem IsBlock.two_le_length {b : Bytes} (h : IsBlock b) : 2 ≤ b.length := by
  obtain ⟨_, _, _, rfl, -⟩ := h
  simp

section

variable {b : Bytes} (dec : Bytes → Block) (s : State)

theorem decodeOne_of_isBlock (h : IsBlock b) :
    decodeOne dec b s = .next { s with outcome := some (.ok (.block (dec b))) } :=
  if_pos ((isWholeBlock_iff b).2 h)

theorem decodeOne_of_not_isBlock (h : ¬ IsBlock b) :
    decodeOne dec b s = .next { s with outcome := some (.refused .blockOperand) } :=
  if_neg (mt (isWholeBlock_iff b).1 h)

theorem decodeOne_eq_block_iff (h : IsBlock b) {blk : Block} :
    decodeOne dec b s = .next { s with outcome := some (.ok (.block blk)) } ↔ dec b = blk := by
  rw [decodeOne_of_isBlock dec s h]
  constructor
  · intro heq
    injection heq with hstate
    simpa using congrArg State.outcome hstate
  · rintro rfl
    rfl

end

section

variable {b : Bytes} (h : IsBlock b) {s : State} {blk : Block}
include h

theorem mbDec_endsOnly_iff : EndsOnly (.mbDec b) s (.ok (.block blk)) ↔ decodeBlock s.params b = blk :=
  decodeOne_eq_block_iff _ s h

theorem mbDecBlm_endsOnly_iff : EndsOnly (.mbDecBlm b) s (.ok (.block blk)) ↔ decodeBlm b = blk :=
  decodeOne_eq_block_iff _ s h

end

/-! ## BasicLinearMove (R230 to R239) -/

theorem decodeBlmFields_blmLayout {r : BlmRecord} (h : blmFits r) (reserved : BitVec 3) :
    decodeBlmFields (blmLayout r reserved) = some (r, []) := by
  simpa using decodeBlmFields_layout r reserved [] h

/-- Fields that decoded out of a layout cut short would, with the bytes cut off put back behind them, decode with bytes left
over; but nothing is left over of a whole layout. -/
theorem decodeBlmFields_cut {r : BlmRecord} (h : blmFits r) {reserved : BitVec 3} {body : Bytes}
    (hinit : body <+: blmLayout r reserved) (hne : body ≠ blmLayout r reserved) : decodeBlmFields body = none := by
  obtain ⟨cut, hcut⟩ := hinit
  rw [Option.eq_none_iff_forall_ne_some]
  rintro ⟨r', rest⟩ hsome
  obtain ⟨hfits', reserved', rfl⟩ := decodeBlmFields_some hsome
  have hwhole := decodeBlmFields_layout r' reserved' (rest ++ cut) hfits'
  rw [← List.append_assoc, hcut, decodeBlmFields_blmLayout h] at hwhole
  have hnil : rest ++ cut = [] := by
    injection hwhole with hpair
    exact (congrArg Prod.snd hpair).symm
  rw [(List.append_eq_nil_iff.1 hnil).2, List.append_nil] at hcut
  exact hne hcut

section

variable {bl t : Byte} {body : Bytes}

theorem decodeBlm_of_none (h : decodeBlmFields body = none) :
    decodeBlm (bl :: t :: body) = .malformed .fieldOverrun (bl :: t :: body) := by
  simp [decodeBlm, h]

theorem decodeBlm_of_some {r : BlmRecord} {rest : Bytes} (h : decodeBlmFields body = some (r, rest)) :
    decodeBlm (bl :: t :: body) = if rest = [] then .blm r else .malformed .lengthMismatch (bl :: t :: body) := by
  simp [decodeBlm, h]

theorem decodeBlm_eq_blm_iff {r : BlmRecord} :
    decodeBlm (bl :: t :: body) = .blm r ↔ decodeBlmFields body = some (r, []) := by
  cases hfields : decodeBlmFields body with
  | none => simp [decodeBlm_of_none hfields]
  | some fields =>
    obtain ⟨r', rest⟩ := fields
    rw [decodeBlm_of_some hfields]
    split
    · next hrest => simp [hrest]
    · next hrest => simp [hrest]

end

/-- Settles O48: a layout and its record determine each other (`decodeBlmFields_layout`, `decodeBlmFields_some`), and a layout
cut short decodes to no fields (`decodeBlmFields_cut`). -/
theorem blmDecodesItsLayout : Obligations.BlmDecodesItsLayout := by
  refine ⟨fun _ _ => rfl, fun s bl t body hlen => ?_⟩
  have hblock : IsBlock (bl :: t :: body) := ⟨bl, t, body, rfl, hlen⟩
  simp only [mbDecBlm_endsOnly_iff hblock]
  refine ⟨fun r reserved hfits => ⟨?whole, ?cutShort, ?tooLong⟩, fun r hdec => ?record⟩
  case whole =>
    rintro rfl
    exact decodeBlm_eq_blm_iff.2 (decodeBlmFields_blmLayout hfits reserved)
  case cutShort => exact fun hinit hne => decodeBlm_of_none (decodeBlmFields_cut hfits hinit hne)
  case tooLong =>
    rintro ⟨rest, rfl⟩ hne
    have hrest : rest ≠ [] := by simpa using hne
    rw [decodeBlm_of_some (decodeBlmFields_layout r reserved rest hfits), if_neg hrest]
  case record =>
    obtain ⟨hfits, reserved, hbody⟩ := decodeBlmFields_some (decodeBlm_eq_blm_iff.1 hdec)
    rw [List.append_nil] at hbody
    refine ⟨hfits, ?_, reserved, hbody⟩
    rw [hlen, hbody, blmLayout_length r reserved hfits]

/-! ## The fixed formats (R226 to R229, R240) -/

section

variable {bl t : Byte} {body : Bytes}

theorem decodeWrapper_cons (order : Byte) (params : Bytes) :
    decodeWrapper (bl :: t :: order :: params) = .wrapper order params := by
  simp [decodeWrapper, byteAt, slice]

theorem decodeWrapper_nil : decodeWrapper [bl, t] = .malformed .lengthMismatch [bl, t] := rfl

theorem decodeDelay_pair (h l : Byte) :
    decodeDelay [bl, t, h, l] = .delay (h.toNat * 256 + l.toNat) ((h.toNat * 256 + l.toNat) * 10) := by
  simp [decodeDelay, slice, beNat, delayScale]

theorem decodeDelay_of_length_ne (h : body.length ≠ 2) :
    decodeDelay (bl :: t :: body) = .malformed .lengthMismatch (bl :: t :: body) :=
  if_pos (by simpa using h)

theorem decodeToolhead_singleton (index : Byte) : decodeToolhead [bl, t, index] = .toolhead index := rfl

theorem decodeToolhead_of_length_ne (h : body.length ≠ 1) :
    decodeToolhead (bl :: t :: body) = .malformed .lengthMismatch (bl :: t :: body) :=
  if_pos (by simpa using h)

theorem decodeUnknown_cons : decodeUnknown (bl :: t :: body) = .unknown t (bl :: t :: body) := rfl

/-! ## The selection by the type byte (R224) -/

theorem decodeBlock_cons (p : Params) :
    decodeBlock p (bl :: t :: body) =
      (if t = p.btWrapper then decodeWrapper (bl :: t :: body)
      else if t = p.btDelay then decodeDelay (bl :: t :: body)
      else if t = p.btBlm then decodeBlm (bl :: t :: body)
      else if t = p.btToolhead then decodeToolhead (bl :: t :: body)
      else decodeUnknown (bl :: t :: body)) := by
  have htype : byteAt (bl :: t :: body) 1 = t := rfl
  rw [decodeBlock, htype, blockKind]
  split_ifs <;> rfl

theorem decodeBlock_of_unknown {p : Params} (h : t ∉ [p.btWrapper, p.btDelay, p.btBlm, p.btToolhead]) :
    decodeBlock p (bl :: t :: body) = .unknown t (bl :: t :: body) := by
  have hkind : blockKind p (byteAt (bl :: t :: body) 1) = .unknown := blockKind_unknown h
  rw [decodeBlock, hkind, decodeUnknown_cons]

end

theorem exec_mbDec_cons {bl t : Byte} {body : Bytes} (h : IsBlock (bl :: t :: body)) (s : State) :
    exec (.mbDec (bl :: t :: body)) s =
      (if t = s.params.btWrapper then exec (.mbDecWrapper (bl :: t :: body)) s
      else if t = s.params.btDelay then exec (.mbDecDelay (bl :: t :: body)) s
      else if t = s.params.btBlm then exec (.mbDecBlm (bl :: t :: body)) s
      else if t = s.params.btToolhead then exec (.mbDecToolhead (bl :: t :: body)) s
      else exec (.mbDecUnknown (bl :: t :: body)) s) := by
  rw [(mbDec_endsOnly_iff h).2 rfl, decodeBlock_cons]
  split_ifs <;> exact (decodeOne_of_isBlock _ s h).symm

/-- Settles O47: the operand check is shared (`decodeOne`), the type byte selects by `exec_mbDec_cons`, and each format's own
equation says what its body decodes to. -/
theorem decodeByType : Obligations.DecodeByType := by
  refine ⟨fun _ _ => rfl, fun _ _ => rfl, fun _ _ => rfl, fun _ _ => rfl, fun _ _ => rfl, fun s => ⟨?refused, ?whole⟩⟩
  case refused =>
    intro b hb i hi
    simp only [List.mem_cons, List.not_mem_nil, or_false] at hi
    obtain rfl | rfl | rfl | rfl | rfl | rfl := hi
    all_goals exact decodeOne_of_not_isBlock _ s hb
  case whole =>
    intro bl t body hlen
    have hblock : IsBlock (bl :: t :: body) := ⟨bl, t, body, rfl, hlen⟩
    have hends {dec : Bytes → Block} {blk : Block} (h : dec (bl :: t :: body) = blk) :
        decodeOne dec (bl :: t :: body) s = .next { s with outcome := some (.ok (.block blk)) } :=
      (decodeOne_eq_block_iff dec s hblock).2 h
    refine ⟨exec_mbDec_cons hblock s, ⟨_, hends rfl⟩, fun ht => hends (decodeBlock_of_unknown ht),
      ?wrapper, ?wrapperEmpty, ?delay, fun h => hends (decodeDelay_of_length_ne h), ?toolhead,
      fun h => hends (decodeToolhead_of_length_ne h), hends decodeUnknown_cons⟩
    case wrapper =>
      rintro order params rfl
      exact hends (decodeWrapper_cons order params)
    case wrapperEmpty =>
      rintro rfl
      exact hends decodeWrapper_nil
    case delay =>
      rintro h l rfl
      exact hends (decodeDelay_pair h l)
    case toolhead =>
      rintro index rfl
      exact hends (decodeToolhead_singleton index)

/-! ## Scanning (R221 to R223) -/

theorem scanBlocks_nil (p : Params) (rounds : Nat) : scanBlocks p rounds [] = ([], .complete) := by
  cases rounds <;> rfl

section

variable (p : Params) (rounds : Nat)

theorem scanBlocks_singleton (x : Byte) :
    scanBlocks p (rounds + 1) [x] = ([.malformed .headerTruncated [x]], .stopped) := rfl

section

variable {bl t : Byte} {more : Bytes}

theorem scanBlocks_lengthTooSmall (h : bl.toNat < 2) :
    scanBlocks p (rounds + 1) (bl :: t :: more) = ([.malformed .lengthTooSmall (bl :: t :: more)], .stopped) :=
  if_pos h

theorem scanBlocks_overrun (hmin : 2 ≤ bl.toNat) (h : (bl :: t :: more).length < bl.toNat) :
    scanBlocks p (rounds + 1) (bl :: t :: more) = ([.malformed .overrun (bl :: t :: more)], .stopped) := by
  simp only [scanBlocks]
  rw [if_neg (Nat.not_lt.2 hmin), if_pos h]

/-- What is there of an area that no stop condition holds of: a whole block first. -/
theorem exists_block_append (hmin : 2 ≤ bl.toNat) (h : bl.toNat ≤ (bl :: t :: more).length) :
    ∃ b a, bl :: t :: more = b ++ a ∧ IsBlock b := by
  refine ⟨bl :: t :: more.take (bl.toNat - 2), more.drop (bl.toNat - 2), by simp, bl, t, _, rfl, ?_⟩
  simp only [List.length_cons] at h
  rw [List.length_take]
  omega

end

theorem scanBlocks_block_append {b : Bytes} (h : IsBlock b) (a : Bytes) :
    scanBlocks p (rounds + 1) (b ++ a) =
      (decodeBlock p b :: (scanBlocks p rounds a).1, (scanBlocks p rounds a).2) := by
  obtain ⟨bl, t, body, rfl, hlen⟩ := h
  have hmin : ¬ bl.toNat < 2 := by omega
  have hin : ¬ (bl :: t :: (body ++ a)).length < bl.toNat := by
    simp only [List.length_cons, List.length_append]
    omega
  simp only [List.cons_append, scanBlocks]
  rw [if_neg hmin, if_neg hin, hlen]
  simp

end

/-- The rounds a scan is given beyond the length of its area do not matter: a block takes at least two bytes. -/
theorem scanBlocks_of_length_le (p : Params) (n : Nat) {m : Nat} {a : Bytes} (hn : a.length ≤ n) (hm : a.length ≤ m) :
    scanBlocks p n a = scanBlocks p m a := by
  induction n generalizing m a with
  | zero =>
    obtain rfl := List.eq_nil_of_length_eq_zero (Nat.le_zero.1 hn)
    rw [scanBlocks_nil, scanBlocks_nil]
  | succ n ih =>
    match a, m with
    | [], _ => rw [scanBlocks_nil, scanBlocks_nil]
    | [_], _ + 1 => rfl
    | bl :: t :: more, m + 1 =>
      by_cases hsmall : bl.toNat < 2
      · rw [scanBlocks_lengthTooSmall p n hsmall, scanBlocks_lengthTooSmall p m hsmall]
      have hmin : 2 ≤ bl.toNat := Nat.not_lt.1 hsmall
      by_cases hover : (bl :: t :: more).length < bl.toNat
      · rw [scanBlocks_overrun p n hmin hover, scanBlocks_overrun p m hmin hover]
      obtain ⟨b, a, heq, hblock⟩ := exists_block_append hmin (Nat.not_lt.1 hover)
      have hpos := hblock.two_le_length
      rw [heq, List.length_append] at hn hm
      rw [heq, scanBlocks_block_append p n hblock, scanBlocks_block_append p m hblock,
        ih (m := m) (by omega) (by omega)]

theorem scanArea_block_append (p : Params) {b : Bytes} (h : IsBlock b) (a : Bytes) :
    scanArea p (b ++ a) = (decodeBlock p b :: (scanArea p a).1, (scanArea p a).2) := by
  obtain ⟨rounds, hlen, hrounds⟩ : ∃ rounds, (b ++ a).length = rounds + 1 ∧ a.length ≤ rounds := by
    have hpos := h.two_le_length
    refine ⟨b.length - 1 + a.length, ?_, Nat.le_add_left _ _⟩
    rw [List.length_append]
    omega
  rw [scanArea, hlen, scanBlocks_block_append p _ h, scanBlocks_of_length_le p _ hrounds le_rfl, ← scanArea]

theorem scansTo_iff {s : State} {a : Bytes} {bs : List Block} {st : ScanStatus} :
    ScansTo s a bs st ↔ scanArea s.params a = (bs, st) := by
  have hends : ScansTo s a (scanArea s.params a).1 (scanArea s.params a).2 := rfl
  constructor
  · intro h
    simpa [Prod.ext_iff] using EndsOnly.outcome_unique hends h
  · intro h
    rwa [h] at hends

/-- Settles O46, by the equations of the scan loop; a block and an area after it by `scanArea_block_append`. -/
theorem scanWalksTheArea : Obligations.ScanWalksTheArea := by
  refine ⟨fun _ _ => rfl, fun s => ?_⟩
  simp only [scansTo_iff]
  refine ⟨scanBlocks_nil _ _, scanBlocks_singleton _ _, fun _ _ _ => scanBlocks_lengthTooSmall _ _,
    fun _ _ _ => scanBlocks_overrun _ _, ?block, fun a => ⟨_, _, rfl⟩⟩
  intro b a blk bs st hblock hdec hscan
  rw [scanArea_block_append _ hblock, (mbDec_endsOnly_iff hblock).1 hdec, hscan]

/-! ## What the codec reads of the parameters (R244) -/

/-- The two records give the four block types the same codes. -/
def SameBlockTypes (p q : Params) : Prop :=
  p.btWrapper = q.btWrapper ∧ p.btDelay = q.btDelay ∧ p.btBlm = q.btBlm ∧ p.btToolhead = q.btToolhead

/-- Of the parameters, `f` reads the four block types and nothing else. -/
def ReadsBlockTypes {α : Type} (f : Params → α) : Prop := ∀ p q, SameBlockTypes p q → f p = f q

theorem ReadsBlockTypes.comp {α β : Type} {f : Params → α} (h : ReadsBlockTypes f) (g : α → β) :
    ReadsBlockTypes (fun p => g (f p)) :=
  fun p q hpq => congrArg g (h p q hpq)

theorem readsBlockTypes_const {α : Type} (x : α) : ReadsBlockTypes (fun _ => x) := fun _ _ _ => rfl

theorem decodeBlock_readsBlockTypes : ReadsBlockTypes decodeBlock := by
  rintro p q ⟨hwrapper, hdelay, hblm, htoolhead⟩
  funext b
  simp only [decodeBlock, blockKind, hwrapper, hdelay, hblm, htoolhead]

theorem scanBlocks_of_decodeBlock {p q : Params} (h : decodeBlock p = decodeBlock q) (rounds : Nat) (a : Bytes) :
    scanBlocks p rounds a = scanBlocks q rounds a := by
  induction rounds generalizing a with
  | zero => cases a <;> rfl
  | succ rounds ih =>
    match a with
    | [] => rfl
    | [_] => rfl
    | bl :: t :: more => simp only [scanBlocks, h, ih]

theorem scanArea_readsBlockTypes (a : Bytes) : ReadsBlockTypes (scanArea · a) :=
  fun p q hpq => scanBlocks_of_decodeBlock (decodeBlock_readsBlockTypes p q hpq) a.length a

theorem encodeWrapper_readsBlockTypes (order : Byte) (params : Bytes) : ReadsBlockTypes (encodeWrapper · order params) := by
  rintro p q ⟨hwrapper, -, -, -⟩
  simp only [encodeWrapper, hwrapper]

theorem encodeDelay_readsBlockTypes (ticks : Nat) : ReadsBlockTypes (encodeDelay · ticks) := by
  rintro p q ⟨-, hdelay, -, -⟩
  simp only [encodeDelay, hdelay]

theorem encodeBlm_readsBlockTypes (r : BlmRecord) : ReadsBlockTypes (encodeBlm · r) := by
  rintro p q ⟨-, -, hblm, -⟩
  simp only [encodeBlm, hblm]

theorem encodeToolhead_readsBlockTypes (index : Byte) : ReadsBlockTypes (encodeToolhead · index) := by
  rintro p q ⟨-, -, -, htoolhead⟩
  simp only [encodeToolhead, htoolhead]

/-- Run from any state, `run` does nothing but end with an outcome that the block types determine. -/
def EndsByBlockTypes (run : State → StepResult) : Prop :=
  ∃ f : Params → OpOutcome, ReadsBlockTypes f ∧ ∀ s, run s = .next { s with outcome := some (f s.params) }

theorem succeed_endsByBlockTypes {v : Params → Value} (h : ReadsBlockTypes v) :
    EndsByBlockTypes (fun s => succeed s (v s.params)) :=
  ⟨_, h.comp .ok, fun _ => rfl⟩

theorem decodeOne_endsByBlockTypes {dec : Params → Bytes → Block} (h : ReadsBlockTypes dec) (b : Bytes) :
    EndsByBlockTypes (fun s => decodeOne (dec s.params) b s) := by
  by_cases hb : IsBlock b
  · exact ⟨_, h.comp fun d => .ok (.block (d b)), fun s => decodeOne_of_isBlock _ s hb⟩
  · exact ⟨_, readsBlockTypes_const (.refused .blockOperand), fun s => decodeOne_of_not_isBlock _ s hb⟩

/-- The outcome that an encoder's answer is handed on as. -/
def encoderOutcome : Except RefusedWhy Bytes → OpOutcome
  | .ok b => .ok (.bytes b)
  | .error why => .refused why

theorem finishBytes_eq (s : State) (r : Except RefusedWhy Bytes) :
    finishBytes s r = .next { s with outcome := some (encoderOutcome r) } := by
  cases r with
  | ok b => rfl
  | error why => rfl

theorem finishBytes_endsByBlockTypes {r : Params → Except RefusedWhy Bytes} (h : ReadsBlockTypes r) :
    EndsByBlockTypes (fun s => finishBytes s (r s.params)) :=
  ⟨_, h.comp encoderOutcome, fun s => finishBytes_eq s (r s.params)⟩

/-- Every operation of the codec reads the block types and nothing else of the state. -/
theorem exec_endsByBlockTypes {i : Instr} (h : isMotionOp i = true) : EndsByBlockTypes (exec i) := by
  have fixed (dec : Bytes → Block) := decodeOne_endsByBlockTypes (readsBlockTypes_const dec)
  cases i
  case mbScan a => exact succeed_endsByBlockTypes ((scanArea_readsBlockTypes a).comp fun x => .blocks x.1 x.2)
  case mbDec b => exact decodeOne_endsByBlockTypes decodeBlock_readsBlockTypes b
  case mbDecWrapper b => exact fixed decodeWrapper b
  case mbDecDelay b => exact fixed decodeDelay b
  case mbDecBlm b => exact fixed decodeBlm b
  case mbDecToolhead b => exact fixed decodeToolhead b
  case mbDecUnknown b => exact fixed decodeUnknown b
  case mbEncWrapper order params => exact finishBytes_endsByBlockTypes (encodeWrapper_readsBlockTypes order params)
  case mbEncDelay ticks => exact finishBytes_endsByBlockTypes (encodeDelay_readsBlockTypes ticks)
  case mbEncBlm r => exact finishBytes_endsByBlockTypes (encodeBlm_readsBlockTypes r)
  case mbEncToolhead index => exact succeed_endsByBlockTypes ((encodeToolhead_readsBlockTypes index).comp .bytes)
  case mbEncRaw typ body => exact finishBytes_endsByBlockTypes (readsBlockTypes_const (encodeRaw typ body))
  case mbPack blocks => exact finishBytes_endsByBlockTypes (readsBlockTypes_const (packBlocks blocks))
  all_goals cases h

/-- The default parameters with these four block types. -/
def paramsOfBlockTypes (wrapper delay blm toolhead : Byte) : Params :=
  { defaultParams with btWrapper := wrapper, btDelay := delay, btBlm := blm, btToolhead := toolhead }

/-- Settles O54: every operation of the codec ends by the block types (`exec_endsByBlockTypes`), so with the outcome it has
under any one record of parameters with these four. -/
theorem motionCodecIsPure : Obligations.MotionCodecIsPure := by
  intro i wrapper delay blm toolhead hi
  obtain ⟨f, hf, hexec⟩ := exec_endsByBlockTypes hi
  refine ⟨f (paramsOfBlockTypes wrapper delay blm toolhead), fun s hwrapper hdelay hblm htoolhead => ?_⟩
  have htypes : SameBlockTypes s.params (paramsOfBlockTypes wrapper delay blm toolhead) :=
    ⟨hwrapper, hdelay, hblm, htoolhead⟩
  rw [EndsOnly, hexec, hf _ _ htypes]

end Sys2Proof.Machine

/-! The motion-block encoder (spec/45_motion_encode.md): every encoder ends with what `encoderOutcome` makes of its pure
function, and lemmas say once what each function accepts and the bytes it makes. `DecodedAs` is the other side, one case per
format: what a whole block looks like, given what it decoded to. A complete scan is a list of whole blocks
(`scanArea_complete_iff`), and that is what both directions of scanning and packing rest on. -/

namespace Sys2Proof.Machine

/-! ## How an encoder ends -/

section

variable (s : State)

theorem mbEncWrapper_endsOnly (order : Byte) (params : Bytes) :
    EndsOnly (.mbEncWrapper order params) s (encoderOutcome (encodeWrapper s.params order params)) := finishBytes_eq s _

theorem mbEncDelay_endsOnly (ticks : Nat) :
    EndsOnly (.mbEncDelay ticks) s (encoderOutcome (encodeDelay s.params ticks)) := finishBytes_eq s _

theorem mbEncBlm_endsOnly (r : BlmRecord) : EndsOnly (.mbEncBlm r) s (encoderOutcome (encodeBlm s.params r)) :=
  finishBytes_eq s _

theorem mbEncToolhead_endsOnly (index : Byte) :
    EndsOnly (.mbEncToolhead index) s (encoderOutcome (.ok (encodeToolhead s.params index))) := rfl

theorem mbEncRaw_endsOnly (typ : Byte) (body : Bytes) :
    EndsOnly (.mbEncRaw typ body) s (encoderOutcome (encodeRaw typ body)) := finishBytes_eq s _

theorem mbPack_endsOnly (blocks : List Bytes) : EndsOnly (.mbPack blocks) s (encoderOutcome (packBlocks blocks)) :=
  finishBytes_eq s _

end

theorem encoderOutcome_eq_bytes_iff {r : Except RefusedWhy Bytes} {b : Bytes} :
    encoderOutcome r = .ok (.bytes b) ↔ r = .ok b := by
  cases r <;> simp [encoderOutcome]

/-- An instruction that hands on an encoder's answer ends `Ok` with `b` exactly where the encoder made `b`. -/
theorem EndsOnly.bytes_iff {i : Instr} {s : State} {r : Except RefusedWhy Bytes} (hi : EndsOnly i s (encoderOutcome r))
    {b : Bytes} : EndsOnly i s (.ok (.bytes b)) ↔ r = .ok b := by
  rw [← encoderOutcome_eq_bytes_iff]
  constructor
  · exact hi.outcome_unique
  · intro h
    rwa [h] at hi

/-! ## What each encoder makes (R261 to R267) -/

/-- An encoder is one check of its operands and then the bytes. -/
theorem ite_error_eq_ok_iff {c : Prop} [Decidable c] {why : RefusedWhy} {x b : Bytes} :
    (if c then .error why else .ok x : Except RefusedWhy Bytes) = .ok b ↔ ¬ c ∧ b = x := by
  by_cases hc : c
  · simp [hc]
  · simp [hc, eq_comm]

section

variable {p : Params} {b : Bytes}

theorem encodeWrapper_eq_ok_iff {order : Byte} {params : Bytes} :
    encodeWrapper p order params = .ok b ↔
      params.length ≤ 252 ∧ b = BitVec.ofNat 8 (3 + params.length) :: p.btWrapper :: order :: params := by
  rw [encodeWrapper, ite_error_eq_ok_iff, Nat.not_lt]
  rfl

theorem encodeDelay_eq_ok_iff {ticks : Nat} :
    encodeDelay p ticks = .ok b ↔
      ticks ≤ 65535 ∧ b = [0x04, p.btDelay, BitVec.ofNat 8 (ticks / 256), BitVec.ofNat 8 ticks] := by
  rw [encodeDelay, ite_error_eq_ok_iff, Nat.not_lt]
  rfl

theorem encodeRaw_eq_ok_iff {typ : Byte} {body : Bytes} :
    encodeRaw typ body = .ok b ↔ body.length ≤ 253 ∧ b = BitVec.ofNat 8 (body.length + 2) :: typ :: body := by
  rw [encodeRaw, ite_error_eq_ok_iff, Nat.not_lt]
  rfl

theorem encodeBlm_of_fits {r : BlmRecord} (h : blmFits r) :
    encodeBlm p r = .ok (BitVec.ofNat 8 (blmBlockLength r) :: p.btBlm :: blmLayout r 0) := by
  rw [encodeBlm, if_pos ((blmWellFormed_iff r).2 h), blmBodyBytes_layout r h, blmLayout_length r 0 h]
  rfl

theorem encodeBlm_of_not_fits {r : BlmRecord} (h : ¬ blmFits r) : encodeBlm p r = .error .illFormedRecord :=
  if_neg (mt (blmWellFormed_iff r).1 h)

theorem fits_of_encodeBlm_eq_ok {r : BlmRecord} (h : encodeBlm p r = .ok b) : blmFits r := by
  by_contra hfits
  cases (encodeBlm_of_not_fits hfits).symm.trans h

end

theorem packBlocks_of_blocks {blocks : List Bytes} (h : ∀ b ∈ blocks, IsBlock b) :
    packBlocks blocks = if 253 < blocks.flatten.length then .error .areaTooLong else .ok blocks.flatten := by
  have hall : blocks.all isWholeBlock = true := List.all_eq_true.2 fun b hb => (isWholeBlock_iff b).2 (h b hb)
  rw [packBlocks, hall]
  rfl

theorem packBlocks_of_not_block {blocks : List Bytes} (h : ∃ b ∈ blocks, ¬ IsBlock b) :
    packBlocks blocks = .error .blockOperand := by
  obtain ⟨b, hb, hnot⟩ := h
  have hall : blocks.all isWholeBlock = false :=
    List.all_eq_false.2 ⟨b, hb, mt (isWholeBlock_iff b).1 hnot⟩
  rw [packBlocks, hall]
  rfl

theorem eq_flatten_of_packBlocks {blocks : List Bytes} {a : Bytes} (h : packBlocks blocks = .ok a) :
    a = blocks.flatten := by
  unfold packBlocks at h
  split_ifs at h
  injection h with h
  exact h.symm

/-- Settles O49: each encoder ends with what its pure function makes, and packing is a check of the operands, then of the
length of the area. -/
theorem encodeFixedFormats : Obligations.EncodeFixedFormats := by
  refine ⟨fun _ _ => rfl, fun _ _ => rfl, fun _ _ => rfl, fun _ _ => rfl, fun _ _ => rfl,
    fun s x bytes ticks blocks => ⟨?wrapper, ?delay, mbEncToolhead_endsOnly s x, ?raw, ?notBlocks, ?blocks⟩⟩
  case wrapper =>
    have h := mbEncWrapper_endsOnly s x bytes
    rwa [encodeWrapper, apply_ite encoderOutcome] at h
  case delay =>
    have h := mbEncDelay_endsOnly s ticks
    rwa [encodeDelay, apply_ite encoderOutcome] at h
  case raw =>
    have h := mbEncRaw_endsOnly s x bytes
    rwa [encodeRaw, apply_ite encoderOutcome] at h
  case notBlocks =>
    intro hnot
    have h := mbPack_endsOnly s blocks
    rwa [packBlocks_of_not_block hnot] at h
  case blocks =>
    intro hall
    have h := mbPack_endsOnly s blocks
    rwa [packBlocks_of_blocks hall, apply_ite encoderOutcome] at h

/-! ## BasicLinearMove (R264, R265) -/

/-- A mask that fits selects no axis 15: fifteen bits are the most a wide mask carries (30_encoding.md R101). -/
theorem selectedAxes_length_le {sel : Nat} (h : sel < 32768) : (selectedAxes sel).length ≤ 15 := by
  have hbit : sel.testBit 15 = false := Nat.testBit_lt_two_pow h
  rw [selectedAxes, List.range_succ, List.filter_append, List.filter_singleton, hbit]
  simpa using List.length_filter_le _ (List.range 15)

theorem blmBlockLength_le_of_fits {r : BlmRecord} (h : blmFits r) : blmBlockLength r ≤ 43 := by
  obtain ⟨⟨hsel, -⟩, -⟩ := h
  have haxes := selectedAxes_length_le (sel := r.body.sel) (by split at hsel <;> omega)
  rw [selectedAxes] at haxes
  unfold blmBlockLength
  split_ifs <;> omega

/-- Settles O50: a record that fits is encoded as its layout (`encodeBlm_of_fits`), and fifteen selected axes with every field
wide make the longest one. -/
theorem blmEncodesItsLayout : Obligations.BlmEncodesItsLayout := by
  refine ⟨fun _ _ => rfl, fun s r => ⟨fun hfits => ?fits, fun hfits => ?refused⟩⟩
  case fits =>
    exact ⟨blmBlockLength_le_of_fits hfits, blmLayout_length r 0 hfits,
      (mbEncBlm_endsOnly s r).bytes_iff.2 (encodeBlm_of_fits hfits)⟩
  case refused =>
    have h := mbEncBlm_endsOnly s r
    rwa [encodeBlm_of_not_fits hfits] at h

/-! ## Decode after encode (R268 item 1) -/

theorem mbDec_endsOnly_block_iff {s : State} {b : Bytes} {blk : Block} :
    EndsOnly (.mbDec b) s (.ok (.block blk)) ↔ IsBlock b ∧ decodeBlock s.params b = blk := by
  by_cases hb : IsBlock b
  · simp [mbDec_endsOnly_iff hb, hb]
  · have hrefused : EndsOnly (.mbDec b) s (.refused .blockOperand) := decodeOne_of_not_isBlock _ s hb
    simp only [hb, false_and, iff_false]
    intro h
    cases hrefused.outcome_unique h

theorem EncodesTo.mbDec_endsOnly {s : State} {r : Except RefusedWhy Bytes} {blk : Block} {b : Bytes}
    (h : EncodesTo s.params r blk) (hb : r = .ok b) : EndsOnly (.mbDec b) s (.ok (.block blk)) := by
  obtain ⟨b', hb', hdec⟩ := h
  obtain rfl : b' = b := by simpa [hb'] using hb
  exact mbDec_endsOnly_block_iff.2 hdec

/-- Settles O51: what an encoder made lies within its bounds, and then `EncodesTo` says what it decodes to. -/
theorem blockDecodesAfterEncode : Obligations.BlockDecodesAfterEncode := by
  intro s b hdiffer
  refine ⟨fun order params henc => ?wrapper, fun ticks henc => ?delay, fun index henc => ?toolhead, fun r henc => ?blm,
    fun typ body htyp henc => ?unknown⟩
  case wrapper =>
    have hok := (mbEncWrapper_endsOnly s order params).bytes_iff.1 henc
    obtain ⟨hlen, -⟩ := encodeWrapper_eq_ok_iff.1 hok
    exact (encodeWrapper_encodesTo order hlen).mbDec_endsOnly hok
  case delay =>
    have hok := (mbEncDelay_endsOnly s ticks).bytes_iff.1 henc
    obtain ⟨hle, -⟩ := encodeDelay_eq_ok_iff.1 hok
    have hto := encodeDelay_encodesTo hdiffer (BitVec.ofNat 16 ticks)
    rw [BitVec.toNat_ofNat, Nat.mod_eq_of_lt (by omega)] at hto
    exact hto.mbDec_endsOnly hok
  case toolhead =>
    exact (encodeToolhead_encodesTo hdiffer index).mbDec_endsOnly ((mbEncToolhead_endsOnly s index).bytes_iff.1 henc)
  case blm =>
    have hok := (mbEncBlm_endsOnly s r).bytes_iff.1 henc
    exact (encodeBlm_encodesTo hdiffer (fits_of_encodeBlm_eq_ok hok)).mbDec_endsOnly hok
  case unknown =>
    have hok := (mbEncRaw_endsOnly s typ body).bytes_iff.1 henc
    obtain ⟨hlen, rfl⟩ := encodeRaw_eq_ok_iff.1 hok
    exact (encodeRaw_encodesTo (blockKind_unknown htyp) hlen).mbDec_endsOnly hok

/-! ## Encode after decode (R268 item 2) -/

/-- What a block of type `t` and with this body decoded to, by the format that read it (44_motion_decode.md R224 to R240). -/
inductive DecodedAs (p : Params) (b : Bytes) : Byte → Bytes → Block → Prop
  | wrapper (order : Byte) (params : Bytes) : DecodedAs p b p.btWrapper (order :: params) (.wrapper order params)
  | delay (h l : Byte) : DecodedAs p b p.btDelay [h, l]
      (.delay (h.toNat * 256 + l.toNat) ((h.toNat * 256 + l.toNat) * 10))
  | toolhead (index : Byte) : DecodedAs p b p.btToolhead [index] (.toolhead index)
  | blm (r : BlmRecord) (reserved : BitVec 3) (fits : blmFits r) :
      DecodedAs p b p.btBlm (blmLayout r reserved) (.blm r)
  | unknown (t : Byte) (body : Bytes) : DecodedAs p b t body (.unknown t b)
  | malformed (t : Byte) (body : Bytes) (why : MalformedWhy) : DecodedAs p b t body (.malformed why b)

theorem decodeBlm_decodedAs (p : Params) (bl : Byte) (body : Bytes) :
    DecodedAs p (bl :: p.btBlm :: body) p.btBlm body (decodeBlm (bl :: p.btBlm :: body)) := by
  cases hfields : decodeBlmFields body with
  | none =>
    rw [decodeBlm_of_none hfields]
    exact .malformed _ _ _
  | some fields =>
    obtain ⟨r, rest⟩ := fields
    rw [decodeBlm_of_some hfields]
    split
    · next hrest =>
      obtain ⟨hfits, reserved, rfl⟩ := decodeBlmFields_some hfields
      rw [hrest, List.append_nil]
      exact .blm r reserved hfits
    · exact .malformed _ _ _

theorem decodeBlock_decodedAs (p : Params) (bl t : Byte) (body : Bytes) :
    DecodedAs p (bl :: t :: body) t body (decodeBlock p (bl :: t :: body)) := by
  rw [decodeBlock_cons]
  split_ifs with hwrapper hdelay hblm htoolhead
  · subst hwrapper
    match body with
    | [] => exact .malformed _ _ _
    | order :: params =>
      rw [decodeWrapper_cons]
      exact .wrapper order params
  · subst hdelay
    by_cases hlen : body.length = 2
    · obtain ⟨h, l, rfl⟩ := List.length_eq_two.1 hlen
      rw [decodeDelay_pair]
      exact .delay h l
    · rw [decodeDelay_of_length_ne hlen]
      exact .malformed _ _ _
  · subst hblm
    exact decodeBlm_decodedAs p bl body
  · subst htoolhead
    by_cases hlen : body.length = 1
    · obtain ⟨index, rfl⟩ := List.length_eq_one_iff.1 hlen
      exact .toolhead index
    · rw [decodeToolhead_of_length_ne hlen]
      exact .malformed _ _ _
  · exact .unknown t body

/-- The length byte of a whole block, as an encoder writes it. -/
theorem eq_ofNat_of_toNat_eq {bl : Byte} {n : Nat} (h : bl.toNat = n) : bl = BitVec.ofNat 8 n := by
  rw [← h, BitVec.ofNat_toNat, BitVec.setWidth_eq]

theorem pack_clear_reserved : ∀ (reserved : BitVec 3) (homing : Bool) (primary : BitVec 4),
    (reserved ++ BitVec.ofBool homing ++ primary : BitVec 8) &&& 0x1F = 0#3 ++ BitVec.ofBool homing ++ primary := by
  decide +kernel

/-- Clearing the three reserved bits of the packing byte, which follows the two masks, gives the layout the encoder makes
(30_encoding.md R103, R107). -/
theorem blmLayout_clear_reserved (r : BlmRecord) (reserved : BitVec 3) (bl t : Byte) :
    (bl :: t :: blmLayout r reserved).set (if r.wideMask then 6 else 4)
        ((bl :: t :: blmLayout r reserved).getD (if r.wideMask then 6 else 4) 0 &&& 0x1F) =
      bl :: t :: blmLayout r 0 := by
  have hpack := pack_clear_reserved reserved r.body.homing (BitVec.ofNat 4 r.body.primary)
  cases hwide : r.wideMask
  · simpa [blmLayout, maskLayout, hwide] using hpack
  · simpa [blmLayout, maskLayout, hwide] using hpack

theorem delay_bytes (h l : Byte) :
    BitVec.ofNat 8 ((h.toNat * 256 + l.toNat) / 256) = h ∧ BitVec.ofNat 8 (h.toNat * 256 + l.toNat) = l := by
  have hh := h.isLt
  have hl := l.isLt
  constructor
  · apply BitVec.eq_of_toNat_eq
    rw [BitVec.toNat_ofNat]
    omega
  · apply BitVec.eq_of_toNat_eq
    rw [BitVec.toNat_ofNat]
    omega

/-- Settles O52: `DecodedAs` says which format read the block and so what its bytes are, which is what that format's encoder
makes. -/
theorem blockReencodesAfterDecode : Obligations.BlockReencodesAfterDecode := by
  intro s b blk hdec
  obtain ⟨⟨bl, t, body, rfl, hlen⟩, hblk⟩ := mbDec_endsOnly_block_iff.1 hdec
  have hshape := decodeBlock_decodedAs s.params bl t body
  rw [hblk] at hshape
  have hbl := eq_ofNat_of_toNat_eq hlen
  have hmax := bl.isLt
  refine ⟨?wrapper, ?delay, ?toolhead, ?unknown, ?blm⟩
  case wrapper =>
    rintro order params rfl
    cases hshape
    rw [List.length_cons] at hlen hbl
    refine (mbEncWrapper_endsOnly s order params).bytes_iff.2 (encodeWrapper_eq_ok_iff.2 ⟨by omega, ?_⟩)
    rw [hbl, Nat.add_comm 3]
  case delay =>
    rintro ticks micros rfl
    cases hshape with
    | delay h l =>
      obtain ⟨hhigh, hlow⟩ := delay_bytes h l
      have hh := h.isLt
      have hl := l.isLt
      refine (mbEncDelay_endsOnly s _).bytes_iff.2 (encodeDelay_eq_ok_iff.2 ⟨by omega, ?_⟩)
      rw [hhigh, hlow, hbl]
      rfl
  case toolhead =>
    rintro index rfl
    cases hshape
    rw [hbl]
    exact mbEncToolhead_endsOnly s index
  case unknown =>
    rintro typ raw rfl
    cases hshape
    refine ⟨rfl, (mbEncRaw_endsOnly s t body).bytes_iff.2 (encodeRaw_eq_ok_iff.2 ⟨by omega, ?_⟩)⟩
    rw [hbl]
  case blm =>
    rintro r rfl
    cases hshape with
    | blm _ reserved hfits =>
      rw [blmLayout_length r reserved hfits] at hbl
      have henc := (mbEncBlm_endsOnly s r).bytes_iff.2 (encodeBlm_of_fits hfits)
      rwa [← hbl, ← blmLayout_clear_reserved r reserved] at henc

/-! ## Scan and pack (R268 item 3, 44_motion_decode.md R243) -/

theorem scanArea_flatten (p : Params) {blocks : List Bytes} (h : ∀ b ∈ blocks, IsBlock b) :
    scanArea p blocks.flatten = (blocks.map (decodeBlock p), .complete) := by
  induction blocks with
  | nil => exact scanBlocks_nil p 0
  | cons b blocks ih =>
    rw [List.forall_mem_cons] at h
    rw [List.flatten_cons, scanArea_block_append p h.1, ih h.2]
    rfl

/-- Each of the three stop conditions ends a scan as stopped, so a scan that completes went from block to block. -/
theorem blocks_of_scanBlocks_complete (p : Params) (rounds : Nat) {a : Bytes}
    (h : (scanBlocks p rounds a).2 = .complete) : ∃ blocks : List Bytes, blocks.flatten = a ∧ ∀ b ∈ blocks, IsBlock b := by
  induction rounds generalizing a with
  | zero =>
    match a with
    | [] => exact ⟨[], rfl, nofun⟩
  | succ rounds ih =>
    match a with
    | [] => exact ⟨[], rfl, nofun⟩
    | bl :: t :: more =>
      by_cases hsmall : bl.toNat < 2
      · rw [scanBlocks_lengthTooSmall p rounds hsmall] at h
        cases h
      have hmin : 2 ≤ bl.toNat := Nat.not_lt.1 hsmall
      by_cases hover : (bl :: t :: more).length < bl.toNat
      · rw [scanBlocks_overrun p rounds hmin hover] at h
        cases h
      obtain ⟨b, rest, heq, hblock⟩ := exists_block_append hmin (Nat.not_lt.1 hover)
      rw [heq, scanBlocks_block_append p rounds hblock] at h
      obtain ⟨blocks, hflat, hblocks⟩ := ih h
      exact ⟨b :: blocks, by rw [List.flatten_cons, hflat, heq], List.forall_mem_cons.2 ⟨hblock, hblocks⟩⟩

theorem scanArea_complete_iff {p : Params} {a : Bytes} {decoded : List Block} :
    scanArea p a = (decoded, .complete) ↔
      ∃ blocks : List Bytes, blocks.flatten = a ∧ (∀ b ∈ blocks, IsBlock b) ∧ blocks.map (decodeBlock p) = decoded := by
  constructor
  · intro h
    obtain ⟨blocks, rfl, hblocks⟩ := blocks_of_scanBlocks_complete p a.length (congrArg Prod.snd h)
    rw [scanArea_flatten p hblocks] at h
    exact ⟨blocks, rfl, hblocks, congrArg Prod.fst h⟩
  · rintro ⟨blocks, rfl, hblocks, rfl⟩
    exact scanArea_flatten p hblocks

theorem forall₂_mbDec_iff {s : State} {blocks : List Bytes} {decoded : List Block} :
    List.Forall₂ (fun b blk => EndsOnly (.mbDec b) s (.ok (.block blk))) blocks decoded ↔
      (∀ b ∈ blocks, IsBlock b) ∧ blocks.map (decodeBlock s.params) = decoded := by
  simp only [mbDec_endsOnly_block_iff]
  rw [List.forall₂_and_left, ← List.forall₂_map_left_iff, List.forall₂_eq_eq_eq]

/-- Settles O53, by `scanArea_complete_iff`: a completed scan is a list of whole blocks and their decodings. -/
theorem scanAndPack : Obligations.ScanAndPack := by
  intro s
  simp only [scansTo_iff, forall₂_mbDec_iff]
  constructor
  · rintro blocks decoded a hpack ⟨hblocks, hdec⟩
    obtain rfl := eq_flatten_of_packBlocks ((mbPack_endsOnly s blocks).bytes_iff.1 hpack)
    exact scanArea_complete_iff.2 ⟨blocks, rfl, hblocks, hdec⟩
  · intro a decoded hscan
    obtain ⟨blocks, hflat, hblocks, hdec⟩ := scanArea_complete_iff.1 hscan
    exact ⟨blocks, hflat, hblocks, hblocks, hdec⟩

end Sys2Proof.Machine

/-! The catalog lookups and the value helpers (spec/46_catalog_helpers.md): a lookup ends with what `lookupCode` finds in its
table, and BE.UINT and TEXT with the bytes that a drop and a take leave of the buffer (`clampedBytes_endsOnly`), whatever lies
inside, at or beyond its end. -/

namespace Sys2Proof.Machine

/-! ## How a lookup ends (R291 to R295) -/

section

variable (s : State)

theorem catOrder_endsOnly (code : Byte) :
    EndsOnly (.catOrder code) s (.ok (.order (lookupCode (orderCatalog s.params) code))) := rfl

theorem catReply_endsOnly (code : Byte) :
    EndsOnly (.catReply code) s (.ok (.replyEntry (lookupCode (replyCatalog s.params) code))) := rfl

theorem errReason_endsOnly (v : Byte) :
    EndsOnly (.errReason v) s (.ok (.reason (lookupCode ((subReasonCodes s.params).zip subReasonList) v))) := by
  rw [← subReasonTable_zip]
  rfl

theorem stoppedDec_singleton_endsOnly (r : Byte) :
    EndsOnly (.stoppedDec [r]) s
      (.ok (.stopped ⟨some (lookupCode (s.params.stopRecovery.toList.zip recoveryList) r), none, [], true⟩)) := by
  rw [← recoveryTable_zip]
  rfl

theorem stoppedDec_cons_cons_endsOnly (r c : Byte) (reason : Bytes) :
    EndsOnly (.stoppedDec (r :: c :: reason)) s
      (.ok (.stopped ⟨some (lookupCode (s.params.stopRecovery.toList.zip recoveryList) r),
        some (lookupCode (s.params.stopCause.toList.zip causeList) c), reason, false⟩)) := by
  rw [← recoveryTable_zip, ← causeTable_zip]
  rfl

end

theorem lookupCode_of_not_mem {table : List (Byte × α)} {v : Byte} (h : v ∉ table.map Prod.fst) :
    lookupCode table v = .unrecognized v := by
  have hnone : table.lookup v = none := by
    rw [List.lookup_eq_none_iff]
    intro entry hmem
    exact bne_iff_ne.2 fun heq => h (heq ▸ List.mem_map_of_mem hmem)
  rw [lookupCode, hnone]

/-! ## The spec's numbering of the sub-reasons (R112) -/

theorem subReasonCodes_of_numbered {p : Params}
    (h : p.otherSubReasons = #v[0x01, 0x02, 0x04, 0x05, 0x06, 0x07, 0x08, 0x09, 0x0A]) :
    subReasonCodes p = (List.range' 1 10).map (BitVec.ofNat 8) := by
  rw [subReasonCodes, h]
  rfl

/-- In that numbering the code of a sub-reason is its place in the list, counted from 1. -/
theorem names_of_numbered {n : Nat} {r : SubReason} (hr : subReasonList[n]? = some r) {code : Byte}
    (hcode : code.toNat = n + 1) :
    Names ((List.range' 1 10).map (BitVec.ofNat 8)) subReasonList code (.known r) := by
  obtain ⟨hlt, -⟩ := List.getElem?_eq_some_iff.1 hr
  have hlt : n < 10 := hlt
  have hplace : ((List.range' 1 10).map (BitVec.ofNat 8))[n]? = some code := by
    have hofNat : BitVec.ofNat 8 (1 + n) = code := by rw [Nat.add_comm, ← hcode, BitVec.ofNat_toNat, BitVec.setWidth_eq]
    simp [hlt, hofNat]
  exact .inl ⟨r, List.mem_of_getElem? (List.getElem?_zip_eq_some.2 ⟨hplace, hr⟩), rfl⟩

theorem names_unrecognized_of_numbered {code : Byte} (h : code.toNat = 0 ∨ 10 < code.toNat) :
    Names ((List.range' 1 10).map (BitVec.ofNat 8)) subReasonList code (.unrecognized code) := by
  have hbound : ∀ c ∈ (List.range' 1 10).map (BitVec.ofNat 8), 0 < c.toNat ∧ c.toNat ≤ 10 := by decide
  refine .inr ⟨fun hmem => ?_, rfl⟩
  obtain ⟨hpos, hle⟩ := hbound code hmem
  omega

/-! ## What BE.UINT and TEXT read (R305, R306) -/

theorem slice_clampCount (buf : Bytes) (off cnt : Nat) :
    slice buf off (off + clampCount buf.length off cnt) = (buf.drop off).take cnt := by
  rw [slice, Nat.add_sub_cancel_left, clampCount, ← List.length_drop, ← List.take_eq_take_min]

theorem clampCount_eq_length (buf : Bytes) (off cnt : Nat) :
    clampCount buf.length off cnt = ((buf.drop off).take cnt).length := by
  rw [List.length_take, List.length_drop, clampCount]

theorem mismatchFlag_eq_decide (read asked : Nat) : mismatchFlag read asked = decide (asked ≠ read) := by
  rw [mismatchFlag, bne_comm, Bool.eq_iff_iff, bne_iff_ne, decide_eq_true_iff]

/-- Both helpers answer from the same bytes, and flag a mismatch where these are not as many as were asked for. -/
theorem clampedBytes_endsOnly {buf got : Bytes} {off cnt : Nat} {flag : Bool} (s : State)
    (hgot : (buf.drop off).take cnt = got) (hflag : decide (cnt ≠ got.length) = flag) :
    EndsOnly (.beUint buf off cnt) s (.ok (.uint (beNat got) flag)) ∧
    EndsOnly (.text buf off cnt) s (.ok (.text got flag)) := by
  subst hgot hflag
  rw [← mismatchFlag_eq_decide, ← clampCount_eq_length, ← slice_clampCount]
  exact ⟨rfl, rfl⟩

/-! ## The big-endian number as a sum (00_scope.md R13) -/

theorem foldl_be (acc : Nat) (s : Bytes) :
    s.foldl (fun acc b => acc * 256 + b.toNat) acc = acc * 256 ^ s.length + beNat s := by
  induction s generalizing acc with
  | nil => simp [beNat]
  | cons b s ih =>
    rw [beNat, List.foldl_cons, List.foldl_cons, ih, ih (0 * 256 + b.toNat), List.length_cons]
    ring

theorem beNat_cons (b : Byte) (s : Bytes) : beNat (b :: s) = b.toNat * 256 ^ s.length + beNat s := by
  rw [beNat, List.foldl_cons, foldl_be, Nat.zero_mul, Nat.zero_add]

theorem beNat_eq_sum (s : Bytes) :
    beNat s = ((List.range s.length).map (fun k => (s.getD k 0).toNat * 256 ^ (s.length - 1 - k))).sum := by
  induction s with
  | nil => rfl
  | cons b s ih =>
    have hexp (k : Nat) : s.length - 1 - k = s.length - (k + 1) := by omega
    rw [beNat_cons, ih, List.length_cons, List.range_succ_eq_map, List.map_cons, List.map_map, List.sum_cons]
    simp only [Function.comp_def, List.getD_cons_zero, List.getD_cons_succ, Nat.succ_eq_add_one, Nat.add_sub_cancel,
      Nat.sub_zero, hexp]

/-! ## The statements -/

/-- Settles O55: in well-formed parameters each code is in its table once, so the lookup finds its entry, and a code in no
place of the table is answered with the marker. -/
theorem catalogLookups : Obligations.CatalogLookups := by
  refine ⟨fun _ _ => rfl, fun _ _ => rfl, fun _ _ => rfl, fun s code hp => ?_⟩
  have order {v e} := catalogOrder_of_mem (s := s) (v := v) (e := e) hp
  have reply {v e} := catalogReply_of_mem (s := s) (v := v) (e := e) hp
  obtain ⟨-, -, hcodes, -, -⟩ := wellFormed_parts hp
  have reason {v x} (hx : Names (subReasonCodes s.params) subReasonList v x) :
      EndsOnly (.errReason v) s (.ok (.reason x)) := by
    have h := errReason_endsOnly s v
    rwa [lookupCode_of_names hcodes (by simp [subReasonCodes, subReasonList]) hx] at h
  refine ⟨order (by simp [orderCatalog, orderResumeCode]), order (by simp [orderCatalog]), order (by simp [orderCatalog]),
    fun e he => order (by simp [orderCatalog, he]), ?unknownOrder, reply (by simp [replyCatalog, replyOkCode]),
    reply (by simp [replyCatalog, replyGenericApplicationErrorCode]), reply (by simp [replyCatalog]),
    fun e he => reply (by simp [replyCatalog, he]), ?unknownReply,
    reasonOf_subReasonCode hp .badParameterValue, fun _ => reason, ?numbered⟩
  case unknownOrder =>
    intro hcode
    have h := catOrder_endsOnly s code
    rwa [lookupCode_of_not_mem (by simpa [orderCatalog, orderResumeCode] using hcode)] at h
  case unknownReply =>
    intro hcode
    have h := catReply_endsOnly s code
    rwa [lookupCode_of_not_mem
      (by simpa [replyCatalog, replyOkCode, replyGenericApplicationErrorCode] using hcode)] at h
  case numbered =>
    intro hnumbered
    rw [subReasonCodes_of_numbered hnumbered] at reason
    exact ⟨fun _ _ hr hcode => reason (names_of_numbered hr hcode),
      fun hcode => reason (names_unrecognized_of_numbered hcode)⟩

/-- Settles O56: a payload's bytes are looked up one by one; for the helpers, the range asked for is inside the buffer, runs
past its end, or starts beyond it. -/
theorem stoppedAndHelpers : Obligations.StoppedAndHelpers := by
  refine ⟨fun _ _ => rfl, fun _ _ => rfl, fun _ _ => rfl, fun s r c reason pre mid post off cnt => ?_⟩
  have hrecovery : s.params.stopRecovery.toList.length = recoveryList.length := by simp [recoveryList]
  have hcause : s.params.stopCause.toList.length = causeList.length := by simp [causeList]
  have hone := stoppedDec_singleton_endsOnly s r
  have htwo := stoppedDec_cons_cons_endsOnly s r c reason
  refine ⟨rfl, ⟨_, _, lookup_names hrecovery r, lookup_names hcause c, hone, htwo⟩, ?unique, ?present, ?beyond⟩
  case unique =>
    intro hp x y hx hy
    obtain ⟨-, -, -, hrecoveryCodes, hcauseCodes⟩ := wellFormed_parts hp
    rw [lookupCode_of_names hrecoveryCodes hrecovery hx] at hone htwo
    rw [lookupCode_of_names hcauseCodes hcause hy] at htwo
    exact ⟨hone, htwo⟩
  case present =>
    rw [← beNat_eq_sum]
    obtain ⟨huint, htext⟩ := clampedBytes_endsOnly (buf := pre ++ mid ++ post) (got := mid) (off := pre.length)
      (cnt := mid.length) (flag := false) s (by simp) (by simp)
    refine ⟨huint, htext, fun hshort => ?_⟩
    exact clampedBytes_endsOnly s (by simp [hshort.le]) (decide_eq_true hshort.ne')
  case beyond =>
    intro hoff
    have hgot : (pre.drop off).take cnt = [] := by rw [List.drop_eq_nil_of_le hoff.le, List.take_nil]
    exact clampedBytes_endsOnly s hgot rfl

end Sys2Proof.Machine

/-! The session and the register port (spec/47_session.md): what SESSION.OPEN makes of the Transport's answer, what the port
reads, which events move `SESSION`, and that a refusal changes nothing. The last two are read off `exec_next`, each as a
lemma over `NextOf`; that the other operations do not read `SESSION` at all is `exec_ignoresSession`. -/

namespace Sys2Proof.Machine

/-! ## SESSION.OPEN and SESSION.CLOSE (R312, R313) -/

/-- The line after `TrOpen` was given the descriptor `d` (R312; log 7). -/
def lineAfterOpen (l : Line) (d : Bytes) : Line :=
  { l with
    openAnswers := l.openAnswers.tail
    drawn := if l.openAnswers = [] then l.drawn + 1 else l.drawn
    calls := .openLine d :: l.calls }

/-- The answer of the next `TrOpen`: the next scheduled one, or the free value (log 7). -/
def openAnswer (l : Line) : IoAnswer := l.openAnswers.headD (Config.freeOpenAnswer l.drawn)

theorem trOpen_eq (d : Bytes) (s : State) :
    trOpen d s = (openAnswer s.line, { s with line := lineAfterOpen s.line d }) := by
  cases h : s.line.openAnswers with
  | nil => simp [trOpen, openAnswer, lineAfterOpen, h]
  | cons a more => simp [trOpen_scheduled d h, openAnswer, lineAfterOpen, h]

theorem exec_sessionOpen (d : Bytes) (s : State) :
    exec (.sessionOpen d) s = .next (
      if s.session = .opened then finish s (.refused .alreadyOpen)
      else if openAnswer s.line = .error then
        finish (failTransport { s with line := lineAfterOpen s.line d }) .transportError
      else finish (openSession { s with line := lineAfterOpen s.line d }) (.ok .unit)) := by
  show execSessionOpen d s = _
  unfold execSessionOpen
  split
  · rfl
  rw [trOpen_eq]
  cases openAnswer s.line with
  | error => rfl
  | ok => rfl

/-- Settles O12, by `exec_sessionOpen`. Only a failed open needs the premise: outside an open session nothing is
outstanding, so the failure finds `BUSY` already clear. -/
theorem sessionOpenEffect : Obligations.SessionOpenEffect := by
  refine ⟨fun _ _ => rfl, fun d s hbusy => (exec_sessionOpen d s).trans (congrArg Host.Outcome.next ?_)⟩
  refine ite_congr rfl (fun _ => rfl) fun hs => ite_congr rfl (fun _ => ?failed) fun _ => rfl
  case failed =>
    have hidle : s.busy = false := Bool.eq_false_iff.2 (mt hbusy hs)
    rw [failTransport, ← hidle]
    rfl

/-- Settles O13: an open session is closed; any other keeps its value, which is then `FAILED` or already `CLOSED`. -/
theorem sessionCloseEffect : Obligations.SessionCloseEffect := by
  refine ⟨fun _ _ => rfl, fun s => ?_⟩
  rcases close_cases s with ⟨hs, hclose⟩ | ⟨hs, hclose⟩
  · refine Eq.trans hclose ?_
    simp [succeed, done, finish, endExchange, trClose, hs]
  · have hkept : (if s.session = .failed then Session.failed else .closed) = s.session := by
      cases h : s.session with
      | closed | failed => rfl
      | opened => exact absurd h hs
    rw [hkept, if_neg hs]
    exact hclose

/-! ## The register port (R314) -/

section

variable {s : State} {n : Nat}

theorem regRead_endsOnly {v : Nat} (h : readRegister s n = some v) : EndsOnly (.regRead n) s (.ok (.nat v)) := by
  show execRegRead n s = _
  rw [execRegRead, h]
  rfl

theorem regRead_endsOnly_refused (h : readRegister s n = none) :
    EndsOnly (.regRead n) s (.refused .noSuchRegister) := by
  show execRegRead n s = _
  rw [execRegRead, h]
  rfl

theorem readRegister_of_gt (h : 6 < n) : readRegister s n = none := by
  unfold readRegister
  split
  case h_8 => rfl
  all_goals omega

end

theorem Session.code_eq (x : Session) : x.code = if x = .closed then 0 else if x = .opened then 1 else 2 := by
  cases x with
  | closed | opened | failed => rfl

/-- Settles O14: the seven registers are rows of `readRegister`, and `RXSTAT` reads as one of nine codes. -/
theorem registerPort : Obligations.RegisterPort := by
  refine ⟨fun _ _ => rfl, fun s => ⟨rfl, ?rxStat, rfl, rfl, rfl, ?session, ?busy, ?absent⟩⟩
  case rxStat =>
    intro st code hcode hst
    have hreads : st.code.toNat = code := by
      simp only [List.mem_cons, Prod.mk.injEq, List.not_mem_nil, or_false] at hcode
      rcases hcode with h | h | h | h | h | h | h | h | h
      all_goals obtain ⟨rfl, rfl⟩ := h; rfl
    exact regRead_endsOnly (n := 1) (by rw [← hreads, ← hst]; rfl)
  case session => exact regRead_endsOnly (n := 5) (congrArg some s.session.code_eq)
  case busy =>
    refine regRead_endsOnly (n := 6) (congrArg some ?_)
    cases s.busy with
    | false | true => rfl
  case absent => exact fun n hn => regRead_endsOnly_refused (readRegister_of_gt hn)

/-! ## What moves `SESSION` (R315) -/

/-- The events that may move `SESSION`, and to what. -/
theorem NextOf.session_moves {i : Instr} {s t : State} (hn : NextOf i s t) :
    t.session = s.session ∨
    (∃ d, i = .sessionOpen d ∧ s.session ≠ .opened ∧
      ((t.session = .opened ∧ t.outcome = some (.ok .unit)) ∨
       (t.session = .failed ∧ t.outcome = some .transportError))) ∨
    (i = .sessionClose ∧ s.session = .opened ∧ t.session = .closed) ∨
    ((i = .txSend ∨ i = .rxAssemble ∨ i = .rxReceive ∨ i = .xchg) ∧ s.session = .opened ∧ t.session = .failed ∧
      t.outcome = some .transportError) := by
  cases hn with
  | answer | refused | notOpen | seqInit | seqAdvance | encoded => exact .inl rfl
  | sent | assembled | badSync | validated => exact .inl rfl
  | opened d _ hi hs => exact .inr (.inl ⟨d, hi, hs, .inl ⟨rfl, rfl⟩⟩)
  | openFailed d _ hi hs => exact .inr (.inl ⟨d, hi, hs, .inr ⟨rfl, rfl⟩⟩)
  | closed hi hs => exact .inr (.inr (.inl ⟨hi, hs, rfl⟩))
  | sendFailed _ hi hs => exact .inr (.inr (.inr ⟨hi.imp_right (.inr ∘ .inr), hs, rfl, rfl⟩))
  | readFailed _ _ _ hi hs => exact .inr (.inr (.inr ⟨.inr (.inl hi), hs, rfl, rfl⟩))
  | received _ _ _ _ _ _ _ _ _ _ hi hs hof =>
    rcases hof.session with ⟨hsess, -⟩ | ⟨rfl, rfl⟩
    · exact .inl hsess
    · have hop : i = .rxReceive ∨ i = .xchg := hi.imp And.left And.left
      exact .inr (.inr (.inr ⟨.inr (.inr hop), hs, rfl, rfl⟩))

/-- The four operations that need an open session check for one before anything else. -/
theorem endsOnly_noSession {i : Instr} {s : State} (hi : i = .txSend ∨ i = .rxAssemble ∨ i = .rxReceive ∨ i = .xchg)
    (hs : s.session ≠ .opened) : EndsOnly i s (.refused .noSession) := by
  rcases hi with rfl | rfl | rfl | rfl
  all_goals exact if_pos hs

/-! ## What does not read `SESSION` (R315) -/

/-- Run from a state with another `SESSION`, `run` ends the same and leaves that `SESSION` there. -/
def IgnoresSession (run : State → StepResult) : Prop :=
  ∀ (s : State) (x : Session), ∃ t, run s = .next t ∧ run { s with session := x } = .next { t with session := x }

theorem EndsByBlockTypes.ignoresSession {run : State → StepResult} (h : EndsByBlockTypes run) : IgnoresSession run := by
  obtain ⟨f, -, hrun⟩ := h
  exact fun s x => ⟨_, hrun s, hrun { s with session := x }⟩

theorem IgnoresSession.ite {c : Prop} [Decidable c] {run run' : State → StepResult} (h : IgnoresSession run)
    (h' : IgnoresSession run') : IgnoresSession (fun s => if c then run s else run' s) := by
  by_cases hc : c
  · simpa only [if_pos hc] using h
  · simpa only [if_neg hc] using h'

theorem ignoresSession_refuse (why : RefusedWhy) : IgnoresSession (fun s => refuse s why) := fun _ _ => ⟨_, rfl, rfl⟩

theorem ignoresSession_encodeRequest (code : Byte) (params : Bytes) : IgnoresSession (encodeRequest code params) :=
  (ignoresSession_refuse .txTooLong).ite fun _ _ => ⟨_, rfl, rfl⟩

theorem ignoresSession_decodeEncoded (r : Params → Except RefusedWhy Bytes) :
    IgnoresSession (fun s => decodeEncoded (r s.params) s) := by
  intro s x
  show ∃ t, decodeEncoded (r s.params) s = _ ∧ decodeEncoded (r s.params) { s with session := x } = _
  cases r s.params with
  | error why => exact ⟨_, rfl, rfl⟩
  | ok b => exact (exec_endsByBlockTypes (i := .mbDec b) rfl).ignoresSession s x

/-- The register port aside, no operation reads `SESSION` unless it uses the Transport: the motion codec reads the block types
alone, a few operations choose between two ends by their operands or the parameters, and the others have one end each. -/
theorem exec_ignoresSession {i : Instr} (htransport : usesTransport i = false) (hport : ∀ n, i ≠ .regRead n) :
    IgnoresSession (exec i) := by
  cases hmotion : isMotionOp i
  case true => exact (exec_endsByBlockTypes hmotion).ignoresSession
  case false =>
    cases i with
    | sessionOpen | sessionClose | txSend | rxAssemble | rxReceive | xchg => cases htransport
    | regRead n => exact absurd rfl (hport n)
    | mbScan | mbDec | mbDecWrapper | mbDecDelay | mbDecBlm | mbDecToolhead | mbDecUnknown => cases hmotion
    | mbEncWrapper | mbEncDelay | mbEncBlm | mbEncToolhead | mbEncRaw | mbPack => cases hmotion
    | crcRange => exact (ignoresSession_refuse .crcRange).ite fun _ _ => ⟨_, rfl, rfl⟩
    | blockHeader => exact .ite (fun _ _ => ⟨_, rfl, rfl⟩) fun _ _ => ⟨_, rfl, rfl⟩
    | txEncode code params => exact ignoresSession_encodeRequest code params
    | txOrder0 code => exact ignoresSession_encodeRequest code []
    | txOrder1 code b => exact ignoresSession_encodeRequest code [b]
    | txOrder5 code b v => exact ignoresSession_encodeRequest code (b :: bytesBe 4 v.toNat)
    | wrap order params => exact ignoresSession_decodeEncoded (encodeWrapper · order params)
    | delay ticks => exact ignoresSession_decodeEncoded (encodeDelay · ticks.toNat)
    | toolhead index => exact ignoresSession_decodeEncoded fun p => .ok (encodeToolhead p index)
    | blmNN body => exact ignoresSession_decodeEncoded (encodeBlm · ⟨false, false, body⟩)
    | blmNW body => exact ignoresSession_decodeEncoded (encodeBlm · ⟨false, true, body⟩)
    | blmWN body => exact ignoresSession_decodeEncoded (encodeBlm · ⟨true, false, body⟩)
    | blmWW body => exact ignoresSession_decodeEncoded (encodeBlm · ⟨true, true, body⟩)
    | unknown typ body => exact ignoresSession_decodeEncoded fun _ => encodeRaw typ body
    | _ => exact fun _ _ => ⟨_, rfl, rfl⟩

/-- Settles O15, by `NextOf.session_moves`, `endsOnly_noSession` and `exec_ignoresSession`. -/
theorem sessionLifeCycle : Obligations.SessionLifeCycle :=
  ⟨rfl, fun _ _ _ hexec => (exec_next hexec).session_moves, fun _ _ => endsOnly_noSession,
    fun _ s x htransport hport => exec_ignoresSession htransport hport s x⟩

/-! ## Commands and refusals (R316, R317) -/

/-- Settles O1: a command that decodes leaves the port, and its instruction runs on the rest, by `step_of_decode`. -/
theorem stepRunsDecodedCommand : Obligations.StepRunsDecodedCommand :=
  fun _ _ _ _ => step_of_decode

theorem ReceiveEnd.not_refused {s : State} {o : OpOutcome} (h : ReceiveEnd s o) (why : RefusedWhy) : o ≠ .refused why := by
  rcases h with ⟨_, _, rfl, -⟩ | ⟨_, rfl, -⟩ | ⟨rfl, -⟩
  all_goals exact nofun

/-- Of everything an instruction can do, only answering and refusing end `Refused`, and both write the outcome alone. -/
theorem NextOf.refused_eq {i : Instr} {s t : State} {why : RefusedWhy} (hn : NextOf i s t)
    (ho : t.outcome = some (.refused why)) : t = { s with outcome := some (.refused why) } := by
  cases hn with
  | answer | refused => rw [← ho]; rfl
  | opened | openFailed | closed | notOpen | seqInit | seqAdvance | encoded => cases ho
  | sent | sendFailed | assembled | badSync | readFailed => cases ho
  | validated _ _ _ hends =>
    rcases hends with ⟨_, _, rfl, -⟩ | ⟨rfl, -⟩ | ⟨_, -, rfl, -⟩
    all_goals cases ho
  | received _ _ _ _ _ _ _ _ _ _ _ _ hof => exact absurd (Option.some.inj ho) (hof.ends.not_refused why)

/-- Settles O16: as an instruction by `NextOf.refused_eq`; as a step, the command either decodes to an instruction or is
itself refused. -/
theorem refusedChangesNothing : Obligations.RefusedChangesNothing := by
  refine ⟨fun _ _ _ _ hexec ho => (exec_next hexec).refused_eq ho, fun s t c rest why hprogram hstep ho => ?_⟩
  cases hdecode : decode s.params c with
  | ok i =>
    rw [step_of_decode hprogram hdecode] at hstep
    exact (exec_next hstep).refused_eq ho
  | error =>
    rw [step, hprogram] at hstep
    simp only [hdecode] at hstep
    cases hstep
    cases ho
    rfl

end Sys2Proof.Machine

/-! How operations end (spec/60_exceptions.md): where a receive ends and where debug frames keep it from ending, which
operation can end how, and what a transport failure and a rejection leave behind. What a receive can do is
`receive_next_or_stuck`; everything a transport failure and a rejection can be is `NextOf.failed_cases` and
`NextOf.rejected_cases`; what a receive and an exchange have collected when they end is `EndsWithCandidate`. -/

namespace Sys2Proof.Machine

/-! ## Debug frames without an end (R331 to R333) -/

/-- With nothing left on the schedule, a receive goes on with the answers that repeat (log 6). -/
theorem receiveLoop_cycle (rounds : Nat) {s : State} (hline : s.line.lineIn = []) (hcycle : s.line.lineInCycle ≠ []) :
    receiveLoop rounds s = receiveLoop rounds { s with line := { s.line with lineIn := s.line.lineInCycle } } := by
  cases rounds with
  | zero => rfl
  | succ n => simp only [receiveLoop, assemble_cycle s hline hcycle]

/-- Each round skips the first of the scheduled debug frames; when they are used up, the repeating ones are the schedule. -/
theorem receiveLoop_flood {again : List Bytes} (hne : again ≠ []) (rounds : Nat) {s : State} {now : List Bytes}
    (hlimit : s.params.debugSkipLimit = none) (hnow : ∀ d ∈ now, IsDebugFrame s.params.crcTab d)
    (hagain : ∀ d ∈ again, IsDebugFrame s.params.crcTab d) (hline : s.line.lineIn = answers now.flatten)
    (hcycle : s.line.lineInCycle = answers again.flatten) : receiveLoop rounds s = .fault .stuck := by
  induction rounds generalizing s now with
  | zero => rfl
  | succ rounds ih =>
    have skip (u : State) (d : Bytes) (more : List Bytes) (hp : u.params = s.params)
        (hframes : ∀ e ∈ d :: more, IsDebugFrame s.params.crcTab e) (hl : u.line.lineIn = answers (d :: more).flatten)
        (hc : u.line.lineInCycle = answers again.flatten) : receiveLoop (rounds + 1) u = .fault .stuck := by
      rw [← hp] at hlimit hframes hagain
      obtain ⟨hd, hmore⟩ := List.forall_mem_cons.1 hframes
      obtain ⟨m, k, calls, hskip⟩ := receiveLoop_skips [d] rounds u (answers more.flatten) (by simpa using hd)
        (by simp [hlimit]) (by simpa [answers] using hl)
      rw [Nat.add_comm]
      exact hskip.trans (ih hlimit hmore hagain rfl hc)
    cases now with
    | cons d more => exact skip s d more rfl hnow hline hcycle
    | nil =>
      obtain ⟨d, more, rfl⟩ := List.exists_cons_of_ne_nil hne
      have hpos : s.line.lineInCycle ≠ [] := by
        have hle := frames_le_answers (d :: more) hagain
        rw [hcycle]
        exact List.ne_nil_of_length_pos (Nat.lt_of_lt_of_le (Nat.succ_pos _) hle)
      rw [receiveLoop_cycle _ hline hpos]
      exact skip _ d more rfl hagain hcycle hcycle

/-- Settles O43, by `receiveLoop_flood`: however many rounds there are, none of them is the last. -/
theorem debugFloodIsStuck : Obligations.DebugFloodIsStuck := by
  intro s now again hopen hlimit hnow hagain hne hline hcycle
  rw [exec_rxReceive hopen]
  exact receiveLoop_flood hne _ hlimit hnow hagain hline hcycle

/-- One debug frame more than the bound allows ends the loop (R332). -/
theorem receiveLoop_debugLimit (n : Nat) {s : State} {d : Bytes} {more : List ReadAnswer}
    (hlimit : s.params.debugSkipLimit = some s.dbgCnt) (hd : IsDebugFrame s.params.crcTab d)
    (hline : s.line.lineIn = answers d ++ more) :
    ∃ (m : Memory) (calls : List TrCall), m.Holds d ∧ receiveLoop (n + 1) s = .next
      { s with
        rxBuf := m
        rxPos := d.length
        rxStat := .rejected .debugLimit
        dbgCnt := s.dbgCnt + 1
        busy := false
        line := { s.line with lineIn := more, calls := calls ++ s.line.calls }
        outcome := some (.noFrame .debugLimit) } := by
  have hv := validateFrame_debug_iff (sq := s.seq).2 hd
  obtain ⟨reserved, sq, code, params, hfit, rfl⟩ := hd
  obtain ⟨calls, ha⟩ := assemble_response s true reserved sq code params more hfit hline
  refine ⟨_, calls, writeBytes_holds _, ?_⟩
  simp only [receiveLoop, ha, candidate, bytes_writeBytes, validate, hv]
  simp [debugLimitPassed, hlimit, endExchange, rejectWith, finish, responseFrame, buildFrame_fields]

/-- Settles O41: `receiveLoop_skips` gets past the frames within the bound, and `receiveLoop_debugLimit` is the last round. -/
theorem receiveStopsAtDebugLimit : Obligations.ReceiveStopsAtDebugLimit := by
  intro s frames last more hopen hlimit hframes hlast hline
  rw [answers, List.map_append, List.append_assoc] at hline
  obtain ⟨n, hn⟩ := exists_receiveRounds_eq hframes hline
  obtain ⟨m₀, k₀, skipped, hskip⟩ := receiveLoop_skips frames (n + 1) (beside s 0 s.outcome) (answers last ++ more) hframes
    (fun k hk => by simp [beside, Option.some.inj (hlimit.symm.trans hk)]) hline
  obtain ⟨m, calls, hm, hend⟩ := receiveLoop_debugLimit n (d := last) (more := more)
    (s := { beside s (0 + frames.length) s.outcome with
      rxBuf := m₀, rxPos := k₀, line := { s.line with lineIn := answers last ++ more, calls := skipped ++ s.line.calls } })
    (by simpa [beside] using hlimit) hlast rfl
  refine ⟨m, calls ++ skipped, hm, ?_⟩
  rw [exec_rxReceive hopen, hn]
  refine hskip.trans (hend.trans ?_)
  simp [beside]

/-- A line that falls silent brings no more debug frames than it has answers scheduled. -/
theorem debugRun_length_le_of_silent {tab : Vector Byte 256} {l : Line} {frames : List Bytes} (hcycle : l.lineInCycle = [])
    (hrun : DebugRun tab l frames) : frames.length ≤ l.lineIn.length := by
  refine (debugRun_length hrun.1).trans (Nat.le_of_not_lt fun hlt => ?_)
  have hbyte := hrun.2 l.lineIn.length (.byte frames.flatten[l.lineIn.length])
    (by rw [answers, List.getElem?_map, List.getElem?_eq_getElem hlt]; rfl)
  have hsilent : l.answer l.lineIn.length = .timeout := by simp [Line.answer, hcycle]
  rw [hsilent] at hbyte
  cases hbyte

/-- A receive ends, or it is stuck, which takes an unbounded receive on a line that repeats itself and brings nothing but debug
frames (R332, R333): the rounds exceed any bound, and any run of debug frames that comes to an end. -/
theorem receive_next_or_stuck (s : State) :
    (∃ t, receive s = .next t) ∨
    (receive s = .fault .stuck ∧ s.session = .opened ∧ s.params.debugSkipLimit = none ∧
      ¬ DebugRunEnds s.params.crcTab s.line ∧ s.line.lineInCycle ≠ []) := by
  by_cases hopen : s.session = .opened
  case neg => exact .inl ⟨_, if_pos hopen⟩
  case pos =>
    have hrec : receive s = receiveLoop (receiveRounds s) (beside s 0 s.outcome) := exec_rxReceive hopen
    rcases receiveLoop_stream (receiveRounds s) (beside s 0 s.outcome) with
      ⟨hstuck, hbound, frames, hrun, hlen⟩ | ⟨t, o, hend, -⟩
    · refine .inr ⟨hrec.trans hstuck, hopen, ?limit, fun hends => ?ends, fun hcycle => ?cycle⟩
      case limit =>
        refine Option.eq_none_iff_forall_not_mem.2 fun k hk => ?_
        have hle : 0 + receiveRounds s ≤ k := hbound k hk (Nat.succ_ne_zero _)
        have hk' : s.params.debugSkipLimit.getD 0 = k := by rw [Option.mem_def.1 hk]; rfl
        simp only [receiveRounds, hk'] at hle
        omega
      case ends =>
        have hlt : frames.length < s.line.lineIn.length + s.line.lineInCycle.length + 1 := debugRun_bounded hends hrun
        simp only [receiveRounds] at hlen
        omega
      case cycle =>
        have hle : frames.length ≤ s.line.lineIn.length := debugRun_length_le_of_silent hcycle hrun
        simp only [receiveRounds] at hlen
        omega
    · exact .inl ⟨_, hrec.trans hend⟩

/-- Settles O42: each premise rules out the second case of `receive_next_or_stuck`. -/
theorem receiveEnds : Obligations.ReceiveEnds := by
  intro s hends
  rcases receive_next_or_stuck s with hnext | ⟨-, -, hlimit, hrun, hcycle⟩
  · exact hnext
  · rcases hends with h | h | h
    · exact absurd hlimit h
    · exact absurd h hrun
    · exact absurd h hcycle

/-! ## What can stop (R333) -/

section

variable {s : State} (h : s.Inv)
include h

/-- `TXBUF` is empty or holds one request frame, so what it holds lies inside the space. -/
theorem State.Inv.txLen_le : s.txLen ≤ txBufCap := by
  rcases h.txFrame with hzero | ⟨sq, code, params, hfit, hbytes⟩
  · exact hzero ▸ Nat.zero_le _
  · have hlen : s.txLen = params.length + 5 := by
      rw [(covers_holds h.txCovers).2, hbytes, requestFrame_length]
    simp only [maxParams] at hfit
    simp only [txBufCap]
    omega

theorem State.Inv.txSend_next : ∃ t, exec .txSend s = .next t :=
  ⟨_, exec_txSend (readTxBytes_covers h.txCovers h.txLen_le)⟩

/-- With the invariant, an instruction that stops is one of the two that receive, and it is `stuck`. -/
theorem State.Inv.exec_next_or_stuck (i : Instr) :
    (∃ t, exec i s = .next t) ∨
    (exec i s = .fault .stuck ∧ (i = .rxReceive ∨ i = .xchg) ∧ s.session = .opened ∧ s.params.debugSkipLimit = none ∧
      s.line.lineInCycle ≠ []) := by
  cases hi : usesTransport i
  case false =>
    by_cases hport : ∃ n, i = .regRead n
    · obtain ⟨n, rfl⟩ := hport
      obtain ⟨o, ho, -⟩ := exec_answersOnly (.regRead n) s rfl
      exact .inl ⟨_, ho⟩
    · obtain ⟨t, ht, -⟩ := exec_ignoresSession hi (not_exists.1 hport) s s.session
      exact .inl ⟨t, ht⟩
  case true =>
    cases i with
    | sessionOpen d => exact .inl ⟨_, exec_sessionOpen d s⟩
    | sessionClose => exact .inl ⟨_, rfl⟩
    | txSend => exact .inl h.txSend_next
    | rxAssemble =>
      rcases assembleOp_cases s with ⟨-, he⟩ | ⟨-, m, k, l, -, -, -, -, he | he | he⟩
      all_goals exact .inl ⟨_, he⟩
    | rxReceive =>
      rcases receive_next_or_stuck s with hnext | ⟨hstuck, hopen, hlimit, -, hcycle⟩
      · exact .inl hnext
      · exact .inr ⟨hstuck, .inl rfl, hopen, hlimit, hcycle⟩
    | xchg =>
      rcases xchg_cases s with ⟨r, hxchg, hsend, -⟩ | ⟨hopen, l, -, hcyc, -, hxchg⟩
      · obtain ⟨t, ht⟩ := h.txSend_next
        exact .inl ⟨t, hxchg.trans (hsend.symm.trans ht)⟩
      · rcases receive_next_or_stuck { s with line := l, busy := true } with ⟨t, ht⟩ | ⟨hstuck, -, hlimit, -, hcycle⟩
        · exact .inl ⟨t, hxchg.trans ht⟩
        · exact .inr ⟨hxchg.trans hstuck, .inr rfl, hopen, hlimit, hcyc ▸ hcycle⟩
    | _ => cases hi

end

/-- Settles O10: an idle engine and a command that decodes to nothing step on; the rest is `State.Inv.exec_next_or_stuck` on
the state from which the command has been taken. -/
theorem onlyDebugFloodStops : Obligations.OnlyDebugFloodStops := by
  intro s h
  cases hprogram : s.program with
  | nil => exact .inl ⟨s, by rw [step, hprogram]⟩
  | cons c rest =>
    cases hdecode : decode s.params c with
    | error e => exact .inl ⟨_, by simp only [step, hprogram, hdecode]; rfl⟩
    | ok i =>
      rw [step_of_decode hprogram hdecode]
      refine ((h.takeCommand rest).exec_next_or_stuck i).imp_right ?_
      rintro ⟨hstuck, hi, hopen, hlimit, hcycle⟩
      refine ⟨hstuck, hopen, hlimit, hcycle, c, rest, rfl, ?_⟩
      rcases hi with rfl | rfl
      · exact .inl hdecode
      · exact .inr hdecode

/-! ## Which operation can end how (R322, R329) -/

/-- The rows of the table that are data formats: no selector stands for them (log 4). -/
def isDataFormat : Instr → Bool
  | .req _ _ _ | .rsp _ _ _ _ | .dbg _ _ _ _ | .ctrlReq _ | .ctrlRsp _ _ _ | .blockHeader _ _ => true
  | .wrap _ _ | .delay _ | .toolhead _ | .blmNN _ | .blmNW _ | .blmWN _ | .blmWW _ | .unknown _ _ => true
  | .orderResume | .orderQueueCommandBlocks | .orderWriteFirmwareConfiguration => true
  | .replyOk | .replyGenericApplicationError | .replyStopped => true
  | .subUnknownOrder | .subBadParameterFormat | .subBadParameterValue | .subInvalidDeviceType => true
  | .subInvalidDeviceNumber | .subIncorrectMode | .subBusy | .subFailed | .subFirmwareError => true
  | .subCannotActivateDevice | .stoppedPayload _ _ _ => true
  | _ => false

theorem decodeOp_not_dataFormat {opsel : Byte} {a : Operands} {i : Instr} (h : decodeOp opsel a = .ok i) :
    isDataFormat i = false := by
  unfold decodeOp at h
  split at h
  all_goals cases h
  all_goals rfl

/-- Where this result is a refusal, it is for one of these reasons. -/
def RefusesOnly (why : RefusedWhy → Prop) (r : StepResult) : Prop :=
  ∀ t w, r = .next t → t.outcome = some (.refused w) → why w

section

variable {why : RefusedWhy → Prop} {s : State}

theorem refusesOnly_done {o : OpOutcome} (h : ∀ w, o = .refused w → why w) : RefusesOnly why (done s o) := by
  intro t w ht ho
  cases ht
  exact h w (Option.some.inj ho)

theorem refusesOnly_fault (e : Fault) : RefusesOnly why (.fault e) := fun _ _ h => nomatch h

theorem refusesOnly_succeed (v : Value) : RefusesOnly why (succeed s v) := refusesOnly_done nofun

theorem refusesOnly_refuse {w : RefusedWhy} (h : why w) : RefusesOnly why (refuse s w) :=
  refusesOnly_done fun _ hw => OpOutcome.refused.inj hw ▸ h

theorem RefusesOnly.ite {c : Prop} [Decidable c] {r r' : StepResult} (h : RefusesOnly why r) (h' : RefusesOnly why r') :
    RefusesOnly why (if c then r else r') := by
  split
  · exact h
  · exact h'

theorem refusesOnly_decodeOne (dec : Bytes → Block) (b : Bytes) (h : why .blockOperand) :
    RefusesOnly why (decodeOne dec b s) :=
  .ite (refusesOnly_succeed _) (refusesOnly_refuse h)

/-- An encoder that chooses by a test is refused for what either choice is. -/
theorem RefusesOnly.finishBytes_ite {c : Prop} [Decidable c] {r r' : Except RefusedWhy Bytes}
    (h : RefusesOnly why (finishBytes s r)) (h' : RefusesOnly why (finishBytes s r')) :
    RefusesOnly why (finishBytes s (if c then r else r')) := by
  split
  · exact h
  · exact h'

theorem refusesOnly_encodeRequest (code : Byte) (params : Bytes) (h : 253 < params.length → why .txTooLong) :
    RefusesOnly why (encodeRequest code params s) := by
  by_cases hlen : 253 < params.length
  · rw [encodeRequest_of_lt hlen]
    exact refusesOnly_refuse (h hlen)
  · rw [encodeRequest_of_le (Nat.le_of_not_lt hlen)]
    exact refusesOnly_succeed _

theorem refusesOnly_assemble (h : why .noSession) : RefusesOnly why (execRxAssemble s) := by
  rcases assembleOp_cases s with ⟨-, he⟩ | ⟨-, m, k, l, -, -, -, -, he | he | he⟩
  all_goals rw [he]
  · exact refusesOnly_refuse h
  · exact refusesOnly_succeed _
  · exact refusesOnly_done nofun
  · exact refusesOnly_done nofun

theorem refusesOnly_receive (h : why .noSession) : RefusesOnly why (receive s) := by
  rcases receive_cases s with ⟨-, he⟩ | ⟨-, he | ⟨m, k, l, st, d, sess, bz, o, hof, he⟩⟩
  all_goals rw [he]
  · exact refusesOnly_refuse h
  · exact refusesOnly_fault _
  · exact refusesOnly_done fun w hw => absurd hw (hof.ends.not_refused w)

theorem refusesOnly_sendRequest {next : State → StepResult} (hs : why .noSession) (hb : why .busy)
    (he : why .nothingEncoded) (hnext : ∀ u, RefusesOnly why (next u)) : RefusesOnly why (sendRequest s next) := by
  rcases sendRequest_cases s next with ⟨w, hr, hw⟩ | ⟨e, hr, -⟩ | ⟨f, l, -, -, -, -, -, -, -, -, hr | hr⟩
  all_goals rw [hr]
  · rcases hw with rfl | rfl | rfl
    · exact refusesOnly_refuse hs
    · exact refusesOnly_refuse hb
    · exact refusesOnly_refuse he
  · exact refusesOnly_fault _
  · exact refusesOnly_done nofun
  · exact hnext _

end

/-- An operation is refused for the reasons its row lists and no other (R322, column `Refused`; R329). -/
theorem exec_refusesOnly {i : Instr} (hi : isDataFormat i = false) (s : State) : RefusesOnly (refusedBy i) (exec i s) := by
  cases i with
  | sessionOpen d =>
    rcases open_cases d s with ⟨-, he⟩ | ⟨-, l, -, -, he | he⟩
    all_goals show RefusesOnly _ (execSessionOpen d s); rw [he]
    · exact refusesOnly_refuse ⟨d, rfl⟩
    · exact refusesOnly_done nofun
    · exact refusesOnly_succeed _
  | regRead n =>
    show RefusesOnly _ (execRegRead n s)
    unfold execRegRead
    split
    · exact refusesOnly_succeed _
    · exact refusesOnly_refuse ⟨n, rfl⟩
  | crcRange buf offset length => exact .ite (refusesOnly_refuse ⟨buf, offset, length, rfl⟩) (refusesOnly_succeed _)
  | txEncode code params => exact refusesOnly_encodeRequest code params fun _ => ⟨code, params, rfl⟩
  | txOrder0 code => exact refusesOnly_encodeRequest code [] fun hlong => absurd hlong (by simp)
  | txOrder1 code b => exact refusesOnly_encodeRequest code [b] fun hlong => absurd hlong (by simp)
  | txOrder5 code b v =>
    rw [exec_txOrder5]
    exact refusesOnly_encodeRequest code _ fun hlong => absurd hlong (by simp)
  | txSend =>
    exact refusesOnly_sendRequest (next := fun u => succeed u .unit) (.inl rfl) (.inl rfl) (.inl rfl) fun _ =>
      refusesOnly_succeed _
  | rxAssemble => exact refusesOnly_assemble (.inr (.inl rfl))
  | rxValidate f =>
    obtain ⟨st, o, he, ho⟩ := validateOp_cases f s
    show RefusesOnly _ (validateOp f s)
    rw [he]
    refine refusesOnly_done fun w hw => ?_
    rcases ho with ⟨_, _, rfl, -⟩ | ⟨rfl, -⟩ | ⟨_, -, rfl, -⟩
    all_goals cases hw
  | rxReceive => exact refusesOnly_receive (.inr (.inr (.inl rfl)))
  | xchg =>
    exact refusesOnly_sendRequest (.inr (.inr (.inr rfl))) (.inr rfl) (.inr rfl) fun _ =>
      refusesOnly_receive (.inr (.inr (.inr rfl)))
  | mbDec b => exact refusesOnly_decodeOne _ b (.inl ⟨b, .inl rfl⟩)
  | mbDecWrapper b => exact refusesOnly_decodeOne _ b (.inl ⟨b, .inr (.inl rfl)⟩)
  | mbDecDelay b => exact refusesOnly_decodeOne _ b (.inl ⟨b, .inr (.inr (.inl rfl))⟩)
  | mbDecBlm b => exact refusesOnly_decodeOne _ b (.inl ⟨b, .inr (.inr (.inr (.inl rfl)))⟩)
  | mbDecToolhead b => exact refusesOnly_decodeOne _ b (.inl ⟨b, .inr (.inr (.inr (.inr (.inl rfl))))⟩)
  | mbDecUnknown b => exact refusesOnly_decodeOne _ b (.inl ⟨b, .inr (.inr (.inr (.inr (.inr rfl))))⟩)
  | mbEncWrapper order params =>
    exact .finishBytes_ite (refusesOnly_refuse ⟨order, params, .inl rfl⟩) (refusesOnly_succeed _)
  | mbEncDelay ticks => exact .finishBytes_ite (refusesOnly_refuse ⟨ticks, rfl⟩) (refusesOnly_succeed _)
  | mbEncBlm r => exact .finishBytes_ite (refusesOnly_succeed _) (refusesOnly_refuse ⟨r, rfl⟩)
  | mbEncRaw typ body =>
    exact .finishBytes_ite (refusesOnly_refuse ⟨typ, body, .inr rfl⟩) (refusesOnly_succeed _)
  | mbPack blocks =>
    exact .finishBytes_ite (refusesOnly_refuse (.inr ⟨blocks, rfl⟩))
      (.finishBytes_ite (refusesOnly_refuse ⟨blocks, rfl⟩) (refusesOnly_succeed _))
  | sessionClose | crcTab | crcStep | seqInit | seqCurrent | seqAdvance => exact refusesOnly_succeed _
  | mbScan | mbEncToolhead | catOrder | catReply | errReason | stoppedDec | beUint | text => exact refusesOnly_succeed _
  | _ => cases hi

theorem ReceiveOf.failed {s : State} {m : Memory} {k : Nat} {l : Line} {st : RxStat} {d : Nat} {sess : Session} {bz : Bool}
    (h : ReceiveOf s m k l st d sess bz .transportError) : st = s.rxStat ∧ sess = .failed ∧ bz = false :=
  ⟨h.stat rfl, (h.session.resolve_left fun hs => hs.2 rfl).1, h.ends.not_busy⟩

theorem ReceiveOf.rejected {s : State} {m : Memory} {k : Nat} {l : Line} {st : RxStat} {d : Nat} {sess : Session} {bz : Bool}
    {r : RejectReason} (h : ReceiveOf s m k l st d sess bz (.noFrame r)) :
    st = .rejected r ∧ sess = s.session ∧ bz = false := by
  refine ⟨?_, (h.session.resolve_right fun hs => nomatch hs.2).1, h.ends.not_busy⟩
  rcases h.ends with ⟨_, _, ho, -⟩ | ⟨_, ho, hst, -⟩ | ⟨ho, -⟩
  all_goals cases ho
  exact hst

/-- Everything a transport failure can be: of an open or a send, which has read nothing, or of a read (R327). -/
theorem NextOf.failed_cases {i : Instr} {s t : State} (hn : NextOf i s t) (ho : t.outcome = some .transportError) :
    (((∃ d, i = .sessionOpen d) ∨ i = .txSend ∨ i = .xchg) ∧ ∃ l : Line,
      (l.lineIn = s.line.lineIn ∧ l.lineInCycle = s.line.lineInCycle) ∧
      t = finish (failTransport { s with line := l }) .transportError) ∨
    ∃ m k l d, ((i = .rxAssemble ∧ d = s.dbgCnt) ∨ i = .rxReceive ∨ i = .xchg) ∧
      t = finish (receivedState s m k l s.rxStat d .failed false) .transportError := by
  cases hn with
  | answer _ _ _ ht => exact absurd (Option.some.inj ho) ht
  | refused | opened | closed | notOpen | seqInit | seqAdvance | encoded | sent | assembled | badSync => cases ho
  | openFailed d l hi _ _ hin => exact .inl ⟨.inl ⟨d, hi⟩, l, hin, rfl⟩
  | sendFailed l hi _ _ _ hin => exact .inl ⟨.inr hi, l, hin, rfl⟩
  | readFailed m k l hi => exact .inr ⟨m, k, l, s.dbgCnt, .inl ⟨hi, rfl⟩, rfl⟩
  | validated _ _ _ hends =>
    rcases hends with ⟨_, _, rfl, -⟩ | ⟨rfl, -⟩ | ⟨_, -, rfl, -⟩
    all_goals cases ho
  | received m k l _ _ d _ _ _ _ hi _ hof =>
    obtain rfl := Option.some.inj ho
    obtain ⟨rfl, rfl, rfl⟩ := hof.failed
    exact .inr ⟨m, k, l, d, .inr (hi.imp And.left And.left), rfl⟩

/-- Everything a rejection can be: a validation, RX.ASSEMBLE at a bad first byte, or a receive (R324). -/
theorem NextOf.rejected_cases {i : Instr} {s t : State} {r : RejectReason} (hn : NextOf i s t)
    (ho : t.outcome = some (.noFrame r)) :
    (((∃ f, i = .rxValidate f) ∨ isDataFormat i = true) ∧ r ≠ .debugLimit ∧
      t = finish { s with rxStat := .rejected r } (.noFrame r)) ∨
    (i = .rxAssemble ∧ r = .badSync ∧ ∃ m k l,
      t = finish (receivedState s m k l (.rejected r) s.dbgCnt s.session s.busy) (.noFrame r)) ∨
    ((i = .rxReceive ∨ i = .xchg) ∧ ∃ m k l d,
      t = finish (receivedState s m k l (.rejected r) d s.session false) (.noFrame r)) := by
  cases hn with
  | answer _ _ hr => exact absurd (Option.some.inj ho) (hr r)
  | refused | opened | openFailed | closed | notOpen | seqInit | seqAdvance | encoded => cases ho
  | sent | sendFailed | assembled | readFailed => cases ho
  | badSync m k l hi =>
    cases ho
    exact .inr (.inl ⟨hi, rfl, m, k, l, rfl⟩)
  | validated _ _ hi hends =>
    have hop : (∃ f, i = .rxValidate f) ∨ isDataFormat i = true := by
      refine hi.imp_right fun hword => ?_
      rcases hword with ⟨_, _, _, rfl⟩ | ⟨_, _, _, _, rfl⟩ | ⟨_, _, _, _, rfl⟩
      all_goals rfl
    rcases hends with ⟨_, _, rfl, -⟩ | ⟨rfl, -⟩ | ⟨_, hne, rfl, rfl⟩
    all_goals cases ho
    exact .inl ⟨hop, hne, rfl⟩
  | received m k l _ _ d _ _ _ _ hi _ hof =>
    obtain rfl := Option.some.inj ho
    obtain ⟨rfl, rfl, rfl⟩ := hof.rejected
    exact .inr (.inr ⟨hi.imp And.left And.left, m, k, l, d, rfl⟩)

/-- Only the operations that wait for an answer of the Transport end `TransportError` (R322). -/
theorem NextOf.mayEnd_transportError {i : Instr} {s t : State} (hn : NextOf i s t)
    (ho : t.outcome = some .transportError) : mayEnd i .transportError := by
  rcases hn.failed_cases ho with ⟨hd | hi, -⟩ | ⟨_, _, _, _, hi, -⟩
  · exact .inl hd
  · exact .inr (hi.imp_right fun h => .inr (.inr h))
  · exact .inr (.inr (hi.imp_left And.left))

/-- Only the operations that take a frame from the line, and the validator, end `NoFrame` (R322). -/
theorem NextOf.mayEnd_noFrame {i : Instr} {s t : State} {r : RejectReason} (hn : NextOf i s t) (hi : isDataFormat i = false)
    (ho : t.outcome = some (.noFrame r)) : mayEnd i (.noFrame r) := by
  rcases hn.rejected_cases ho with ⟨hf | hword, hne, -⟩ | ⟨he, hr, -⟩ | ⟨he, -⟩
  · exact .inr (.inr (.inr ⟨hf, hne⟩))
  · exact absurd hword (Bool.eq_false_iff.1 hi)
  · exact .inr (.inr (.inl ⟨he, hr⟩))
  · exact he.imp_right .inl

/-- Settles O17: one lemma per column of the table, and a selector that does not decode is refused by the step itself. -/
theorem outcomeTable : Obligations.OutcomeTable := by
  constructor
  · intro opsel a i s t o hdecode hexec ho
    have hi := decodeOp_not_dataFormat hdecode
    cases o with
    | ok v => trivial
    | noFrame r => exact (exec_next hexec).mayEnd_noFrame hi ho
    | transportError => exact (exec_next hexec).mayEnd_transportError ho
    | refused why => exact exec_refusesOnly hi s t why hexec ho
  · intro opsel a s rest hprogram hdecode
    rw [step, hprogram]
    simp only [decode, hdecode]
    rfl

/-! ## What has been collected when a read ends (R324, R327) -/

/-- What a receive or an exchange that ends leaves collected: some debug frames and then the candidate it ended on, which is
counted in `DBGCNT` where it is the debug frame that passes the bound (R197). -/
def EndsWithCandidate (s t : State) : Prop :=
  ∃ frames c cut, Collected s t frames c cut ∧
    t.dbgCnt = frames.length + (if t.outcome = some (.noFrame .debugLimit) then 1 else 0) ∧
    (∀ r, t.outcome = some (.noFrame r) → cut = .timeout ∧ RejectedAs s.params.crcTab s.seq c r) ∧
    (t.outcome = some .transportError → cut = .error ∧ IsCutShort c)

theorem EndsWithCandidate.failed {s t : State} (h : EndsWithCandidate s t) (ho : t.outcome = some .transportError) :
    ∃ frames c, Collected s t frames c .error ∧ IsCutShort c ∧ t.dbgCnt = frames.length := by
  obtain ⟨frames, c, cut, hcollected, hcount, -, hfailed⟩ := h
  obtain ⟨rfl, hcut⟩ := hfailed ho
  exact ⟨frames, c, hcollected, hcut, by simpa [ho] using hcount⟩

theorem EndsWithCandidate.rejected {s t : State} {r : RejectReason} (h : EndsWithCandidate s t)
    (ho : t.outcome = some (.noFrame r)) :
    ∃ frames c, Collected s t frames c .timeout ∧ t.dbgCnt = frames.length + (if r = .debugLimit then 1 else 0) ∧
      RejectedAs s.params.crcTab s.seq c r := by
  obtain ⟨frames, c, cut, hcollected, hcount, hrejected, -⟩ := h
  obtain ⟨rfl, hr⟩ := hrejected r ho
  exact ⟨frames, c, hcollected, by simpa [ho] using hcount, hr⟩

/-- An operation that needs an open session and is not refused has had one. -/
theorem opened_of_not_refused {i : Instr} {s t : State} (hi : i = .txSend ∨ i = .rxAssemble ∨ i = .rxReceive ∨ i = .xchg)
    (hexec : exec i s = .next t) (ho : ∀ why, t.outcome ≠ some (.refused why)) : s.session = .opened := by
  by_contra hs
  obtain rfl := Host.Outcome.next.inj (hexec.symm.trans (endsOnly_noSession hi hs))
  exact ho _ rfl

theorem rxReceive_endsWithCandidate {s t : State} (hexec : exec .rxReceive s = .next t)
    (ho : ∀ why, t.outcome ≠ some (.refused why)) : EndsWithCandidate s t ∧ s.line.SendsStay t.line := by
  have hopen := opened_of_not_refused (.inr (.inr (.inl rfl))) hexec ho
  obtain ⟨frames, c, cut, hcollected, hstay, hends⟩ := receive_collected hopen hexec
  exact ⟨⟨frames, c, cut, hcollected, hends⟩, hstay⟩

/-- An exchange ends with its send, or behind one that ended `Ok` it ends as a receive does (R198): what the send has left on
the line reads as it did before. -/
theorem xchg_endsWithCandidate {s t : State} (hexec : exec .xchg s = .next t) :
    exec .txSend s = .next t ∨ (EndsWithCandidate s t ∧ SentOnce s t) := by
  rcases xchg_cases s with ⟨r, hxchg, hsend, -⟩ | ⟨hopen, l, hin, hcyc, hsent, hxchg⟩
  · exact .inl (hsend.trans (hxchg.symm.trans hexec))
  · obtain ⟨frames, c, cut, hcollected, hstay, hends⟩ :=
      receive_collected (s := { s with line := l, busy := true }) hopen (hxchg.symm.trans hexec)
    have hcollected' : Collected s t frames c cut :=
      Collected.congr (u := { s with line := l, busy := true }) (Line.answer_congr hin hcyc) rfl hcollected
    exact .inr ⟨⟨frames, c, cut, hcollected', hends⟩, _, hsent, rfl, hstay⟩

/-! ## Transport failure (R326, R327) -/

/-- What every transport failure leaves in the registers and in the transmit buffer. -/
theorem NextOf.failed_registers {i : Instr} {s t : State} (hn : NextOf i s t) (ho : t.outcome = some .transportError) :
    t.session = .failed ∧ t.busy = false ∧ t.seq = s.seq ∧ t.txBuf = s.txBuf ∧ t.txLen = s.txLen ∧
      t.rxStat = s.rxStat := by
  rcases hn.failed_cases ho with ⟨-, _, -, rfl⟩ | ⟨_, _, _, _, -, rfl⟩
  all_goals exact ⟨rfl, rfl, rfl, rfl, rfl, rfl⟩

/-- A failed open or send has read nothing. -/
theorem NextOf.failed_unread {i : Instr} {s t : State} (hn : NextOf i s t) (ho : t.outcome = some .transportError)
    (hi : (∃ d, i = .sessionOpen d) ∨ i = .txSend) :
    t.rxBuf = s.rxBuf ∧ t.rxPos = s.rxPos ∧ t.dbgCnt = s.dbgCnt ∧ s.line.Gone t.line 0 := by
  rcases hn.failed_cases ho with ⟨-, l, ⟨hin, hcyc⟩, rfl⟩ | ⟨_, _, _, _, hread, -⟩
  · refine ⟨rfl, rfl, rfl, fun k => ?_⟩
    rw [Nat.zero_add]
    exact Line.answer_congr hin hcyc k
  · rcases hi with ⟨_, rfl⟩ | rfl
    all_goals simp at hread

/-- An assembly does not count debug frames. -/
theorem NextOf.rxAssemble_failed_dbgCnt {s t : State} (hn : NextOf .rxAssemble s t)
    (ho : t.outcome = some .transportError) : t.dbgCnt = s.dbgCnt := by
  rcases hn.failed_cases ho with ⟨-, _, -, rfl⟩ | ⟨_, _, _, _, ⟨-, rfl⟩ | hi, rfl⟩
  · rfl
  · rfl
  · simp at hi

/-- Settles O18: the registers by `NextOf.failed_registers`, and what was collected by the lemma of each operation. -/
theorem transportErrorEffect : Obligations.TransportErrorEffect := by
  intro i s t hexec ho
  have hn := exec_next hexec
  have hnot : ∀ why, t.outcome ≠ some (.refused why) := by simp [ho]
  refine ⟨hn.failed_registers ho, hn.failed_unread ho, ?assemble, ?receive, ?xchg⟩
  case assemble =>
    rintro rfl
    have hopen := opened_of_not_refused (.inr (.inl rfl)) hexec hnot
    obtain ⟨c, cut, hcollected, hstay, -, hfailed⟩ := assembleOp_collected hopen hexec
    obtain ⟨rfl, hcut⟩ := hfailed ho
    exact ⟨⟨c, hcollected, hcut⟩, hn.rxAssemble_failed_dbgCnt ho, hstay⟩
  case receive =>
    rintro rfl
    exact (rxReceive_endsWithCandidate hexec hnot).imp_left fun h => h.failed ho
  case xchg =>
    rintro rfl
    exact (xchg_endsWithCandidate hexec).imp_right (And.imp_left fun h => h.failed ho)

/-! ## Rejection (R324) -/

/-- What every rejection leaves in the registers and in the transmit buffer. -/
theorem NextOf.rejected_registers {i : Instr} {s t : State} {r : RejectReason} (hn : NextOf i s t)
    (ho : t.outcome = some (.noFrame r)) :
    t.rxStat = .rejected r ∧ t.seq = s.seq ∧ t.session = s.session ∧ t.txBuf = s.txBuf ∧ t.txLen = s.txLen := by
  rcases hn.rejected_cases ho with ⟨-, -, rfl⟩ | ⟨-, -, _, _, _, rfl⟩ | ⟨-, _, _, _, _, rfl⟩
  all_goals exact ⟨rfl, rfl, rfl, rfl, rfl⟩

/-- A rejection ends an exchange where a receive meets it (10_state.md R23). -/
theorem NextOf.rejected_idle {i : Instr} {s t : State} {r : RejectReason} (hn : NextOf i s t)
    (ho : t.outcome = some (.noFrame r)) (hi : i = .rxReceive ∨ i = .xchg) : t.busy = false := by
  rcases hn.rejected_cases ho with ⟨hf, -⟩ | ⟨rfl, -⟩ | ⟨-, _, _, _, _, rfl⟩
  · rcases hi with rfl | rfl
    all_goals obtain ⟨_, hf⟩ | hf := hf
    all_goals cases hf
  · simp at hi
  · rfl

/-- A validation touches neither buffer nor line, and RX.ASSEMBLE no register beside `RXSTAT` and `RXPOS`. -/
theorem NextOf.rejected_kept {i : Instr} {s t : State} {r : RejectReason} (hn : NextOf i s t)
    (ho : t.outcome = some (.noFrame r)) (hr : i ≠ .rxReceive) (hx : i ≠ .xchg) :
    (t.busy = s.busy ∧ t.dbgCnt = s.dbgCnt) ∧
      (i ≠ .rxAssemble → t.rxBuf = s.rxBuf ∧ t.rxPos = s.rxPos ∧ t.line = s.line) := by
  rcases hn.rejected_cases ho with ⟨-, -, rfl⟩ | ⟨ha, -, _, _, _, rfl⟩ | ⟨hi, -⟩
  · exact ⟨⟨rfl, rfl⟩, fun _ => ⟨rfl, rfl, rfl⟩⟩
  · exact ⟨⟨rfl, rfl⟩, fun hne => absurd ha hne⟩
  · exact absurd hi (not_or.2 ⟨hr, hx⟩)

/-- A send ends without a rejection. -/
theorem txSend_not_rejected {s t : State} (hexec : exec .txSend s = .next t) (r : RejectReason) :
    t.outcome ≠ some (.noFrame r) := by
  intro ho
  simpa [mayEnd] using (exec_next hexec).mayEnd_noFrame rfl ho

/-- The one byte of a bad sync has been taken, and nothing else (R184). -/
theorem Collected.badSync {s t : State} {b : Byte} {cut : ReadAnswer} (h : Collected s t [] [b] cut) (hb : b ≠ 0x42) :
    s.line.answer 0 = .byte b ∧ s.line.Gone t.line 1 ∧ t.rxBuf.Holds [b] ∧ t.rxPos = 1 := by
  obtain ⟨-, ⟨hstarts, htook⟩, hholds, hpos⟩ := h
  obtain ⟨-, hgone⟩ := htook.resolve_right fun hcut => hb hcut.1
  exact ⟨hstarts 0 _ rfl, hgone, hholds, hpos⟩

/-- Settles O19: the registers by `NextOf.rejected_registers`, `NextOf.rejected_idle` and `NextOf.rejected_kept`, and what was
collected by the lemma of each operation. -/
theorem rejectionEffect : Obligations.RejectionEffect := by
  intro i s t r hexec ho
  have hnot : ∀ why, t.outcome ≠ some (.refused why) := by simp [ho]
  have hn := exec_next hexec
  have hxchg (hi : i = .xchg) : EndsWithCandidate s t ∧ SentOnce s t := by
    subst hi
    exact (xchg_endsWithCandidate hexec).resolve_left fun hsend => txSend_not_rejected hsend r ho
  have hreceive (hi : i = .rxReceive) : EndsWithCandidate s t ∧ s.line.SendsStay t.line := by
    subst hi
    exact rxReceive_endsWithCandidate hexec hnot
  refine ⟨hn.rejected_registers ho, fun hi => ⟨hn.rejected_idle ho hi, ?candidate⟩, fun hi => (hreceive hi).2,
    fun hi => (hxchg hi).2, fun hr hx => (hn.rejected_kept ho hr hx).1, ?assemble,
    fun hr hx => (hn.rejected_kept ho hr hx).2⟩
  case candidate => exact (hi.elim (fun h => (hreceive h).1) fun h => (hxchg h).1).rejected ho
  case assemble =>
    rintro rfl
    have hopen := opened_of_not_refused (.inr (.inl rfl)) hexec hnot
    obtain ⟨c, cut, hcollected, hstay, hrejected, -⟩ := assembleOp_collected hopen hexec
    obtain ⟨b, hb, rfl⟩ := hrejected r ho
    obtain ⟨hanswer, hgone, hholds, hpos⟩ := hcollected.badSync hb
    exact ⟨b, hb, hanswer, hgone, hholds, hpos, hstay⟩

end Sys2Proof.Machine

/-! The calls an operation makes of the Transport (spec/70_reset_and_hazards.md R381). The model records them newest first
(log 9), so each constructor of `NextOf` says what stands in front of the record; `exec_addsCalls` reads that off, once, for
every instruction. -/

namespace Sys2Proof.Machine

/-- With a session open, RX.ASSEMBLE reads the line: it is not refused (43_frame_rx.md R183). -/
theorem rxAssemble_not_refused {s t : State} (hopen : s.session = .opened) (hexec : exec .rxAssemble s = .next t)
    (why : RefusedWhy) : t.outcome ≠ some (.refused why) := by
  have hrun : execRxAssemble s = .next t := hexec
  rcases assembleOp_cases s with ⟨hshut, -⟩ | ⟨-, _, _, _, -, -, -, -, hends⟩
  · exact absurd hopen hshut
  · rcases hends with h | h | h
    all_goals
      cases h.symm.trans hrun
      exact nofun

/-- The calls, newest first, that an instruction may add to the record from `s`, where it leaves `DBGCNT` at `d`. An operation
that is refused adds none, nor does SESSION.CLOSE where nothing is open; an exchange that ends with its send reads nothing. -/
inductive CallsMade (s : State) (d : Nat) : Instr → List TrCall → Prop
  | none (i : Instr) (h : i = .rxAssemble → s.session ≠ .opened) : CallsMade s d i []
  | opened (descriptor : Bytes) : CallsMade s d (.sessionOpen descriptor) [.openLine descriptor]
  | closed : CallsMade s d .sessionClose [.closeLine]
  | sent : CallsMade s d .txSend [.sendBytes]
  | assembled (hs : s.session = .opened) (k : Nat) (hk : k + 1 ≤ maxFrame) :
      CallsMade s d .rxAssemble (List.replicate k (.readByte s.params.tShort) ++ [.readByte s.params.tLong])
  | received (reads : List TrCall) (hlen : reads.length ≤ maxFrame * (d + 1)) (hreads : ∀ c ∈ reads, IsRead s.params c) :
      CallsMade s d .rxReceive reads
  | exchanged (reads : List TrCall) (hlen : reads.length ≤ maxFrame * (d + 1)) (hreads : ∀ c ∈ reads, IsRead s.params c) :
      CallsMade s d .xchg (reads ++ [.sendBytes])

/-- What the instruction `i`, run from `s`, has put in front of the record of calls that `t` holds. -/
def AddsCalls (i : Instr) (s t : State) : Prop :=
  ∃ new, t.line.calls = new ++ s.line.calls ∧ CallsMade s t.dbgCnt i new

/-- An instruction that leaves the line as it is has called nothing. -/
theorem addsCalls_of_line_eq {i : Instr} {s t : State} (hline : t.line = s.line)
    (hi : i = .rxAssemble → s.session ≠ .opened) : AddsCalls i s t :=
  ⟨[], congrArg Line.calls hline, .none i hi⟩

theorem addsCalls_of_cons {i : Instr} {s t : State} {c : TrCall} (hcalls : t.line.calls = c :: s.line.calls)
    (hmade : CallsMade s t.dbgCnt i [c]) : AddsCalls i s t :=
  ⟨[c], hcalls, hmade⟩

theorem addsCalls_rxAssemble {s t : State} (hs : s.session = .opened)
    (hcalls : ∃ k, k + 1 ≤ maxFrame ∧
      t.line.calls = List.replicate k (.readByte s.params.tShort) ++ .readByte s.params.tLong :: s.line.calls) :
    AddsCalls .rxAssemble s t := by
  obtain ⟨k, hk, hcalls⟩ := hcalls
  exact ⟨_, hcalls.trans (List.append_cons _ _ _), .assembled hs k hk⟩

/-- Every instruction that goes on adds calls of its own kind, within its bound (R381). -/
theorem exec_addsCalls {i : Instr} {s t : State} (hexec : exec i s = .next t) : AddsCalls i s t := by
  cases exec_next hexec with
  | answer _ hi =>
    refine addsCalls_of_line_eq rfl ?_
    rintro rfl
    cases hi
  | refused why =>
    refine addsCalls_of_line_eq rfl ?_
    rintro rfl hopen
    exact rxAssemble_not_refused hopen hexec why rfl
  | notOpen hi | seqInit hi | seqAdvance hi =>
    subst hi
    exact addsCalls_of_line_eq rfl nofun
  | encoded _ _ hi | validated _ _ hi =>
    refine addsCalls_of_line_eq rfl ?_
    rintro rfl
    simp at hi
  | opened d _ hi _ hl | openFailed d _ hi _ hl =>
    subst hi
    exact addsCalls_of_cons hl (.opened d)
  | closed hi =>
    subst hi
    exact addsCalls_of_cons rfl .closed
  | sent _ hi _ _ hl =>
    subst hi
    exact addsCalls_of_cons hl .sent
  | sendFailed _ hi _ _ hl =>
    rcases hi with rfl | rfl
    · exact addsCalls_of_cons hl .sent
    · exact addsCalls_of_cons hl (.exchanged [] (Nat.zero_le _) nofun)
  | assembled _ _ _ hi hs _ _ _ hc | badSync _ _ _ hi hs _ _ _ hc | readFailed _ _ _ hi hs _ _ _ hc =>
    subst hi
    exact addsCalls_rxAssemble hs hc
  | received _ _ _ _ _ d _ _ _ _ hi _ hof =>
    obtain ⟨reads, hcalls, hlen, hreads⟩ := hof.reads
    rcases hi with ⟨rfl, rfl⟩ | ⟨rfl, -, hl₀⟩
    · exact ⟨reads, hcalls, .received reads hlen hreads⟩
    · have hmade : CallsMade s d .xchg (reads ++ [.sendBytes]) := .exchanged reads hlen hreads
      refine ⟨_, ?_, hmade⟩
      exact (hcalls.trans (congrArg (reads ++ ·) hl₀)).trans (List.append_cons _ _ _)

/-- Settles O20: the record by `exec_addsCalls`, and of each operation the kinds of `CallsMade` that it has. -/
theorem transportCallBounds : Obligations.TransportCallBounds := by
  intro i s t hexec
  obtain ⟨new, hcalls, hmade⟩ := exec_addsCalls hexec
  refine ⟨new, hcalls, ?send, ?assemble, ?receive, ?exchange, ?opening, ?closing, ?shut, ?others⟩
  case send =>
    rintro rfl
    cases hmade with
    | none => exact .inl rfl
    | sent => exact .inr rfl
  case assemble =>
    rintro rfl hopen
    cases hmade with
    | none _ h => exact absurd hopen (h rfl)
    | assembled _ k hk => exact ⟨by simp, by simpa [maxFrame] using hk, k, rfl⟩
  case receive =>
    rintro rfl
    cases hmade with
    | none => exact ⟨Nat.zero_le _, nofun⟩
    | received _ hlen hreads => exact ⟨hlen, hreads⟩
  case exchange =>
    rintro rfl
    cases hmade with
    | none => exact .inl rfl
    | exchanged reads hlen hreads => exact .inr ⟨reads, rfl, hreads, .inr hlen⟩
  case opening =>
    rintro d rfl
    cases hmade with
    | none => exact .inl rfl
    | opened => exact .inr rfl
  case closing =>
    rintro rfl
    cases hmade with
    | none => exact .inl rfl
    | closed => exact .inr rfl
  case shut =>
    rintro rfl hshut
    cases hmade with
    | none => rfl
    | assembled hs => exact absurd hs hshut
  case others =>
    intro huses
    cases hmade with
    | none => rfl
    | opened | closed | sent | assembled | received | exchanged => cases huses

end Sys2Proof.Machine
